-- ==== Sys2Proof/Word.lean ====
section
/-! DEFINITION. The word type of ReLM and the contents of one code-memory address (rules R5, R7, R25, R62). -/

namespace Sys2Proof

/-- A word: 32 bits, bit 0 the least significant (rules R5, R7). -/
abbrev Word := BitVec 32

/-- The instruction word at one code-memory address: the 5-bit opcode `op` and the 32-bit operand `x`
(rules R25, R70). It is held as the pair, because no instruction can observe a byte order (rule R62). -/
structure CodeWord where
  op : BitVec 5
  x : Word
deriving DecidableEq, Repr

/-- The word (0, 0), which is `LOAD 0`. -/
def CodeWord.blank : CodeWord := ⟨0, 0⟩

end Sys2Proof
end

