-- ==== Sys2Proof/Config.lean ====
section
/-! DEFINITION. The implementation parameters of rule R6. Those that are plain data (CODE_SIZE, the port maps,
FIFO_STICKY_IMMEDIATE, HAS_C, CUSTOM, the collision rule) form the structure Platform, which the state carries
unchanged, so that a statement about every state is a statement about every platform. Those that are functions or
that the decoder needs are constants without a body: nothing can be proved of their values. -/

namespace Sys2Proof

/-- One agent's turn (rules R31, R54, R186). -/
inductive Choice where
  /-- thread `t` executes one instruction or one getter step (rule R31) -/
  | run (t : Nat)
  /-- the background step performs thread `t`'s pending writeback to address `a` (rule R54) -/
  | drain (t a : Nat)
  /-- the threads `ts` access one port at the same time (rules R185, R186) -/
  | merge (ts : List Nat)
deriving DecidableEq, Repr, Inhabited

/-- The two port spaces (rule R26). -/
inductive PortSpace where
  | pushOut
  | popIo
deriving DecidableEq, Repr

/-- One access made to a device: the port space it came through and the output value presented
(rules R175, R176). -/
structure Access where
  space : PortSpace
  value : Word
deriving DecidableEq, Repr

/-- SHL1_HIGH, the value of `1 << Acc` for Acc >= 32 (rule R108, D4).
DESIGN CHOICE, safe (log entry 8): a free value, never a number. -/
opaque Config.shl1High : Word → Word

/-- The column of BLOADX in the opcode map's row 0x20 (rule R76). DESIGN CHOICE, safe (log entry 9). -/
opaque Config.bloadxColumn : Fin 7

/-- How far right of BLOADX the column of BSLOADX lies (rule R76). DESIGN CHOICE, safe (log entry 9). -/
opaque Config.bsloadxGap : Fin 7

/-- Which agent takes the next turn at draw number `n`, where the state leaves it open and no agent has run out of
patience (rule R220, D26). DESIGN CHOICE, safe (log entry 6). -/
opaque Config.schedule : Nat → Choice

/-- How many turns an agent that becomes able to act at draw number `n` can be passed over before its turn is due:
any number, but a number (rule R54's weak fairness, D26). DESIGN CHOICE, safe (log entry 6). -/
opaque Config.patience : Nat → Nat

/-- What the device with this number, which is not a built-in FIFO, answers to the last access of its history:
none for `retry`, a result for `done` (rules R175, R176). DESIGN CHOICE, safe (log entry 11). -/
opaque Config.deviceAnswer : Nat → List Access → Option Word

/-- OPX_BLOADX: at least 0x20 and below OPX_BSLOADX (rule R76). -/
def Config.opxBloadx : Nat := 0x20 + Config.bloadxColumn.val

/-- OPX_BSLOADX: above OPX_BLOADX and at most 0x27; every pair rule R76 admits is a value of the two constants. -/
def Config.opxBsloadx : Nat :=
  0x20 + (Config.bloadxColumn.val + 1 + Config.bsloadxGap.val % (7 - Config.bloadxColumn.val))

/-- The two forms of an instruction (rule R74). -/
inductive Form where
  | plain
  | opb
deriving DecidableEq, Repr

/-- The argument of CUSTOM: form, code, acc, XB and, where register C exists, its value (rule R200). -/
structure CustomKey where
  form : Form
  code : Word
  acc : Word
  xb : Word
  c : Option Word
deriving DecidableEq, Repr

/-- What a custom instruction does to the pc: `next`, stay (a stall or a retry), or a jump (rule R200, U20). -/
inductive PcEffect where
  | next
  | stay
  | jump (target : Word)
deriving DecidableEq, Repr

/-- A result of CUSTOM: for each piece of state, the new value where the extension says it changes
(rule R200, U20). DESIGN CHOICE, safe (log entry 10). -/
structure CustomResult where
  acc : Option Word
  b : Option Word
  c : Option Word
  /-- an operand write (target address, value), made by the lazy writeback of rule R46 -/
  store : Option (Word × Word)
  pc : PcEffect
deriving DecidableEq, Repr

/-- The parameters of rule R6 that are data. No step changes them. -/
structure Platform where
  /-- CODE_SIZE: the addresses that exist are 0 .. codeSize - 1 (rule R58, D6) -/
  codeSize : Nat
  /-- OUT_MAP: the device number on each mapped PUSH/OUT port (rule R175) -/
  outMap : List (Word × Nat)
  /-- IO_MAP: the device number on each mapped POP/IO port (rule R176) -/
  ioMap : List (Word × Nat)
  /-- FIFO_STICKY_IMMEDIATE (rule R183, D18) -/
  stickyImmediate : Bool
  /-- HAS_C (rule R24, D23) -/
  hasC : Bool
  /-- CUSTOM, as the table of the arguments it gives a meaning and their results (rule R200, D9) -/
  custom : List (CustomKey × CustomResult)
  /-- true: writebacks collide when they share a bank; false: only when they share an address, the default of
  rule R54 (rules R41, R48) -/
  bankCollisions : Bool
deriving DecidableEq, Repr

end Sys2Proof
end

