-- ==== Sys2Proof/Syntax.lean ====
section
/-! DEFINITION. The instructions of ReLM: one constructor per row of spec/opcode_table.json (rules R73, R75, R78).
A plain form carries its 32-bit operand X; an OPB form carries none, its operand is Register B (rule R74). -/

namespace Sys2Proof

inductive Instr where
  /-- LOAD X (rule R103) -/
  | load (x : Word)
  /-- SWAP: the operand is the cell itself (rule R195) -/
  | swap (x : Word)
  /-- BLOAD X (rule R104) -/
  | bload (x : Word)
  /-- BSLOAD X (rule R105) -/
  | bsload (x : Word)
  /-- ADD X (rule R123) -/
  | add (x : Word)
  /-- AND X (rule R120) -/
  | and (x : Word)
  /-- XOR X (rule R121) -/
  | xor (x : Word)
  /-- OR X (rule R122) -/
  | or (x : Word)
  /-- PUSH X, also written OUT X (rule R178) -/
  | push (x : Word)
  /-- POP X, also written IO X (rule R179) -/
  | pop (x : Word)
  /-- PUT X (rule R140) -/
  | put (x : Word)
  /-- PUTS X, bit 31 of X set (rule R141) -/
  | puts (x : Word)
  /-- PUTM X, bit 31 of X clear (rule R142) -/
  | putm (x : Word)
  /-- RSUB X (rule R125) -/
  | rsub (x : Word)
  /-- JEQ X (rule R151) -/
  | jeq (x : Word)
  /-- JNE X (rule R152) -/
  | jne (x : Word)
  /-- JUMP X (rule R150) -/
  | jump (x : Word)
  /-- UGT X (rule R165) -/
  | ugt (x : Word)
  /-- ULT X (rule R166) -/
  | ult (x : Word)
  /-- IGT X (rule R167) -/
  | igt (x : Word)
  /-- ILT X (rule R168) -/
  | ilt (x : Word)
  /-- SUB X (rule R124) -/
  | sub (x : Word)
  /-- MUL X (rule R126) -/
  | mul (x : Word)
  /-- SHR X (rule R127) -/
  | shr (x : Word)
  /-- SAR X (rule R128) -/
  | sar (x : Word)
  /-- custom0 X (rule R200) -/
  | custom0 (x : Word)
  /-- custom1 X (rule R200) -/
  | custom1 (x : Word)
  /-- custom2 X (rule R200) -/
  | custom2 (x : Word)
  /-- custom3 X (rule R200) -/
  | custom3 (x : Word)
  /-- custom4 X (rule R200) -/
  | custom4 (x : Word)
  /-- custom5 X (rule R200) -/
  | custom5 (x : Word)
  /-- custom6 X (rule R200) -/
  | custom6 (x : Word)
  /-- OPB E, for an operand E that no other row takes: reserved for custom extensions (rules R100, R81) -/
  | opb (e : Word)
  /-- OPB LOAD (rule R103) -/
  | opbLoad
  /-- OPB SHIFT (rule R109) -/
  | opbShift
  /-- OPB BLOAD (rule R104) -/
  | opbBload
  /-- OPB BSLOAD (rule R105) -/
  | opbBsload
  /-- OPB ADD (rule R123) -/
  | opbAdd
  /-- OPB AND (rule R120) -/
  | opbAnd
  /-- OPB XOR (rule R121) -/
  | opbXor
  /-- OPB OR (rule R122) -/
  | opbOr
  /-- OPB PUSH (rule R178) -/
  | opbPush
  /-- OPB POP (rule R179) -/
  | opbPop
  /-- OPB PUT (rule R140) -/
  | opbPut
  /-- OPB PUTM (rule R142) -/
  | opbPutm
  /-- OPB RSUB (rule R125) -/
  | opbRsub
  /-- OPB JEQ (rule R151) -/
  | opbJeq
  /-- OPB JNE (rule R152) -/
  | opbJne
  /-- OPB JUMP (rule R150) -/
  | opbJump
  /-- OPB UGT (rule R165) -/
  | opbUgt
  /-- OPB ULT (rule R166) -/
  | opbUlt
  /-- OPB IGT (rule R167) -/
  | opbIgt
  /-- OPB ILT (rule R168) -/
  | opbIlt
  /-- OPB SUB (rule R124) -/
  | opbSub
  /-- OPB MUL (rule R126) -/
  | opbMul
  /-- OPB SHR (rule R127) -/
  | opbShr
  /-- OPB SAR (rule R128) -/
  | opbSar
  /-- OPB custom0 (rule R200) -/
  | opbCustom0
  /-- OPB custom1 (rule R200) -/
  | opbCustom1
  /-- OPB custom2 (rule R200) -/
  | opbCustom2
  /-- OPB custom3 (rule R200) -/
  | opbCustom3
  /-- OPB custom4 (rule R200) -/
  | opbCustom4
  /-- OPB custom5 (rule R200) -/
  | opbCustom5
  /-- OPB custom6 (rule R200) -/
  | opbCustom6
  /-- HALT, OPB of OPB (rule R102) -/
  | halt
  /-- OPB BLOADX (rule R106) -/
  | opbBloadx
  /-- OPB BSLOADX (rule R107) -/
  | opbBsloadx
deriving DecidableEq, Repr

end Sys2Proof
end

