-- ==== Sys2Proof/WellFormed.lean ====
section
/-! DEFINITION. Which instruction terms the encoding of rules R73 to R81 admits. -/

namespace Sys2Proof

/-- The three restrictions on operands: PUTS has bit 31 of X set and PUTM has it clear (rule R73); the generic OPB
names no basic operation, not HALT, and neither of the two OPB-type operations (rules R75, R81). -/
def Instr.wellFormed : Instr → Bool
  | .puts x => x.msb
  | .putm x => !x.msb
  | .opb e => decide (0x20 ≤ e.toNat) && (e.toNat != Config.opxBloadx) && (e.toNat != Config.opxBsloadx)
  | _ => true

end Sys2Proof
end

