-- ==== Sys2Proof/Decode.lean ====
section
/-! DEFINITION. The decoder (rules R73 to R82), the encoder written from the same opcode map, and the canonical
37-bit packing of an instruction (rule R71). -/

namespace Sys2Proof

/-- The OPB-type opcodes, numbered 0x20 onwards: BLOADX and BSLOADX lie in the row 0x20 .. 0x27 at columns the
spec leaves open; every other number is reserved (rules R75, R76, R81). -/
def decodeOpbExtended (e : Word) : Instr :=
  if 0x20 ≤ e.toNat ∧ e.toNat ≤ 0x27 then
    if e.toNat = Config.opxBloadx then .opbBloadx
    else if e.toNat = Config.opxBsloadx then .opbBsloadx
    else .opb e
  else .opb e

/-- The OPB form: the whole of X is the number of the operation (rule R75). -/
def decodeOpb (e : Word) : Instr :=
  match e.toNat with
  | 0 => .opbLoad
  | 1 => .opbShift
  | 2 => .opbBload
  | 3 => .opbBsload
  | 4 => .opbAdd
  | 5 => .opbAnd
  | 6 => .opbXor
  | 7 => .opbOr
  | 8 => .opbPush
  | 9 => .opbPop
  | 10 => .opbPut
  | 11 => .opbPutm
  | 12 => .opbRsub
  | 13 => .opbJeq
  | 14 => .opbJne
  | 15 => .opbJump
  | 16 => .opbUgt
  | 17 => .opbUlt
  | 18 => .opbIgt
  | 19 => .opbIlt
  | 20 => .opbSub
  | 21 => .opbMul
  | 22 => .opbShr
  | 23 => .opbSar
  | 24 => .opbCustom0
  | 25 => .opbCustom1
  | 26 => .opbCustom2
  | 27 => .opbCustom3
  | 28 => .opbCustom4
  | 29 => .opbCustom5
  | 30 => .opbCustom6
  | 31 => .halt
  | _ => decodeOpbExtended e

/-- The instruction an instruction word is. Every one of the 32 opcodes is assigned, so every word has one
(rules R73, R75, R78, R82). -/
def decode (w : CodeWord) : Instr :=
  match w.op.toNat with
  | 0 => .load w.x
  | 1 => .swap w.x
  | 2 => .bload w.x
  | 3 => .bsload w.x
  | 4 => .add w.x
  | 5 => .and w.x
  | 6 => .xor w.x
  | 7 => .or w.x
  | 8 => .push w.x
  | 9 => .pop w.x
  | 10 => .put w.x
  | 11 => if w.x.msb then .puts w.x else .putm w.x
  | 12 => .rsub w.x
  | 13 => .jeq w.x
  | 14 => .jne w.x
  | 15 => .jump w.x
  | 16 => .ugt w.x
  | 17 => .ult w.x
  | 18 => .igt w.x
  | 19 => .ilt w.x
  | 20 => .sub w.x
  | 21 => .mul w.x
  | 22 => .shr w.x
  | 23 => .sar w.x
  | 24 => .custom0 w.x
  | 25 => .custom1 w.x
  | 26 => .custom2 w.x
  | 27 => .custom3 w.x
  | 28 => .custom4 w.x
  | 29 => .custom5 w.x
  | 30 => .custom6 w.x
  | _ => decodeOpb w.x

/-- The word of an instruction (rules R73, R75, R78). -/
def encode : Instr → CodeWord
  | .load x => ⟨0, x⟩
  | .swap x => ⟨1, x⟩
  | .bload x => ⟨2, x⟩
  | .bsload x => ⟨3, x⟩
  | .add x => ⟨4, x⟩
  | .and x => ⟨5, x⟩
  | .xor x => ⟨6, x⟩
  | .or x => ⟨7, x⟩
  | .push x => ⟨8, x⟩
  | .pop x => ⟨9, x⟩
  | .put x => ⟨10, x⟩
  | .puts x => ⟨11, x⟩
  | .putm x => ⟨11, x⟩
  | .rsub x => ⟨12, x⟩
  | .jeq x => ⟨13, x⟩
  | .jne x => ⟨14, x⟩
  | .jump x => ⟨15, x⟩
  | .ugt x => ⟨16, x⟩
  | .ult x => ⟨17, x⟩
  | .igt x => ⟨18, x⟩
  | .ilt x => ⟨19, x⟩
  | .sub x => ⟨20, x⟩
  | .mul x => ⟨21, x⟩
  | .shr x => ⟨22, x⟩
  | .sar x => ⟨23, x⟩
  | .custom0 x => ⟨24, x⟩
  | .custom1 x => ⟨25, x⟩
  | .custom2 x => ⟨26, x⟩
  | .custom3 x => ⟨27, x⟩
  | .custom4 x => ⟨28, x⟩
  | .custom5 x => ⟨29, x⟩
  | .custom6 x => ⟨30, x⟩
  | .opb e => ⟨31, e⟩
  | .opbLoad => ⟨31, 0⟩
  | .opbShift => ⟨31, 1⟩
  | .opbBload => ⟨31, 2⟩
  | .opbBsload => ⟨31, 3⟩
  | .opbAdd => ⟨31, 4⟩
  | .opbAnd => ⟨31, 5⟩
  | .opbXor => ⟨31, 6⟩
  | .opbOr => ⟨31, 7⟩
  | .opbPush => ⟨31, 8⟩
  | .opbPop => ⟨31, 9⟩
  | .opbPut => ⟨31, 10⟩
  | .opbPutm => ⟨31, 11⟩
  | .opbRsub => ⟨31, 12⟩
  | .opbJeq => ⟨31, 13⟩
  | .opbJne => ⟨31, 14⟩
  | .opbJump => ⟨31, 15⟩
  | .opbUgt => ⟨31, 16⟩
  | .opbUlt => ⟨31, 17⟩
  | .opbIgt => ⟨31, 18⟩
  | .opbIlt => ⟨31, 19⟩
  | .opbSub => ⟨31, 20⟩
  | .opbMul => ⟨31, 21⟩
  | .opbShr => ⟨31, 22⟩
  | .opbSar => ⟨31, 23⟩
  | .opbCustom0 => ⟨31, 24⟩
  | .opbCustom1 => ⟨31, 25⟩
  | .opbCustom2 => ⟨31, 26⟩
  | .opbCustom3 => ⟨31, 27⟩
  | .opbCustom4 => ⟨31, 28⟩
  | .opbCustom5 => ⟨31, 29⟩
  | .opbCustom6 => ⟨31, 30⟩
  | .halt => ⟨31, 31⟩
  | .opbBloadx => ⟨31, BitVec.ofNat 32 Config.opxBloadx⟩
  | .opbBsloadx => ⟨31, BitVec.ofNat 32 Config.opxBsloadx⟩

/-- The canonical packing of rule R71: W[36:32] = OP, W[31:0] = X. -/
def CodeWord.packed (w : CodeWord) : Nat := w.op.toNat * 2 ^ 32 + w.x.toNat

/-- The word whose canonical packing is the low 37 bits of `n` (rule R71). -/
def CodeWord.ofPacked (n : Nat) : CodeWord := ⟨BitVec.ofNat 5 (n / 2 ^ 32), BitVec.ofNat 32 n⟩

/-- Why a number is not the packing of an instruction. -/
inductive DecodeReject where
  /-- the number does not fit in the 37 bits of an instruction (rules R5, R71) -/
  | widerThanAnInstruction
deriving DecidableEq, Repr

/-- The instruction whose canonical packing is `n`; a number of more than 37 bits is rejected by name. -/
def decodePacked (n : Nat) : Except DecodeReject Instr :=
  if n < 2 ^ 37 then .ok (decode (CodeWord.ofPacked n)) else .error .widerThanAnInstruction

/-- The decoder on the table's numbering: the low `nbits` bits of `w` are the instruction and every bit above is 0.
The table writes the 37 bits in five bytes; bits 39 to 37 of that container are no bits of the instruction
(rule R71; log entry 21). -/
def decodeTableWord (nbits w : Nat) : Option Instr :=
  match decodePacked (w % 2 ^ nbits % 2 ^ 37) with
  | .ok i => some i
  | .error _ => none

end Sys2Proof
end

