-- ==== Sys2Proof/Machine/Flags.lean ====
section
/-! DEFINITION. ReLM has no flags (rule R27): conditions are whole words in Acc. This file holds the conditions:
the four comparisons (rules R165 to R169) and the test of Acc by the conditional jumps (rules R151, R152). -/

namespace Sys2Proof.Machine

/-- A comparison's result, the full word 1 or 0 (rule R169). -/
def conditionWord (p : Bool) : Word := if p then 1 else 0

/-- UGT's condition (rule R165). -/
def unsignedGreater (acc xb : Word) : Bool := decide (xb.toNat < acc.toNat)

/-- ULT's condition (rule R166). -/
def unsignedLess (acc xb : Word) : Bool := decide (acc.toNat < xb.toNat)

/-- IGT's condition (rule R167). -/
def signedGreater (acc xb : Word) : Bool := decide (xb.toInt < acc.toInt)

/-- ILT's condition (rule R168). -/
def signedLess (acc xb : Word) : Bool := decide (acc.toInt < xb.toInt)

/-- What JEQ and JNE test: the 32-bit value of Acc itself (rule R151). -/
def accIsZero (acc : Word) : Bool := acc == 0

end Sys2Proof.Machine
end

