-- ==== Sys2Proof/Machine/Device.lean ====
section
/-! DEFINITION. The devices on the ports: the built-in FIFO (rules R180 to R183) and any other device, of which the
spec gives the interface only (rules R175, R176). -/

namespace Sys2Proof.Machine

/-- The state of one device. -/
inductive Device where
  /-- a built-in FIFO: its capacity FIFO_DEPTH, its queue, oldest first, and its `force` bit (rule R180) -/
  | fifo (depth : Nat) (queue : List Word) (force : Bool)
  /-- a device whose behaviour the spec does not give: every access made to it, oldest first (log entry 11) -/
  | other (history : List Access)
deriving DecidableEq, Repr

/-- A device's answer to one access and its state afterwards: no result for `retry`, a result for `done`. On a
PUSH/OUT port the result of `done` goes nowhere (rule R175). -/
structure DeviceReply where
  device : Device
  result : Option Word
deriving DecidableEq, Repr

/-- FIFO write side (rule R181). -/
def fifoPush (depth : Nat) (queue : List Word) (force : Bool) (v : Word) : DeviceReply :=
  if queue.length = depth then ⟨.fifo depth queue force, none⟩
  else ⟨.fifo depth (queue ++ [v]) force, some 0⟩

/-- `req` of rule R182, with `force` as rule R183 and FIFO_STICKY_IMMEDIATE have it. -/
def fifoRequest (sticky force : Bool) (v : Word) : Bool :=
  v.getLsbD 0 || force || (sticky && v.msb)

/-- FIFO read side: a status query, a readout, or a retry; the special command is remembered whatever the answer
(rules R182, R183). -/
def fifoPop (sticky : Bool) (depth : Nat) (queue : List Word) (force : Bool) (v : Word) : DeviceReply :=
  let force' := force || v.msb
  if fifoRequest sticky force v then
    match queue with
    | r :: rest => ⟨.fifo depth rest force', some r⟩
    | [] => ⟨.fifo depth [] force', none⟩
  else ⟨.fifo depth queue force', some (if queue.isEmpty then 0 else 1)⟩

/-- One access to the device numbered `id` through one port space. -/
def Device.access (sticky : Bool) (id : Nat) (space : PortSpace) (v : Word) : Device → DeviceReply
  | .fifo depth queue force =>
    match space with
    | .pushOut => fifoPush depth queue force v
    | .popIo => fifoPop sticky depth queue force v
  | .other history =>
    let history' := history ++ [⟨space, v⟩]
    ⟨.other history', Config.deviceAnswer id history'⟩

end Sys2Proof.Machine
end

