-- ==== Sys2Proof/Machine/Thread.lean ====
section
/-! DEFINITION. One thread: its registers, its pending writebacks, and what a step does to its own record
(rules R20 to R24, R29, R30). -/

namespace Sys2Proof.Machine

/-- A pending lazy writeback of `value` to the operand at `addr`; `fresh` until the thread's next fetch
(rules R46, R47, R54). -/
structure Pending where
  addr : Nat
  value : Word
  fresh : Bool
deriving DecidableEq, Repr

/-- The state private to one thread (rule R30). -/
structure Thread where
  pc : Word
  acc : Word
  b : Word
  /-- the custom register, which exists where the platform says HAS_C (rule R24) -/
  c : Word
  /-- set by HALT, never cleared (rules R29, R102) -/
  halted : Bool
  /-- the model's own: the last increment of the pc carried out of bit 30 (rule R22; log entry 5) -/
  overrun : Bool
  /-- pending writebacks, in program order (rule R54) -/
  wb : List Pending
deriving DecidableEq, Repr

/-- The getter flag, pc[31] (rule R22). -/
def Thread.getter (th : Thread) : Bool := th.pc.msb

/-- The code-memory address, pc[30:0] (rules R22, R31). -/
def Thread.addr (th : Thread) : Nat := th.pc.toNat % 2 ^ 31

/-- `next`: pc + 1. A carry out of bit 30 makes the next fetch fault and never sets the getter flag
(rules R22, R155; log entry 5). -/
def Thread.advance (th : Thread) : Thread :=
  { th with pc := th.pc + 1, overrun := decide (th.pc.toNat % 2 ^ 31 = 2 ^ 31 - 1) }

/-- `pc <- target`, the whole word, bit 31 the getter flag (rule R153). -/
def Thread.jump (th : Thread) (target : Word) : Thread :=
  { th with pc := target, overrun := false }

/-- The value of the thread's own pending writeback to address `a`, if it has one (rule R44). -/
def Thread.pendingValue (th : Thread) (a : Nat) : Option Word :=
  (th.wb.find? fun p => p.addr == a).map Pending.value

/-- The pending writebacks after a fetch of address `a`: the one to `a` is performed, the others are no longer
fresh (rule R54). -/
def Thread.fetched (th : Thread) (a : Nat) : Thread :=
  { th with wb := (th.wb.filter fun p => p.addr != a).map fun p => { p with fresh := false } }

/-- Queue a writeback, fresh (rules R46, R54). -/
def Thread.queue (th : Thread) (a : Nat) (v : Word) : Thread :=
  { th with wb := th.wb ++ [⟨a, v, true⟩] }

end Sys2Proof.Machine
end

