-- ==== Sys2Proof/Machine/Launch.lean ====
section
/-! DEFINITION. The launch values of rule R32 and the values the model names where the spec states none
(log entries 1 and 2). -/

namespace Sys2Proof.Machine

/-- A thread at launch: not halted, nothing pending (rule R32); the registers, for which the spec states no value,
zero. DESIGN CHOICE, unsafe (log entry 1). -/
def Thread.launch : Thread :=
  { pc := 0, acc := 0, b := 0, c := 0, halted := false, overrun := false, wb := [] }

/-- The threads at launch. DESIGN CHOICE, unsafe (log entry 2): NCPU = 1. -/
def launchThreads : List Thread := [Thread.launch]

/-- The devices at launch. DESIGN CHOICE, safe (log entry 2): none. -/
def launchDevices : List Device := []

/-- The platform at launch. DESIGN CHOICE (log entry 2): every address there can be, no port mapped, no extension. -/
def launchPlatform : Platform :=
  { codeSize := 2 ^ 31, outMap := [], ioMap := [], stickyImmediate := false, hasC := true, custom := [],
    bankCollisions := false }

end Sys2Proof.Machine
end

