-- ==== Sys2Proof/Machine/Memory.lean ====
section
/-! DEFINITION. Code memory as a sparse list of (address, word) in one canonical form (rules R25, R40, R62):
addresses strictly rising, no entry equal to what an unlisted address reads as. -/

namespace Sys2Proof.Machine

/-- Code memory: the listed addresses and their words. The unit is the instruction word, which is what an address
names and no instruction can divide (rules R40, R62; log entry 4). -/
abbrev Memory := List (Nat × CodeWord)

/-- What an address that is not listed holds. DESIGN CHOICE, unsafe (log entry 3): it stands for the parameter
IMAGE at the addresses no program was loaded to. -/
def Memory.unlisted : CodeWord := CodeWord.blank

/-- M[a] (rule R25). -/
def Memory.read : Memory → Nat → CodeWord
  | [], _ => Memory.unlisted
  | (k, w) :: rest, a => if k = a then w else Memory.read rest a

/-- M[a] := w, keeping the canonical form. -/
def Memory.write : Memory → Nat → CodeWord → Memory
  | [], a, w => if w = Memory.unlisted then [] else [(a, w)]
  | (k, v) :: rest, a, w =>
    if a < k then (if w = Memory.unlisted then (k, v) :: rest else (a, w) :: (k, v) :: rest)
    else if a = k then (if w = Memory.unlisted then rest else (a, w) :: rest)
    else (k, v) :: Memory.write rest a w

/-- M[a].x := v; the opcode stays (rules R25, R46). -/
def Memory.writeOperand (m : Memory) (a : Nat) (v : Word) : Memory :=
  Memory.write m a { Memory.read m a with x := v }

/-- `k` lies above the bound `lo`, if there is one. -/
def Memory.above (lo : Option Nat) (k : Nat) : Bool :=
  match lo with
  | none => true
  | some l => decide (l < k)

/-- Every listed address lies above `lo`, addresses rise strictly, and no entry is the unlisted word. -/
def Memory.wfAbove : Option Nat → Memory → Bool
  | _, [] => true
  | lo, (k, w) :: rest => Memory.above lo k && (w != Memory.unlisted) && Memory.wfAbove (some k) rest

/-- The canonical form holds. -/
def Memory.wf (m : Memory) : Bool := Memory.wfAbove none m

end Sys2Proof.Machine
end

