-- ==== Sys2Proof/Machine/State.lean ====
section
/-! DEFINITION. The state of the whole machine (rules R20 to R32), the reasons a step can stop (rule R212), and the
launch state (rules R32, R230). -/

namespace Sys2Proof.Machine

/-- The model faults of rule R212. None is an event of the hardware: each says that the spec does not tell what the
chip does there, and each is terminal. -/
inductive Fault where
  /-- raised by a fetch or a getter step outside code memory, and by PUT, PUTS, PUTM and a custom store on a target
  outside it (rule R57). Safe: the chip may alias the address and go on. -/
  | badAddress
  /-- raised by a custom code or a reserved OPB operand to which CUSTOM gives no meaning (rules R81, R200). Safe. -/
  | reservedOpcode
  /-- raised by PUSH/OUT and POP/IO on a port with no device (rules R175, R176). Safe. -/
  | noDevice
  /-- raised by a merged access to a POP/IO port (rule R186). Safe. -/
  | portRace
deriving DecidableEq, Repr

/-- The refusals of the model. -/
inductive Refusal where
  /-- the form the host fixes for an instruction without a meaning; no arm of `exec` answers it. Safe. -/
  | notModelled (mnemonic : String)
deriving DecidableEq, Repr

/-- A turn that is waiting to be taken, and how many turns it can still be passed over (rule R54; log entry 6). -/
structure Wait where
  turn : Choice
  left : Nat
deriving DecidableEq, Repr

/-- The state of the machine. -/
structure State where
  /-- the threads, one per CPU; NCPU is their number (rule R220) -/
  threads : List Thread
  /-- the code memory M (rule R25) -/
  mem : Memory
  /-- the devices, numbered by their place (rules R26, R29) -/
  devices : List Device
  /-- the parameters of rule R6 that are data; no step changes them -/
  plat : Platform
  /-- the model's own: which thread is 'the executing thread' (rule R8; log entry 7) -/
  cur : Nat
  /-- the operand the last fetch read out from the memory, before the coincident writeback (rules R31, R45) -/
  readout : Word
  /-- the model's own: turns already decided, taken first (log entry 6) -/
  agenda : List Choice
  /-- the model's own: how many free values the schedule has drawn (log entry 6) -/
  draws : Nat
  /-- the model's own: the turns that are waiting, the longest first, which keeps the schedule fair
  (rule R54, D26; log entry 6) -/
  waits : List Wait
deriving DecidableEq, Repr

/-- The machine at launch, with nothing loaded (rules R32, R224, R230; log entries 1, 2, 3, 20). -/
def State.reset : State :=
  { threads := launchThreads, mem := [], devices := launchDevices, plat := launchPlatform,
    cur := 0, readout := 0, agenda := [], draws := 0, waits := [] }

end Sys2Proof.Machine
end

