-- ==== Sys2Proof/Machine/Ops.lean ====
section
/-! DEFINITION. The named operations over registers, memory and ports that the meanings are written over
(rule R8). There is no exception entry and no return from one among them: the machine has neither (rules R210, R214);
a model fault is `.fault`. -/

namespace Sys2Proof.Machine

/-- The outcome of a step of this machine. -/
abbrev Result := Host.Outcome State Fault Refusal

/-- The executing thread's record (rule R8). -/
def State.thread (s : State) : Thread := s.threads[s.cur]?.getD Thread.launch

/-- Change thread `t`'s record. -/
def State.mapThread (s : State) (t : Nat) (f : Thread → Thread) : State :=
  { s with threads := s.threads.modify t f }

/-- Change the executing thread's record. -/
def State.upd (s : State) (f : Thread → Thread) : State := s.mapThread s.cur f

/-- `next` for the executing thread (rule R22). -/
def State.advance (s : State) : State := s.upd Thread.advance

/-- NBANK, taken equal to NCPU (rule R41, D11). -/
def State.nbank (s : State) : Nat := s.threads.length

/-- bank(a) = a mod NBANK (rule R41). -/
def State.bank (s : State) (a : Nat) : Nat := a % s.nbank

/-- Whether a new writeback to `a` collides with one pending to `a'`: they share a bank, or, by the default of
rule R54, an address (rule R48). -/
def State.collides (s : State) (a a' : Nat) : Bool :=
  if s.plat.bankCollisions then s.bank a == s.bank a' else a == a'

/-- Perform pending writebacks in list order (rules R47, R48). -/
def performAll (m : Memory) (wb : List Pending) : Memory :=
  wb.foldl (fun m p => m.writeOperand p.addr p.value) m

/-- `MemWrite(a, 1, v)` by the executing thread: none for an address that does not exist; on a collision every
pending writeback of the thread is performed first; then the new one is queued, fresh (rules R46, R48, R54). -/
def State.memWrite (s : State) (a : Nat) (v : Word) : Option State :=
  if a < s.plat.codeSize then
    if s.thread.wb.any fun p => s.collides a p.addr then
      some ({ s with mem := performAll s.mem s.thread.wb }.upd fun th => { th with wb := [] }.queue a v)
    else some (s.upd fun th => th.queue a v)
  else none

/-- `MemRead(a, 1)` by thread `th`: its own pending value, else what the memory holds (rule R44). -/
def State.memRead (s : State) (th : Thread) (a : Nat) : Word :=
  (th.pendingValue a).getD (s.mem.read a).x

/-- The state after thread `t`, whose record is `th`, has fetched the address in its pc: its coincident writeback
performed, its other writebacks no longer fresh, the value read out from the memory latched for SWAP
(rules R31, R45, R47, R54). -/
def State.fetch (s : State) (t : Nat) (th : Thread) : State :=
  { s with
    cur := t
    readout := (s.mem.read th.addr).x
    mem := match th.pendingValue th.addr with
      | some v => s.mem.writeOperand th.addr v
      | none => s.mem
    threads := s.threads.modify t fun th => th.fetched th.addr }

/-- The background step for thread `t` and address `a`; it does nothing where no writeback that is not fresh is
pending there (rule R54). -/
def State.drain (s : State) (t a : Nat) : State :=
  match s.threads[t]? with
  | some th =>
    match th.wb.find? fun p => p.addr == a && !p.fresh with
    | some p =>
      { s with mem := s.mem.writeOperand a p.value }.mapThread t fun th =>
        { th with wb := th.wb.eraseP fun q => q.addr == a && !q.fresh }
    | none => s
  | none => s

/-- The device number on a port, if one is mapped there (rules R175, R176). -/
def deviceOn (p : Platform) (space : PortSpace) (port : Word) : Option Nat :=
  match space with
  | .pushOut => p.outMap.lookup port
  | .popIo => p.ioMap.lookup port

/-- One access to a port: none where no device is mapped; else the answer (a result for `done`, none for `retry`)
and the state with the device as the access leaves it (rules R175, R176). -/
def State.portAccess (s : State) (space : PortSpace) (port v : Word) : Option (Option Word × State) :=
  match deviceOn s.plat space port with
  | some id =>
    match s.devices[id]? with
    | some d =>
      let reply : DeviceReply := d.access s.plat.stickyImmediate id space v
      some (reply.result, { s with devices := s.devices.set id reply.device })
    | none => none
  | none => none

end Sys2Proof.Machine
end

