-- ==== Sys2Proof/Machine/Operands.lean ====
section
/-! DEFINITION. The operand forms (rule R74) and the value functions of rules R7, R108 and R126 to R128. -/

namespace Sys2Proof.Machine

/-- The effective operand XB: X in the plain form, Register B in the OPB form (rule R74). -/
inductive Operand where
  | imm (x : Word)
  | regB
deriving DecidableEq, Repr

/-- XB, B as it stood before the instruction (rule R74). -/
def Thread.xb (th : Thread) : Operand → Word
  | .imm x => x
  | .regB => th.b

/-- XB of the executing thread. -/
def State.xb (s : State) (o : Operand) : Word := s.thread.xb o

/-- The form an operand belongs to (rule R74). -/
def Operand.form : Operand → Form
  | .imm _ => .plain
  | .regB => .opb

/-- `shl1`, the source's `1 << Acc`: 2^u(a) below 32, SHL1_HIGH from 32 on (rules R7, R108). -/
def shl1 (a : Word) : Word := if a.toNat < 32 then 1#32 <<< a.toNat else Config.shl1High a

/-- `rev`, bit reverse (rule R7). -/
def rev (v : Word) : Word := v.reverse

/-- The sign bit of `v` copied to all 32 bits (rule R128, D3). -/
def signMask (v : Word) : Word := if v.msb then 0xFFFFFFFF else 0

/-- SHR's formula (rule R127). -/
def shrValue (acc xb : Word) : Word := rev (rev acc * xb)

/-- SAR's formula (rule R128). -/
def sarValue (acc xb : Word) : Word := rev (rev (acc ^^^ signMask acc) * xb) ^^^ signMask acc

/-- The flag bit of an address-carrying word (rules R5, R141, R142). -/
def flagBit : Word := 0x80000000

end Sys2Proof.Machine
end

