-- ==== Sys2Proof/Machine/Binary.lean ====
section
/-! DEFINITION. Binary operations (rules R120 to R130) and comparisons (rules R165 to R169). -/

namespace Sys2Proof.Machine

/-- acc <- f(acc, XB), then `next` (rules R120 to R128, R165 to R168). -/
def binary (f : Word → Word → Word) (o : Operand) (s : State) : Result :=
  .next (s.upd fun th => { th with acc := f th.acc (th.xb o) }.advance)

/-- AND (rule R120). -/
def execAnd (x : Word) (s : State) : Result :=
  binary (· &&& ·) (.imm x) s

/-- OPB AND (rules R120, R74). -/
def execOpbAnd (s : State) : Result :=
  binary (· &&& ·) .regB s

/-- XOR (rule R121). -/
def execXor (x : Word) (s : State) : Result :=
  binary (· ^^^ ·) (.imm x) s

/-- OPB XOR (rules R121, R74). -/
def execOpbXor (s : State) : Result :=
  binary (· ^^^ ·) .regB s

/-- OR (rule R122). -/
def execOr (x : Word) (s : State) : Result :=
  binary (· ||| ·) (.imm x) s

/-- OPB OR (rules R122, R74). -/
def execOpbOr (s : State) : Result :=
  binary (· ||| ·) .regB s

/-- ADD (rule R123). -/
def execAdd (x : Word) (s : State) : Result :=
  binary (· + ·) (.imm x) s

/-- OPB ADD (rules R123, R74). -/
def execOpbAdd (s : State) : Result :=
  binary (· + ·) .regB s

/-- SUB (rule R124). -/
def execSub (x : Word) (s : State) : Result :=
  binary (· - ·) (.imm x) s

/-- OPB SUB (rules R124, R74). -/
def execOpbSub (s : State) : Result :=
  binary (· - ·) .regB s

/-- RSUB: XB - Acc (rule R125). -/
def execRsub (x : Word) (s : State) : Result :=
  binary (fun acc xb => xb - acc) (.imm x) s

/-- OPB RSUB: XB - Acc (rules R125, R74). -/
def execOpbRsub (s : State) : Result :=
  binary (fun acc xb => xb - acc) .regB s

/-- MUL (rule R126). -/
def execMul (x : Word) (s : State) : Result :=
  binary (· * ·) (.imm x) s

/-- OPB MUL (rules R126, R74). -/
def execOpbMul (s : State) : Result :=
  binary (· * ·) .regB s

/-- SHR (rule R127). -/
def execShr (x : Word) (s : State) : Result :=
  binary shrValue (.imm x) s

/-- OPB SHR (rules R127, R74). -/
def execOpbShr (s : State) : Result :=
  binary shrValue .regB s

/-- SAR (rule R128). -/
def execSar (x : Word) (s : State) : Result :=
  binary sarValue (.imm x) s

/-- OPB SAR (rules R128, R74). -/
def execOpbSar (s : State) : Result :=
  binary sarValue .regB s

/-- UGT (rule R165). -/
def execUgt (x : Word) (s : State) : Result :=
  binary (fun acc xb => conditionWord (unsignedGreater acc xb)) (.imm x) s

/-- OPB UGT (rules R165, R74). -/
def execOpbUgt (s : State) : Result :=
  binary (fun acc xb => conditionWord (unsignedGreater acc xb)) .regB s

/-- ULT (rule R166). -/
def execUlt (x : Word) (s : State) : Result :=
  binary (fun acc xb => conditionWord (unsignedLess acc xb)) (.imm x) s

/-- OPB ULT (rules R166, R74). -/
def execOpbUlt (s : State) : Result :=
  binary (fun acc xb => conditionWord (unsignedLess acc xb)) .regB s

/-- IGT (rule R167). -/
def execIgt (x : Word) (s : State) : Result :=
  binary (fun acc xb => conditionWord (signedGreater acc xb)) (.imm x) s

/-- OPB IGT (rules R167, R74). -/
def execOpbIgt (s : State) : Result :=
  binary (fun acc xb => conditionWord (signedGreater acc xb)) .regB s

/-- ILT (rule R168). -/
def execIlt (x : Word) (s : State) : Result :=
  binary (fun acc xb => conditionWord (signedLess acc xb)) (.imm x) s

/-- OPB ILT (rules R168, R74). -/
def execOpbIlt (s : State) : Result :=
  binary (fun acc xb => conditionWord (signedLess acc xb)) .regB s

end Sys2Proof.Machine
end

