-- ==== Sys2Proof/Machine/Transfer.lean ====
section
/-! DEFINITION. The stores PUT, PUTS, PUTM (rules R140 to R143) and SWAP (rule R195). -/

namespace Sys2Proof.Machine

/-- `MemWrite(u(target), 1, v)`, then `next`; a target outside code memory is a fault (rules R46, R57). -/
def store (target v : Word) (s : State) : Result :=
  match s.memWrite target.toNat v with
  | some s' => .next s'.advance
  | none => .fault .badAddress

/-- PUT: store Acc (rule R140). -/
def execPut (x : Word) (s : State) : Result := store (s.xb (.imm x)) s.thread.acc s

/-- OPB PUT: store Acc at the address in B (rules R140, R74). -/
def execOpbPut (s : State) : Result := store (s.xb .regB) s.thread.acc s

/-- PUTS: store `1 << Acc` at X with bit 31 flipped (rule R141). -/
def execPuts (x : Word) (s : State) : Result := store (x ^^^ flagBit) (shl1 s.thread.acc) s

/-- PUTM: store Acc with bit 31 flipped (rule R142). -/
def execPutm (x : Word) (s : State) : Result := store (s.xb (.imm x)) (s.thread.acc ^^^ flagBit) s

/-- OPB PUTM: the same at the address in B (rules R142, R74, D24). -/
def execOpbPutm (s : State) : Result := store (s.xb .regB) (s.thread.acc ^^^ flagBit) s

/-- SWAP: acc <- the operand as memory held it before the thread's own coincident writeback (rules R45, R195). -/
def execSwap (_x : Word) (s : State) : Result :=
  .next (s.upd fun th => { th with acc := s.readout }.advance)

end Sys2Proof.Machine
end

