-- ==== Sys2Proof/Machine/Custom.lean ====
section
/-! DEFINITION. The custom codes (rules R80, R200 to R202), executed through the parameter CUSTOM. -/

namespace Sys2Proof.Machine

/-- The argument CUSTOM is given: register C only where it exists (rules R24, R200). -/
def State.customKey (s : State) (code : Word) (o : Operand) : CustomKey :=
  { form := o.form, code := code, acc := s.thread.acc, xb := s.xb o,
    c := if s.plat.hasC then some s.thread.c else none }

/-- The pc after a custom instruction (rule R200, U20). -/
def Thread.customPc (th : Thread) : PcEffect → Thread
  | .next => th.advance
  | .stay => th
  | .jump target => th.jump target

/-- The thread's record after a custom instruction: C changes only where it exists (rules R24, R200). -/
def Thread.customResult (th : Thread) (hasC : Bool) (r : CustomResult) : Thread :=
  { th with
    acc := r.acc.getD th.acc
    b := r.b.getD th.b
    c := if hasC then r.c.getD th.c else th.c }.customPc r.pc

/-- A custom operation: what CUSTOM says, and where CUSTOM gives no meaning a fault (rules R80, R81, R200). -/
def customOp (code : Word) (o : Operand) (s : State) : Result :=
  match s.plat.custom.lookup (s.customKey code o) with
  | none => .fault .reservedOpcode
  | some r =>
    match r.store with
    | none => .next (s.upd fun th => th.customResult s.plat.hasC r)
    | some (target, v) =>
      match s.memWrite target.toNat v with
      | some s' => .next (s'.upd fun th => th.customResult s.plat.hasC r)
      | none => .fault .badAddress

/-- custom0 (rule R200). -/
def execCustom0 (x : Word) (s : State) : Result := customOp 0x18 (.imm x) s

/-- OPB custom0 (rule R200). -/
def execOpbCustom0 (s : State) : Result := customOp 0x18 .regB s

/-- custom1 (rule R200). -/
def execCustom1 (x : Word) (s : State) : Result := customOp 0x19 (.imm x) s

/-- OPB custom1 (rule R200). -/
def execOpbCustom1 (s : State) : Result := customOp 0x19 .regB s

/-- custom2 (rule R200). -/
def execCustom2 (x : Word) (s : State) : Result := customOp 0x1a (.imm x) s

/-- OPB custom2 (rule R200). -/
def execOpbCustom2 (s : State) : Result := customOp 0x1a .regB s

/-- custom3 (rule R200). -/
def execCustom3 (x : Word) (s : State) : Result := customOp 0x1b (.imm x) s

/-- OPB custom3 (rule R200). -/
def execOpbCustom3 (s : State) : Result := customOp 0x1b .regB s

/-- custom4 (rule R200). -/
def execCustom4 (x : Word) (s : State) : Result := customOp 0x1c (.imm x) s

/-- OPB custom4 (rule R200). -/
def execOpbCustom4 (s : State) : Result := customOp 0x1c .regB s

/-- custom5 (rule R200). -/
def execCustom5 (x : Word) (s : State) : Result := customOp 0x1d (.imm x) s

/-- OPB custom5 (rule R200). -/
def execOpbCustom5 (s : State) : Result := customOp 0x1d .regB s

/-- custom6 (rule R200). -/
def execCustom6 (x : Word) (s : State) : Result := customOp 0x1e (.imm x) s

/-- OPB custom6 (rule R200). -/
def execOpbCustom6 (s : State) : Result := customOp 0x1e .regB s

end Sys2Proof.Machine
end

