-- ==== Sys2Proof/Machine/Io.lean ====
section
/-! DEFINITION. PUSH/OUT and POP/IO (rules R175 to R179). -/

namespace Sys2Proof.Machine

/-- PUSH/OUT: output XB to the PUSH/OUT port Acc; on `retry` the pc stays (rules R177, R178). -/
def pushOut (o : Operand) (s : State) : Result :=
  match s.portAccess .pushOut s.thread.acc (s.xb o) with
  | none => .fault .noDevice
  | some (none, s') => .next s'
  | some (some _, s') => .next s'.advance

/-- POP/IO: output Acc to the POP/IO port XB; on `done` the result is Acc's new value, on `retry` nothing changes
(rules R177, R179). -/
def popIo (o : Operand) (s : State) : Result :=
  match s.portAccess .popIo (s.xb o) s.thread.acc with
  | none => .fault .noDevice
  | some (none, s') => .next s'
  | some (some r, s') => .next (s'.upd fun th => { th with acc := r }.advance)

/-- PUSH, which is OUT (rule R178). -/
def execPush (x : Word) (s : State) : Result := pushOut (.imm x) s

/-- OPB PUSH, which is OUT (rules R178, R74). -/
def execOpbPush (s : State) : Result := pushOut .regB s

/-- POP, which is IO (rule R179). -/
def execPop (x : Word) (s : State) : Result := popIo (.imm x) s

/-- OPB POP, which is IO (rules R179, R74). -/
def execOpbPop (s : State) : Result := popIo .regB s

end Sys2Proof.Machine
end

