-- ==== Sys2Proof/Machine/Jump.lean ====
section
/-! DEFINITION. JUMP, JEQ, JNE (rules R150 to R153). -/

namespace Sys2Proof.Machine

/-- pc <- XB where the condition on Acc holds, else `next` (rules R150 to R153). -/
def branch (taken : Word → Bool) (o : Operand) (s : State) : Result :=
  .next (s.upd fun th => if taken th.acc then th.jump (th.xb o) else th.advance)

/-- JUMP (rule R150). -/
def execJump (x : Word) (s : State) : Result := branch (fun _ => true) (.imm x) s

/-- OPB JUMP (rules R150, R74). -/
def execOpbJump (s : State) : Result := branch (fun _ => true) .regB s

/-- JEQ (rule R151). -/
def execJeq (x : Word) (s : State) : Result := branch accIsZero (.imm x) s

/-- OPB JEQ (rules R151, R74). -/
def execOpbJeq (s : State) : Result := branch accIsZero .regB s

/-- JNE (rule R152). -/
def execJne (x : Word) (s : State) : Result := branch (fun acc => !accIsZero acc) (.imm x) s

/-- OPB JNE (rules R152, R74). -/
def execOpbJne (s : State) : Result := branch (fun acc => !accIsZero acc) .regB s

/-- What a getter step does to the thread: the operand peeked becomes Acc and the old Acc the pc (rule R154). -/
def Thread.peeked (th : Thread) (v : Word) : Thread :=
  { th with acc := v }.jump th.acc

end Sys2Proof.Machine
end

