-- ==== Sys2Proof/Machine/Load.lean ====
section
/-! DEFINITION. The load family and HALT (rules R102 to R109). -/

namespace Sys2Proof.Machine

/-- Register transfers: the new Acc and the new B, both from the thread as it stood, then `next`
(rules R8, R103 to R109). -/
def registers (acc b : Thread → Word) (s : State) : Result :=
  .next (s.upd fun th => { th with acc := acc th, b := b th }.advance)

/-- LOAD: acc <- XB (rule R103). -/
def execLoad (x : Word) (s : State) : Result :=
  registers (Thread.xb · (.imm x)) Thread.b s

/-- OPB LOAD: acc <- XB (rules R103, R74). -/
def execOpbLoad (s : State) : Result :=
  registers (Thread.xb · .regB) Thread.b s

/-- BLOAD: b <- acc, acc <- XB (rule R104). -/
def execBload (x : Word) (s : State) : Result :=
  registers (Thread.xb · (.imm x)) Thread.acc s

/-- OPB BLOAD: b <- acc, acc <- XB (rules R104, R74). -/
def execOpbBload (s : State) : Result :=
  registers (Thread.xb · .regB) Thread.acc s

/-- BSLOAD: b <- shl1(acc), acc <- XB (rule R105). -/
def execBsload (x : Word) (s : State) : Result :=
  registers (Thread.xb · (.imm x)) (fun th => shl1 th.acc) s

/-- OPB BSLOAD: b <- shl1(acc), acc <- XB (rules R105, R74). -/
def execOpbBsload (s : State) : Result :=
  registers (Thread.xb · .regB) (fun th => shl1 th.acc) s

/-- OPB BLOADX: b <- acc (rule R106). -/
def execOpbBloadx (s : State) : Result := registers Thread.acc Thread.acc s

/-- OPB BSLOADX: b <- shl1(acc) (rule R107). -/
def execOpbBsloadx (s : State) : Result := registers Thread.acc (fun th => shl1 th.acc) s

/-- OPB SHIFT: acc <- shl1(acc) (rule R109). -/
def execOpbShift (s : State) : Result := registers (fun th => shl1 th.acc) Thread.b s

/-- HALT: the thread's halted flag is set; the pc stays (rule R102). -/
def execHalt (s : State) : Result := .next (s.upd fun th => { th with halted := true })

end Sys2Proof.Machine
end

