-- ==== Sys2Proof/Machine/Opb.lean ====
section
/-! DEFINITION. OPB, the generic row of the opcode table (rule R100). -/

namespace Sys2Proof.Machine

/-- OPB-type opcodes 0x20 onwards: BLOADX, BSLOADX, and the rest reserved for CUSTOM (rules R76, R81, R100). -/
def opbExtended (e : Word) (s : State) : Result :=
  if 0x20 ≤ e.toNat ∧ e.toNat ≤ 0x27 then
    if e.toNat = Config.opxBloadx then execOpbBloadx s
    else if e.toNat = Config.opxBsloadx then execOpbBsloadx s
    else customOp e .regB s
  else customOp e .regB s

/-- OPB E: execute the operation that E numbers, with B as its operand (rule R100). The decoder answers this
instruction only for a number that no other row takes, so that the last line is the one a program reaches. -/
def execOpb (e : Word) (s : State) : Result :=
  match e.toNat with
  | 0 => execOpbLoad s
  | 1 => execOpbShift s
  | 2 => execOpbBload s
  | 3 => execOpbBsload s
  | 4 => execOpbAdd s
  | 5 => execOpbAnd s
  | 6 => execOpbXor s
  | 7 => execOpbOr s
  | 8 => execOpbPush s
  | 9 => execOpbPop s
  | 10 => execOpbPut s
  | 11 => execOpbPutm s
  | 12 => execOpbRsub s
  | 13 => execOpbJeq s
  | 14 => execOpbJne s
  | 15 => execOpbJump s
  | 16 => execOpbUgt s
  | 17 => execOpbUlt s
  | 18 => execOpbIgt s
  | 19 => execOpbIlt s
  | 20 => execOpbSub s
  | 21 => execOpbMul s
  | 22 => execOpbShr s
  | 23 => execOpbSar s
  | 24 => execOpbCustom0 s
  | 25 => execOpbCustom1 s
  | 26 => execOpbCustom2 s
  | 27 => execOpbCustom3 s
  | 28 => execOpbCustom4 s
  | 29 => execOpbCustom5 s
  | 30 => execOpbCustom6 s
  | 31 => execHalt s
  | _ => opbExtended e s

end Sys2Proof.Machine
end

