-- ==== Sys2Proof/Machine/Dispatch.lean ====
section
/-! DEFINITION. One arm per instruction, each a call of its meaning. -/

namespace Sys2Proof.Machine

def exec (i : Instr) (s : State) : Host.Outcome State Fault Refusal :=
  match i with
  | .load x => Sys2Proof.Machine.execLoad x s
  | .swap x => Sys2Proof.Machine.execSwap x s
  | .bload x => Sys2Proof.Machine.execBload x s
  | .bsload x => Sys2Proof.Machine.execBsload x s
  | .add x => Sys2Proof.Machine.execAdd x s
  | .and x => Sys2Proof.Machine.execAnd x s
  | .xor x => Sys2Proof.Machine.execXor x s
  | .or x => Sys2Proof.Machine.execOr x s
  | .push x => Sys2Proof.Machine.execPush x s
  | .pop x => Sys2Proof.Machine.execPop x s
  | .put x => Sys2Proof.Machine.execPut x s
  | .puts x => Sys2Proof.Machine.execPuts x s
  | .putm x => Sys2Proof.Machine.execPutm x s
  | .rsub x => Sys2Proof.Machine.execRsub x s
  | .jeq x => Sys2Proof.Machine.execJeq x s
  | .jne x => Sys2Proof.Machine.execJne x s
  | .jump x => Sys2Proof.Machine.execJump x s
  | .ugt x => Sys2Proof.Machine.execUgt x s
  | .ult x => Sys2Proof.Machine.execUlt x s
  | .igt x => Sys2Proof.Machine.execIgt x s
  | .ilt x => Sys2Proof.Machine.execIlt x s
  | .sub x => Sys2Proof.Machine.execSub x s
  | .mul x => Sys2Proof.Machine.execMul x s
  | .shr x => Sys2Proof.Machine.execShr x s
  | .sar x => Sys2Proof.Machine.execSar x s
  | .custom0 x => Sys2Proof.Machine.execCustom0 x s
  | .custom1 x => Sys2Proof.Machine.execCustom1 x s
  | .custom2 x => Sys2Proof.Machine.execCustom2 x s
  | .custom3 x => Sys2Proof.Machine.execCustom3 x s
  | .custom4 x => Sys2Proof.Machine.execCustom4 x s
  | .custom5 x => Sys2Proof.Machine.execCustom5 x s
  | .custom6 x => Sys2Proof.Machine.execCustom6 x s
  | .opb e => Sys2Proof.Machine.execOpb e s
  | .opbLoad => Sys2Proof.Machine.execOpbLoad s
  | .opbShift => Sys2Proof.Machine.execOpbShift s
  | .opbBload => Sys2Proof.Machine.execOpbBload s
  | .opbBsload => Sys2Proof.Machine.execOpbBsload s
  | .opbAdd => Sys2Proof.Machine.execOpbAdd s
  | .opbAnd => Sys2Proof.Machine.execOpbAnd s
  | .opbXor => Sys2Proof.Machine.execOpbXor s
  | .opbOr => Sys2Proof.Machine.execOpbOr s
  | .opbPush => Sys2Proof.Machine.execOpbPush s
  | .opbPop => Sys2Proof.Machine.execOpbPop s
  | .opbPut => Sys2Proof.Machine.execOpbPut s
  | .opbPutm => Sys2Proof.Machine.execOpbPutm s
  | .opbRsub => Sys2Proof.Machine.execOpbRsub s
  | .opbJeq => Sys2Proof.Machine.execOpbJeq s
  | .opbJne => Sys2Proof.Machine.execOpbJne s
  | .opbJump => Sys2Proof.Machine.execOpbJump s
  | .opbUgt => Sys2Proof.Machine.execOpbUgt s
  | .opbUlt => Sys2Proof.Machine.execOpbUlt s
  | .opbIgt => Sys2Proof.Machine.execOpbIgt s
  | .opbIlt => Sys2Proof.Machine.execOpbIlt s
  | .opbSub => Sys2Proof.Machine.execOpbSub s
  | .opbMul => Sys2Proof.Machine.execOpbMul s
  | .opbShr => Sys2Proof.Machine.execOpbShr s
  | .opbSar => Sys2Proof.Machine.execOpbSar s
  | .opbCustom0 => Sys2Proof.Machine.execOpbCustom0 s
  | .opbCustom1 => Sys2Proof.Machine.execOpbCustom1 s
  | .opbCustom2 => Sys2Proof.Machine.execOpbCustom2 s
  | .opbCustom3 => Sys2Proof.Machine.execOpbCustom3 s
  | .opbCustom4 => Sys2Proof.Machine.execOpbCustom4 s
  | .opbCustom5 => Sys2Proof.Machine.execOpbCustom5 s
  | .opbCustom6 => Sys2Proof.Machine.execOpbCustom6 s
  | .halt => Sys2Proof.Machine.execHalt s
  | .opbBloadx => Sys2Proof.Machine.execOpbBloadx s
  | .opbBsloadx => Sys2Proof.Machine.execOpbBsloadx s

end Sys2Proof.Machine
end

