-- ==== Sys2Proof/Machine/Turn.lean ====
section
/-! DEFINITION. What one turn of an agent does: a thread's step (rule R31), the background step (rule R54), a merged
port access (rules R185, R186). -/

namespace Sys2Proof.Machine

/-- Whether the fetch of the address in the pc is a fault (rules R22, R31, R57). -/
def State.badFetch (s : State) (th : Thread) : Bool :=
  th.overrun || decide (s.plat.codeSize ≤ th.addr)

/-- The word a fetch of the address in the pc delivers: the opcode and the forwarded operand (rules R31, R44). -/
def State.fetchedWord (s : State) (th : Thread) : CodeWord :=
  ⟨(s.mem.read th.addr).op, s.memRead th th.addr⟩

/-- One step of thread `t`, whose record is `th` and which is not halted (rules R31, R154). -/
def State.stepThread (s : State) (t : Nat) (th : Thread) : Result :=
  if s.badFetch th then .fault .badAddress
  else if th.getter then
    .next ((s.fetch t th).upd fun th' => th'.peeked (s.memRead th th.addr))
  else exec (decode (s.fetchedWord th)) (s.fetch t th)

/-- Thread `t`'s turn; a halted thread executes nothing (rule R102), and a number that is no thread's is idle. -/
def State.runThread (s : State) (t : Nat) : Result :=
  match s.threads[t]? with
  | some th => if th.halted then .next s else s.stepThread t th
  | none => .next s

/-- A port access a thread is about to make: port space, port number and output value (rules R178, R179). -/
structure PoisedAccess where
  space : PortSpace
  port : Word
  value : Word
deriving DecidableEq, Repr

/-- The access an I/O instruction makes; none for every other instruction (rules R178, R179). -/
def Thread.portUse (th : Thread) : Instr → Option PoisedAccess
  | .push x => some ⟨.pushOut, th.acc, x⟩
  | .opbPush => some ⟨.pushOut, th.acc, th.b⟩
  | .pop x => some ⟨.popIo, x, th.acc⟩
  | .opbPop => some ⟨.popIo, th.b, th.acc⟩
  | .load _ | .swap _ | .bload _ | .bsload _ | .add _ | .and _ | .xor _ | .or _ | .put _ | .puts _ | .putm _
  | .rsub _ | .jeq _ | .jne _ | .jump _ | .ugt _ | .ult _ | .igt _ | .ilt _ | .sub _ | .mul _ | .shr _ | .sar _
  | .custom0 _ | .custom1 _ | .custom2 _ | .custom3 _ | .custom4 _ | .custom5 _ | .custom6 _ | .opb _ | .opbLoad
  | .opbShift | .opbBload | .opbBsload | .opbAdd | .opbAnd | .opbXor | .opbOr | .opbPut | .opbPutm | .opbRsub
  | .opbJeq | .opbJne | .opbJump | .opbUgt | .opbUlt | .opbIgt | .opbIlt | .opbSub | .opbMul | .opbShr | .opbSar
  | .opbCustom0 | .opbCustom1 | .opbCustom2 | .opbCustom3 | .opbCustom4 | .opbCustom5 | .opbCustom6 | .halt
  | .opbBloadx | .opbBsloadx => none

/-- The access thread `t` stands at: it is not halted, not in getter mode, and its next instruction is an I/O
instruction (rule R186). -/
def State.poised (s : State) (t : Nat) : Option PoisedAccess :=
  match s.threads[t]? with
  | some th =>
    if th.halted || s.badFetch th || th.getter then none
    else th.portUse (decode (s.fetchedWord th))
  | none => none

/-- The accesses all of these threads stand at, if each stands at one. -/
def State.poisedAll (s : State) : List Nat → Option (List PoisedAccess)
  | [] => some []
  | t :: ts =>
    match s.poised t, s.poisedAll ts with
    | some p, some ps => some (p :: ps)
    | _, _ => none

/-- Whether two accesses are to the same port of the same space (rule R185). -/
def PoisedAccess.samePort (p q : PoisedAccess) : Bool := p.space == q.space && p.port == q.port

/-- Each of these threads fetches, in this order. -/
def State.fetchAll (s : State) (ts : List Nat) : State :=
  ts.foldl (fun s t => match s.threads[t]? with | some th => s.fetch t th | none => s) s

/-- A merged PUSH/OUT access: one access with the OR of the values; on `done` every participant does `next`, on
`retry` none moves (rules R185, R186; log entry 13). -/
def State.mergedPush (s : State) (ts : List Nat) (port v : Word) : Result :=
  match (s.fetchAll ts).portAccess .pushOut port v with
  | none => .fault .noDevice
  | some (none, s') => .next s'
  | some (some _, s') => .next (ts.foldl (fun s t => s.mapThread t Thread.advance) s')

/-- The merged access of the threads `ts`, if they are two or more different threads that stand at accesses to one
port of one space: its value is the OR of theirs (rules R185, R186). -/
def State.mergedAccess (s : State) (ts : List Nat) : Option PoisedAccess :=
  match s.poisedAll ts with
  | some (p :: q :: ps) =>
    if decide ts.Nodup && (q :: ps).all p.samePort then
      some { p with value := (q :: ps).foldl (fun v r => v ||| r.value) p.value }
    else none
  | _ => none

/-- The turn in which the threads `ts` access one port at the same time; idle where they cannot (rule R186). -/
def State.runMerge (s : State) (ts : List Nat) : Result :=
  match s.mergedAccess ts with
  | some p =>
    match p.space with
    | .popIo => .fault .portRace
    | .pushOut => s.mergedPush ts p.port p.value
  | none => .next s

/-- One turn. -/
def State.turn (s : State) : Choice → Result
  | .run t => s.runThread t
  | .drain t a => .next (s.drain t a)
  | .merge ts => s.runMerge ts

/-- Thread record made ready to fetch: not halted, in normal mode, at an address that exists, nothing pending to
it. -/
def Thread.readied (th : Thread) (codeSize : Nat) : Thread :=
  let a := if th.overrun || decide (codeSize ≤ th.addr) then 0 else th.addr
  { th with
    halted := false, overrun := false, pc := BitVec.ofNat 32 a
    wb := th.wb.filter fun p => p.addr != a }

/-- `s` with the word `w` at thread 0's address, thread 0 ready to fetch it and next in turn (log entry 20). -/
def State.place (s : State) (w : CodeWord) : State :=
  let size := max 1 s.plat.codeSize
  let th := (s.threads[0]?.getD Thread.launch).readied size
  { s with
    agenda := .run 0 :: s.agenda
    plat := { s.plat with codeSize := size }
    threads := th :: s.threads.drop 1
    mem := s.mem.write th.addr w }

end Sys2Proof.Machine
end

