-- ==== Sys2Proof/Machine/Schedule.lean ====
section
/-! DEFINITION. Which turn comes next (rule R220): the agenda's, else a free choice that is fair (rule R54, D26). -/

namespace Sys2Proof.Machine

/-- The turns one thread alone enables: its step unless it is halted, and a background step for each of its
writebacks that is not fresh (rules R31, R54, R102). -/
def Thread.turns (th : Thread) (t : Nat) : List Choice :=
  (if th.halted then [] else [.run t])
    ++ (th.wb.filter fun p => !p.fresh).map fun p => .drain t p.addr

/-- The turns the threads enable one by one, from thread number `t` on. -/
def turnsFrom : Nat → List Thread → List Choice
  | _, [] => []
  | t, th :: ths => th.turns t ++ turnsFrom (t + 1) ths

/-- The turns that the threads enable one by one in `s`. -/
def State.enabledTurns (s : State) : List Choice := turnsFrom 0 s.threads

/-- Whether a turn can be taken in `s`: one that a thread enables, or a merged access (rules R31, R54, R186). -/
def State.enables (s : State) : Choice → Bool
  | .merge ts => (s.mergedAccess ts).isSome
  | .run t => s.enabledTurns.contains (.run t)
  | .drain t a => s.enabledTurns.contains (.drain t a)

/-- The turns that taking one turn serves: itself, or, for a merged access, each participant's (rule R186). -/
def serves : Choice → List Choice
  | .merge ts => ts.map .run
  | .run t => [.run t]
  | .drain t a => [.drain t a]

/-- Turns that begin to wait, with the patience drawn for each from draw number `d` on. -/
def beginWaiting : Nat → List Choice → List Wait
  | _, [] => []
  | d, c :: cs => ⟨c, Config.patience d⟩ :: beginWaiting (d + 1) cs

/-- Whether a turn is on the list of waiting turns. -/
def waiting (ws : List Wait) (c : Choice) : Bool := ws.any fun w => w.turn == c

/-- The turns waiting in `s`, the longest first: those on the list that are enabled still, then those that were
not. -/
def State.survey (s : State) : List Wait :=
  let kept := s.waits.filter fun w => s.enabledTurns.contains w.turn
  kept ++ beginWaiting s.draws (s.enabledTurns.filter fun c => !waiting kept c)

/-- The waiting turns after the turn `c`: those it serves are taken off, the others have one turn less. -/
def passedOver (ws : List Wait) (c : Choice) : List Wait :=
  (ws.filter fun w => !(serves c).contains w.turn).map fun w => { w with left := w.left - 1 }

/-- The turn that is taken out of those waiting: the first that is due; else the free choice, where it can be
taken; else `first`. -/
def State.choose (s : State) (ws : List Wait) (first : Choice) : Choice :=
  match ws.find? fun w => w.left == 0 with
  | some w => w.turn
  | none => if s.enables (Config.schedule s.draws) then Config.schedule s.draws else first

/-- The next turn and the state with that turn taken off the schedule. Where the agenda decides nothing: a turn that
is idle, if no turn is enabled (a final state, rule R216); the only enabled turn, if there is only one; else a fair
free choice: one of the enabled turns, and none is passed over for ever (rules R54, R220, D26; log entry 6). -/
def State.nextChoice (s : State) : Choice × State :=
  match s.agenda with
  | c :: rest => (c, { s with agenda := rest })
  | [] =>
    match s.enabledTurns with
    | [] => (.merge [], s)
    | [c] => (c, { s with waits := [] })
    | first :: _ =>
      let c := s.choose s.survey first
      (c, { s with waits := passedOver s.survey c, draws := s.draws + s.survey.length + 1 })

end Sys2Proof.Machine
end

