-- ==== Sys2Proof/Machine/Timing.lean ====
section
/-! DEFINITION. The timing the spec records (rules R41, R242). No step reads it: the model has no clock (D26). -/

namespace Sys2Proof.Machine

/-- The latency, in cycles, of a taken jump at address `a` to address `target` in a ring of `n` CPUs: one cycle for
the bank after the jump's own, a whole lap for the jump's own bank (rule R242). -/
def jumpLatency (n a target : Nat) : Nat := (((target : Int) - (a + 1)) % (n : Int)).toNat + 1

/-- The latency beyond the one cycle of an instruction (rule R242). -/
def jumpPenalty (n a target : Nat) : Nat := jumpLatency n a target - 1

end Sys2Proof.Machine
end

