-- ==== Sys2Proof/Machine/Step.lean ====
section
/-! DEFINITION. One step of the machine: the next turn, taken. -/

namespace Sys2Proof.Machine

/-- One step: the next turn (rules R31, R54, R186, R220). -/
def step (s : State) : Host.Outcome State Fault Refusal :=
  s.nextChoice.2.turn s.nextChoice.1

/-- `s` with the instruction `w`, numbered as the opcode table numbers it, where the next step fetches: the next
turn is thread 0's (log entry 20). -/
def State.withFetchWord (s : State) (nbits w : Nat) : State :=
  s.place (CodeWord.ofPacked (w % 2 ^ nbits))

end Sys2Proof.Machine
end

