-- ==== Sys2Proof/Safety.lean ====
section
/-! DEFINITION. The terms claims are made in: the end of a run (rule R216), the invariant of a machine (rules R25,
R48, R54, R57, R102, R180), and what one instruction leaves alone (rules R27, R28, R30). -/

namespace Sys2Proof.Machine

/-- `cur` names a thread. -/
def State.Running (s : State) : Prop := s.cur < s.threads.length

/-- A final state: every thread halted and nothing pending (rule R216). -/
def State.final (s : State) : Bool := s.threads.all fun th => th.halted && th.wb.isEmpty

/-- A safe outcome: neither a fault nor a refusal (rules R212, R216). -/
def Result.safe : Result → Bool
  | .next _ => true
  | .fault _ => false
  | .refused _ => false

/-- Two addresses collide: with the tightening of rule R54 where they share a bank, the address modulo NCPU; by its
default where they are equal (rules R41, R48, R54). -/
def State.shareBank (s : State) (a a' : Nat) : Bool :=
  if s.plat.bankCollisions then decide (a % s.threads.length = a' % s.threads.length) else decide (a = a')

/-- Pending writebacks of one thread: every target exists (rule R46), no two collide (rules R48, R54), and a halted
thread, which fetches no more, has none that is fresh (rules R54, R102). -/
def State.pendingOk (s : State) (th : Thread) : Prop :=
  (∀ p ∈ th.wb, p.addr < s.plat.codeSize) ∧
  th.wb.Pairwise (fun p q => s.shareBank p.addr q.addr = false) ∧
  (th.halted = true → ∀ p ∈ th.wb, p.fresh = false)

/-- FIFO_DEPTH is at least 1 (rule R6), and a FIFO holds at most that many words (rule R180). -/
def Device.ok : Device → Prop
  | .fifo depth queue _ => 1 ≤ depth ∧ queue.length ≤ depth
  | .other _ => True

/-- What holds of a machine at launch and after every step. -/
structure State.Inv (s : State) : Prop where
  running : s.Running
  sizeLower : 1 ≤ s.plat.codeSize
  sizeUpper : s.plat.codeSize ≤ 2 ^ 31
  canonical : s.mem.wf = true
  inside : ∀ e ∈ s.mem, e.1 < s.plat.codeSize
  pending : ∀ th ∈ s.threads, s.pendingOk th
  devices : ∀ d ∈ s.devices, d.ok

/-- Everything but the executing thread's own record, the code memory and the devices is as before: the other
threads, the parameters, and what is left of the schedule (rule R30). -/
structure SameCore (s t : State) : Prop where
  count : t.threads.length = s.threads.length
  others : ∀ k, k ≠ s.cur → t.threads[k]? = s.threads[k]?
  plat : t.plat = s.plat
  cur : t.cur = s.cur
  readout : t.readout = s.readout
  agenda : t.agenda = s.agenda
  draws : t.draws = s.draws
  waits : t.waits = s.waits

/-- Everything but the executing thread's own record is as before, every address of code memory and the devices
among it. -/
structure SameRest (s t : State) : Prop extends SameCore s t where
  mem : ∀ a, t.mem.read a = s.mem.read a
  devices : t.devices = s.devices

/-- The executing thread's record after a step is `th`, but for the bit `overrun`, the model's own companion of the
pc (rule R22; log entry 5), of which separate statements speak. -/
def RecordIs (t : State) (th : Thread) : Prop := { t.thread with overrun := th.overrun } = th

/-- Instruction `i` completes in `s`: it answers a next state in which the executing thread's record is `th` and
everything else is as before. -/
def Completes (i : Instr) (s : State) (th : Thread) : Prop :=
  ∃ t, exec i s = .next t ∧ RecordIs t th ∧ SameRest s t

/-- The record after an instruction that writes `acc` and does `next` (rules R8, R22): the pc is the next address,
and every other register, the halted flag and the pending writebacks are as before. -/
def Thread.accThenNext (th : Thread) (acc : Word) : Thread := { th with acc := acc, pc := th.pc + 1 }

/-- The record after an instruction that writes `acc` and `b` and does `next` (rules R8, R22). -/
def Thread.pairThenNext (th : Thread) (acc b : Word) : Thread :=
  { th with acc := acc, b := b, pc := th.pc + 1 }

/-- Whether a write to `a` by the executing thread collides with one it has pending (rule R48). -/
def State.collision (s : State) (a : Nat) : Bool := s.thread.wb.any fun p => s.shareBank a p.addr

/-- What queueing a writeback `(a, v)` does, from `s` to `t` (rules R46, R48, R54): the entry is appended, fresh.
Without a collision no address of memory changes. With one, every entry pending before is performed: their addresses
hold their values, with the opcodes as they were, and no other address changes. -/
structure Queued (s t : State) (a : Nat) (v : Word) : Prop where
  wb : t.thread.wb = (if s.collision a then [] else s.thread.wb) ++ [⟨a, v, true⟩]
  unperformed : s.collision a = false → ∀ a', t.mem.read a' = s.mem.read a'
  untouched : ∀ a', (∀ p ∈ s.thread.wb, p.addr ≠ a') → t.mem.read a' = s.mem.read a'
  performed : s.collision a = true → s.mem.wf = true →
    s.thread.wb.Pairwise (fun p q => p.addr ≠ q.addr) →
    ∀ p ∈ s.thread.wb, t.mem.read p.addr = { s.mem.read p.addr with x := p.value }

/-- A store by instruction `i` to the target word `target` (rules R46, R57): a fault where the target does not
exist; else the value is queued, the pc advances, and no register and nothing else changes. -/
def Stores (i : Instr) (s : State) (target v : Word) : Prop :=
  (s.plat.codeSize ≤ target.toNat → exec i s = .fault .badAddress) ∧
  (target.toNat < s.plat.codeSize → ∃ t, exec i s = .next t ∧ Queued s t target.toNat v ∧
    RecordIs t { s.thread with pc := s.thread.pc + 1, wb := t.thread.wb } ∧
    SameCore s t ∧ t.devices = s.devices)

/-- `1 << Acc` as rules R7 and R108 give it. -/
def shl1Spec (a : Word) : Word :=
  if a.toNat < 32 then BitVec.ofNat 32 (2 ^ a.toNat) else Config.shl1High a

/-- The sign bit of `v` copied to all 32 bits (rule R128). -/
def signOf (v : Word) : Word := if v.getLsbD 31 then 0xFFFFFFFF else 0x00000000

/-- The instructions that go through CUSTOM, with their form, their code and, in the plain form, their operand:
custom0 to custom6 in both forms, and the reserved OPB operands (rules R80, R81, R200). -/
def customUse : Instr → Option (Form × Word × Option Word)
  | .custom0 x => some (.plain, 0x18, some x)
  | .custom1 x => some (.plain, 0x19, some x)
  | .custom2 x => some (.plain, 0x1A, some x)
  | .custom3 x => some (.plain, 0x1B, some x)
  | .custom4 x => some (.plain, 0x1C, some x)
  | .custom5 x => some (.plain, 0x1D, some x)
  | .custom6 x => some (.plain, 0x1E, some x)
  | .opbCustom0 => some (.opb, 0x18, none)
  | .opbCustom1 => some (.opb, 0x19, none)
  | .opbCustom2 => some (.opb, 0x1A, none)
  | .opbCustom3 => some (.opb, 0x1B, none)
  | .opbCustom4 => some (.opb, 0x1C, none)
  | .opbCustom5 => some (.opb, 0x1D, none)
  | .opbCustom6 => some (.opb, 0x1E, none)
  | .opb e => if (Instr.opb e).wellFormed then some (.opb, e, none) else none
  | .load _ | .swap _ | .bload _ | .bsload _ | .add _ | .and _ | .xor _ | .or _ | .push _ | .pop _ | .put _
  | .puts _ | .putm _ | .rsub _ | .jeq _ | .jne _ | .jump _ | .ugt _ | .ult _ | .igt _ | .ilt _ | .sub _
  | .mul _ | .shr _ | .sar _ | .opbLoad | .opbShift | .opbBload | .opbBsload | .opbAdd | .opbAnd | .opbXor
  | .opbOr | .opbPush | .opbPop | .opbPut | .opbPutm | .opbRsub | .opbJeq | .opbJne | .opbJump | .opbUgt
  | .opbUlt | .opbIgt | .opbIlt | .opbSub | .opbMul | .opbShr | .opbSar | .halt | .opbBloadx
  | .opbBsloadx => none

/-- What CUSTOM is asked (rule R200): the form, the code, Acc, XB, and register C where it exists. -/
def customAsk (s : State) (form : Form) (code : Word) (x : Option Word) : CustomKey :=
  { form := form, code := code, acc := s.thread.acc, xb := x.getD s.thread.b,
    c := if s.plat.hasC then some s.thread.c else none }

/-- The registers after a result of CUSTOM: what it gives, and what it does not give as before; C only where it
exists (rules R24, R200). -/
def customRecord (s : State) (r : CustomResult) : Thread :=
  { s.thread with
    acc := r.acc.getD s.thread.acc
    b := r.b.getD s.thread.b
    c := if s.plat.hasC then r.c.getD s.thread.c else s.thread.c
    pc := match r.pc with
      | .next => s.thread.pc + 1
      | .stay => s.thread.pc
      | .jump target => target }

/-- The instructions that may assign B: the four load forms that rule R23 names, and what CUSTOM defines. -/
def mayWriteB : Instr → Bool
  | .bload _ | .opbBload | .bsload _ | .opbBsload | .opbBloadx | .opbBsloadx | .opb _ | .custom0 _ | .custom1 _
  | .custom2 _ | .custom3 _ | .custom4 _ | .custom5 _ | .custom6 _ | .opbCustom0 | .opbCustom1 | .opbCustom2
  | .opbCustom3 | .opbCustom4 | .opbCustom5 | .opbCustom6 => true
  | .load _ | .swap _ | .add _ | .and _ | .xor _ | .or _ | .push _ | .pop _ | .put _ | .puts _ | .putm _
  | .rsub _ | .jeq _ | .jne _ | .jump _ | .ugt _ | .ult _ | .igt _ | .ilt _ | .sub _ | .mul _ | .shr _ | .sar _
  | .opbLoad | .opbShift | .opbAdd | .opbAnd | .opbXor | .opbOr | .opbPush | .opbPop | .opbPut | .opbPutm
  | .opbRsub | .opbJeq | .opbJne | .opbJump | .opbUgt | .opbUlt | .opbIgt | .opbIlt | .opbSub | .opbMul
  | .opbShr | .opbSar | .halt => false

/-- The instructions that may assign the pc other than by `next`: the jumps, and what CUSTOM defines (rule R22). -/
def mayJump : Instr → Bool
  | .jump _ | .opbJump | .jeq _ | .opbJeq | .jne _ | .opbJne | .opb _ | .custom0 _ | .custom1 _ | .custom2 _
  | .custom3 _ | .custom4 _ | .custom5 _ | .custom6 _ | .opbCustom0 | .opbCustom1 | .opbCustom2 | .opbCustom3
  | .opbCustom4 | .opbCustom5 | .opbCustom6 => true
  | .load _ | .swap _ | .bload _ | .bsload _ | .add _ | .and _ | .xor _ | .or _ | .push _ | .pop _ | .put _
  | .puts _ | .putm _ | .rsub _ | .ugt _ | .ult _ | .igt _ | .ilt _ | .sub _ | .mul _ | .shr _ | .sar _
  | .opbLoad | .opbShift | .opbBload | .opbBsload | .opbAdd | .opbAnd | .opbXor | .opbOr | .opbPush | .opbPop
  | .opbPut | .opbPutm | .opbRsub | .opbUgt | .opbUlt | .opbIgt | .opbIlt | .opbSub | .opbMul | .opbShr
  | .opbSar | .halt | .opbBloadx | .opbBsloadx => false

/-- The target and the value of a store of the PUT family by a thread with record `th` (rules R140 to R142). -/
def putSpec (th : Thread) : Instr → Option (Word × Word)
  | .put x => some (x, th.acc)
  | .opbPut => some (th.b, th.acc)
  | .puts x => some (x ^^^ 0x80000000, shl1Spec th.acc)
  | .putm x => some (x, th.acc ^^^ 0x80000000)
  | .opbPutm => some (th.b, th.acc ^^^ 0x80000000)
  | .load _ | .swap _ | .bload _ | .bsload _ | .add _ | .and _ | .xor _ | .or _ | .push _ | .pop _ | .rsub _
  | .jeq _ | .jne _ | .jump _ | .ugt _ | .ult _ | .igt _ | .ilt _ | .sub _ | .mul _ | .shr _ | .sar _
  | .custom0 _ | .custom1 _ | .custom2 _ | .custom3 _ | .custom4 _ | .custom5 _ | .custom6 _ | .opb _ | .opbLoad
  | .opbShift | .opbBload | .opbBsload | .opbAdd | .opbAnd | .opbXor | .opbOr | .opbPush | .opbPop | .opbRsub
  | .opbJeq | .opbJne | .opbJump | .opbUgt | .opbUlt | .opbIgt | .opbIlt | .opbSub | .opbMul | .opbShr | .opbSar
  | .opbCustom0 | .opbCustom1 | .opbCustom2 | .opbCustom3 | .opbCustom4 | .opbCustom5 | .opbCustom6 | .halt
  | .opbBloadx | .opbBsloadx => none

/-- The target and the value of the store an instruction makes, where it makes one: the five forms of the PUT family
(rules R140 to R142), and a custom instruction whose result has a store (rule R200). -/
def storeSpec (s : State) (i : Instr) : Option (Word × Word) :=
  match customUse i with
  | some (form, code, x) => (s.plat.custom.lookup (customAsk s form code x)).bind CustomResult.store
  | none => putSpec s.thread i

/-- The executing thread of `t` did `next` from `s`: its pc is the next address, and its next fetch is bad exactly
when the increment carries out of bit 30 or the new address does not exist (rule R22). -/
def DidNext (s t : State) : Prop :=
  t.thread.pc = s.thread.pc + 1 ∧
  (t.badFetch t.thread = true ↔
    s.thread.pc.toNat % 2 ^ 31 = 2 ^ 31 - 1 ∨ s.plat.codeSize ≤ (s.thread.pc + 1).toNat % 2 ^ 31)

/-- The executing thread of `t` kept the pc it has in `s`, and its next fetch is bad exactly when it was. -/
def KeptPc (s t : State) : Prop :=
  t.thread.pc = s.thread.pc ∧ t.badFetch t.thread = s.badFetch s.thread

/-- The executing thread of `t` jumped: its pc is `target`, and its next fetch is bad exactly when that address does
not exist (rules R57, R153). -/
def Jumped (s t : State) (target : Word) : Prop :=
  t.thread.pc = target ∧ (t.badFetch t.thread = true ↔ s.plat.codeSize ≤ target.toNat % 2 ^ 31)

/-- The pc after a custom instruction whose result has this effect on it (rule R200). -/
def CustomPc (s t : State) : PcEffect → Prop
  | .next => DidNext s t
  | .stay => KeptPc s t
  | .jump target => Jumped s t target

/-- Thread `t` is about to take its turn: it is next on the agenda, exists with record `th`, and is not halted. -/
structure NextUp (s : State) (t : Nat) (th : Thread) (rest : List Choice) : Prop where
  agenda : s.agenda = .run t :: rest
  thread : s.threads[t]? = some th
  live : th.halted = false

/-- No turn is left on the agenda and no agent but thread `t`, whose record is `th`, can act: every other thread is
halted, and no thread has a writeback that a background step could perform (rules R54, R102). -/
structure OnlyOneCanAct (s : State) (t : Nat) (th : Thread) : Prop where
  agenda : s.agenda = []
  thread : s.threads[t]? = some th
  live : th.halted = false
  others : ∀ (k : Nat) (th' : Thread), s.threads[k]? = some th' → k ≠ t → th'.halted = true
  fresh : ∀ th' ∈ s.threads, ∀ p ∈ th'.wb, p.fresh = true

/-- Thread `t` makes its step in the turn that `s` takes next: on its own, or as a participant of a merged access
(rules R31, R186). -/
def State.acts (s : State) (t : Nat) : Prop :=
  s.nextChoice.1 = .run t ∨
  ∃ ts, s.nextChoice.1 = .merge ts ∧ t ∈ ts ∧ (s.mergedAccess ts).isSome = true

/-- The record of a thread after a fetch of its address: its own writeback there is performed, the others are no
longer fresh (rule R54). -/
def Thread.afterFetch (th : Thread) : Thread :=
  { th with wb := (th.wb.filter fun p => p.addr != th.addr).map fun p => { p with fresh := false } }

/-- What a merged access of the threads `ts` that is answered leaves, from `s` to `u`: each participant has fetched
and, if `moved`, does `next`; a writeback that a participant has pending to the address it fetches is performed, the
last in the order of `ts` staying, and every other address is as before; the devices are `devices`; the other threads
and the parameters are as before (rules R47, R54, R185, R186; for the order of the fetches log entry 13). -/
structure MergedTo (s u : State) (ts : List Nat) (rest : List Choice) (devices : List Device) (moved : Bool) :
    Prop where
  members : ∀ k ∈ ts, ∀ th, s.threads[k]? = some th → u.threads[k]? = some { th.afterFetch with
    pc := if moved then th.pc + 1 else th.pc
    overrun := if moved then decide (th.pc.toNat % 2 ^ 31 = 2 ^ 31 - 1) else th.overrun }
  present : ∀ k ∈ ts, k < s.threads.length
  others : ∀ k, k ∉ ts → u.threads[k]? = s.threads[k]?
  mem : ∀ a, (∀ k ∈ ts, ∀ th, s.threads[k]? = some th → th.addr = a → th.pendingValue a = none) →
    u.mem.read a = s.mem.read a
  performed : s.mem.wf = true → ∀ pre k post th v, ts = pre ++ k :: post → s.threads[k]? = some th →
    th.pendingValue th.addr = some v →
    (∀ j ∈ post, ∀ th', s.threads[j]? = some th' → th'.addr = th.addr → th'.pendingValue th.addr = none) →
    u.mem.read th.addr = { s.mem.read th.addr with x := v }
  devices : u.devices = devices
  plat : u.plat = s.plat
  agenda : u.agenda = rest

/-- A turn in which neither thread `t` nor a group it belongs to acts. -/
def spares (t : Nat) : Choice → Bool
  | .run u => u != t
  | .drain _ _ => true
  | .merge ts => !ts.contains t

end Sys2Proof.Machine
end

