-- ==== Sys2Proof/Certificates/Slice0/Obligations.lean ====
section
/-! DEFINITION. The statements for the provers. Each names the rule of spec/ it formalises. -/

open Sys2Proof Sys2Proof.Machine

/-- Decoding the word of any well-formed instruction gives the instruction back. Derived from 30_encoding.md
R73, 30_encoding.md R75, 30_encoding.md R78. -/
def Obligations.DecodeEncodeRoundTrip : Prop :=
  ∀ i : Instr, i.wellFormed = true → decode (encode i) = i

/-- Every 37-bit word decodes to a well-formed instruction whose word it is. Derived from 30_encoding.md R78,
30_encoding.md R82. -/
def Obligations.EveryWordIsOneInstruction : Prop :=
  ∀ w : CodeWord, (decode w).wellFormed = true ∧ encode (decode w) = w

/-- OPB reads the whole of X: basic numbers, HALT, BLOADX, BSLOADX, and the rest reserved. Derived from
30_encoding.md R75. That the whole of X is the number is the spec's own decision D8, and that OPB of 0x0B is
PUTM its decision D24 (log entry 19). -/
def Obligations.OpbDecoding : Prop :=
  decode ⟨0x1F, 0x00⟩ = .opbLoad ∧ decode ⟨0x1F, 0x01⟩ = .opbShift ∧ decode ⟨0x1F, 0x02⟩ = .opbBload ∧
  decode ⟨0x1F, 0x03⟩ = .opbBsload ∧ decode ⟨0x1F, 0x04⟩ = .opbAdd ∧ decode ⟨0x1F, 0x05⟩ = .opbAnd ∧
  decode ⟨0x1F, 0x06⟩ = .opbXor ∧ decode ⟨0x1F, 0x07⟩ = .opbOr ∧ decode ⟨0x1F, 0x08⟩ = .opbPush ∧
  decode ⟨0x1F, 0x09⟩ = .opbPop ∧ decode ⟨0x1F, 0x0A⟩ = .opbPut ∧ decode ⟨0x1F, 0x0B⟩ = .opbPutm ∧
  decode ⟨0x1F, 0x0C⟩ = .opbRsub ∧ decode ⟨0x1F, 0x0D⟩ = .opbJeq ∧ decode ⟨0x1F, 0x0E⟩ = .opbJne ∧
  decode ⟨0x1F, 0x0F⟩ = .opbJump ∧ decode ⟨0x1F, 0x10⟩ = .opbUgt ∧ decode ⟨0x1F, 0x11⟩ = .opbUlt ∧
  decode ⟨0x1F, 0x12⟩ = .opbIgt ∧ decode ⟨0x1F, 0x13⟩ = .opbIlt ∧ decode ⟨0x1F, 0x14⟩ = .opbSub ∧
  decode ⟨0x1F, 0x15⟩ = .opbMul ∧ decode ⟨0x1F, 0x16⟩ = .opbShr ∧ decode ⟨0x1F, 0x17⟩ = .opbSar ∧
  decode ⟨0x1F, 0x18⟩ = .opbCustom0 ∧ decode ⟨0x1F, 0x19⟩ = .opbCustom1 ∧ decode ⟨0x1F, 0x1A⟩ = .opbCustom2 ∧
  decode ⟨0x1F, 0x1B⟩ = .opbCustom3 ∧ decode ⟨0x1F, 0x1C⟩ = .opbCustom4 ∧ decode ⟨0x1F, 0x1D⟩ = .opbCustom5 ∧
  decode ⟨0x1F, 0x1E⟩ = .opbCustom6 ∧ decode ⟨0x1F, 0x1F⟩ = .halt ∧
  (∀ e : Word, 0x20 ≤ e.toNat →
    decode ⟨0x1F, e⟩ =
      if e.toNat = Config.opxBloadx then .opbBloadx
      else if e.toNat = Config.opxBsloadx then .opbBsloadx
      else .opb e)

/-- The plain codes 0x00 to 0x1E are the operations of the opcode map with operand X. Rules R73. -/
def Obligations.PlainDecoding : Prop :=
  ∀ x : Word,
    decode ⟨0x00, x⟩ = .load x ∧ decode ⟨0x01, x⟩ = .swap x ∧ decode ⟨0x02, x⟩ = .bload x ∧
    decode ⟨0x03, x⟩ = .bsload x ∧ decode ⟨0x04, x⟩ = .add x ∧ decode ⟨0x05, x⟩ = .and x ∧
    decode ⟨0x06, x⟩ = .xor x ∧ decode ⟨0x07, x⟩ = .or x ∧ decode ⟨0x08, x⟩ = .push x ∧
    decode ⟨0x09, x⟩ = .pop x ∧ decode ⟨0x0A, x⟩ = .put x ∧ decode ⟨0x0C, x⟩ = .rsub x ∧
    decode ⟨0x0D, x⟩ = .jeq x ∧ decode ⟨0x0E, x⟩ = .jne x ∧ decode ⟨0x0F, x⟩ = .jump x ∧
    decode ⟨0x10, x⟩ = .ugt x ∧ decode ⟨0x11, x⟩ = .ult x ∧ decode ⟨0x12, x⟩ = .igt x ∧
    decode ⟨0x13, x⟩ = .ilt x ∧ decode ⟨0x14, x⟩ = .sub x ∧ decode ⟨0x15, x⟩ = .mul x ∧
    decode ⟨0x16, x⟩ = .shr x ∧ decode ⟨0x17, x⟩ = .sar x ∧ decode ⟨0x18, x⟩ = .custom0 x ∧
    decode ⟨0x19, x⟩ = .custom1 x ∧ decode ⟨0x1A, x⟩ = .custom2 x ∧ decode ⟨0x1B, x⟩ = .custom3 x ∧
    decode ⟨0x1C, x⟩ = .custom4 x ∧ decode ⟨0x1D, x⟩ = .custom5 x ∧ decode ⟨0x1E, x⟩ = .custom6 x ∧
    (x.msb = true → decode ⟨0x0B, x⟩ = .puts x) ∧ (x.msb = false → decode ⟨0x0B, x⟩ = .putm x)

/-- Words of the V-DEC table decode as the table says. Derived from 95_test_vectors.md V-DEC, 30_encoding.md
R71. -/
def Obligations.SampleWordsDecode : Prop :=
  decodeTableWord 40 0x0000000000 = some (.load 0) ∧
  decodeTableWord 40 0x0100000009 = some (.swap 9) ∧
  decodeTableWord 40 0x1F00000001 = some .opbShift ∧
  decodeTableWord 40 0x0B80000003 = some (.puts 0x80000003) ∧
  decodeTableWord 40 0x1F0000001F = some .halt ∧
  decodeTableWord 40 0x1F00000104 = some (.opb 0x104) ∧
  decodeTableWord 40 0x1E12345678 = some (.custom6 0x12345678)

/-- A step of a thread in normal mode is exec of the instruction fetched. Derived from 10_state.md R31,
20_memory.md R44. Agenda and waiting turns are the model's own scheduling data (log entry 6). -/
def Obligations.StepRunsTheDecodedInstruction : Prop :=
  ∀ s t th, th.getter = false → s.badFetch th = false →
    (∀ rest, NextUp s t th rest →
      step s = exec (decode ⟨(s.mem.read th.addr).op, s.memRead th th.addr⟩)
        ({ s with agenda := rest }.fetch t th)) ∧
    (OnlyOneCanAct s t th →
      step s = exec (decode ⟨(s.mem.read th.addr).op, s.memRead th th.addr⟩)
        ({ s with waits := [] }.fetch t th))

/-- A fetch or peek at an address that does not exist is the fault BadAddress. Derived from 20_memory.md R57,
10_state.md R31, 10_state.md R22. The bit overrun is the model's own (log entry 5). -/
def Obligations.FetchOutsideMemoryFaults : Prop :=
  ∀ s t th rest, NextUp s t th rest →
    (s.plat.codeSize ≤ th.pc.toNat % 2 ^ 31 ∨ th.overrun = true) → step s = .fault .badAddress

/-- Every other instruction, and a jump not taken, keeps the pc or does next, whose fetch is bad exactly as R22
says. Derived from 10_state.md R22, 43_jump.md R155. The bit overrun is the model's own (log entry 5). -/
def Obligations.OnlyFlowControlAssignsPc : Prop :=
  ∀ i s t, s.Running → exec i s = .next t →
    (mayJump i = false → KeptPc s t ∨ DidNext s t) ∧
    ((i = .opbJeq ∨ ∃ x, i = .jeq x) → s.thread.acc ≠ 0 → DidNext s t) ∧
    ((i = .opbJne ∨ ∃ x, i = .jne x) → s.thread.acc = 0 → DidNext s t)

/-- A getter step puts the peeked operand in Acc and the old Acc in the pc, and executes nothing. Rules R154. -/
def Obligations.GetterStepPeeks : Prop :=
  ∀ s t th rest, NextUp s t th rest → th.getter = true →
    (s.plat.codeSize ≤ th.pc.toNat % 2 ^ 31 → step s = .fault .badAddress) ∧
    (s.badFetch th = false →
      ∃ u th', step s = .next u ∧ u.threads[t]? = some th' ∧
        { th' with overrun := th.overrun } =
          { th.afterFetch with pc := th.acc, acc := s.memRead th th.addr } ∧
        (u.badFetch th' = true ↔ s.plat.codeSize ≤ th.acc.toNat % 2 ^ 31) ∧
        (∀ k, k ≠ t → u.threads[k]? = s.threads[k]?) ∧
        (∀ a, a ≠ th.addr → u.mem.read a = s.mem.read a) ∧
        (s.mem.wf = true →
          u.mem.read th.addr = ⟨(s.mem.read th.addr).op, s.memRead th th.addr⟩) ∧
        u.devices = s.devices ∧ u.plat = s.plat ∧ u.agenda = rest)

/-- An instruction placed where the next step fetches is the one the next step runs. Derived from 30_encoding.md
R71, 60_exceptions.md R224. withFetchWord is the model's own stand-in for loading a program (log entry 20). -/
def Obligations.FetchWordIsRunNext : Prop :=
  ∀ (s : State) (nbits w : Nat) (i : Instr), s.mem.wf = true → decodeTableWord nbits w = some i →
    ∃ th, (s.withFetchWord nbits w).threads[0]? = some th ∧
      step (s.withFetchWord nbits w) = exec i ({ s.withFetchWord nbits w with agenda := s.agenda }.fetch 0 th)

/-- LOAD and OPB LOAD complete with Acc = XB and B unchanged. Rules R103. -/
def Obligations.LoadLoadsAcc : Prop :=
  (∀ x, decode ⟨0x00, x⟩ = .load x) ∧ decode ⟨0x1F, 0x00⟩ = .opbLoad ∧
  ∀ s : State, s.Running →
    (∀ x, Completes (.load x) s (s.thread.pairThenNext x s.thread.b)) ∧
    Completes .opbLoad s (s.thread.pairThenNext s.thread.b s.thread.b)

/-- BLOAD and OPB BLOAD complete with B = old Acc and Acc = XB. Rules R104. -/
def Obligations.BloadSavesAccInB : Prop :=
  (∀ x, decode ⟨0x02, x⟩ = .bload x) ∧ decode ⟨0x1F, 0x02⟩ = .opbBload ∧
  ∀ s : State, s.Running →
    (∀ x, Completes (.bload x) s (s.thread.pairThenNext x s.thread.acc)) ∧
    Completes .opbBload s (s.thread.pairThenNext s.thread.b s.thread.acc)

/-- BSLOAD and OPB BSLOAD complete with B = 1 << Acc and Acc = XB. Rules R105. -/
def Obligations.BsloadSavesPowerInB : Prop :=
  (∀ x, decode ⟨0x03, x⟩ = .bsload x) ∧ decode ⟨0x1F, 0x03⟩ = .opbBsload ∧
  ∀ s : State, s.Running →
    (∀ x, Completes (.bsload x) s (s.thread.pairThenNext x (shl1Spec s.thread.acc))) ∧
    Completes .opbBsload s (s.thread.pairThenNext s.thread.b (shl1Spec s.thread.acc))

/-- OPB BLOADX completes with B = Acc and Acc kept. Rules R106. -/
def Obligations.BloadxCopiesAcc : Prop :=
  decode ⟨0x1F, BitVec.ofNat 32 Config.opxBloadx⟩ = .opbBloadx ∧
  ∀ s : State, s.Running → Completes .opbBloadx s (s.thread.pairThenNext s.thread.acc s.thread.acc)

/-- OPB BSLOADX completes with B = 1 << Acc and Acc kept. Rules R107. -/
def Obligations.BsloadxPutsPowerInB : Prop :=
  decode ⟨0x1F, BitVec.ofNat 32 Config.opxBsloadx⟩ = .opbBsloadx ∧
  ∀ s : State, s.Running →
    Completes .opbBsloadx s (s.thread.pairThenNext s.thread.acc (shl1Spec s.thread.acc))

/-- OPB SHIFT completes with Acc = 1 << Acc. Rules R109. -/
def Obligations.ShiftMakesPower : Prop :=
  decode ⟨0x1F, 0x01⟩ = .opbShift ∧
  ∀ s : State, s.Running → Completes .opbShift s (s.thread.accThenNext (shl1Spec s.thread.acc))

/-- HALT sets the halted flag, keeps pc and registers, and no step restarts the thread. Derived from
40_opb_load.md R102. That HALT stops one thread only, keeps its registers and lets its writebacks complete
is the spec's own decision D14 (log entry 14). -/
def Obligations.HaltStopsTheThread : Prop :=
  decode ⟨0x1F, 0x1F⟩ = .halt ∧
  (∀ s : State, s.Running → Completes .halt s { s.thread with halted := true }) ∧
  (∀ (s u : State) (k : Nat) (th : Thread), step s = .next u → s.threads[k]? = some th → th.halted = true →
    ∃ wb, u.threads[k]? = some { th with wb := wb }) ∧
  (∀ (s : State) (k : Nat) (th : Thread) (p : Pending) (rest : List Pending), s.mem.wf = true → s.threads[k]? = some th → th.halted = true →
    th.wb = p :: rest → p.fresh = false →
    ∃ u, State.turn s (.drain k p.addr) = .next u ∧ (u.mem.read p.addr).x = p.value ∧
      u.threads[k]? = some { th with wb := rest })

/-- AND, XOR, OR and their OPB forms complete with the bitwise result in Acc. Rules R120, R121, R122. -/
def Obligations.LogicalOperations : Prop :=
  (∀ x, decode ⟨0x05, x⟩ = .and x) ∧ decode ⟨0x1F, 0x05⟩ = .opbAnd ∧
  (∀ x, decode ⟨0x06, x⟩ = .xor x) ∧ decode ⟨0x1F, 0x06⟩ = .opbXor ∧
  (∀ x, decode ⟨0x07, x⟩ = .or x) ∧ decode ⟨0x1F, 0x07⟩ = .opbOr ∧
  ∀ s : State, s.Running →
    (∀ x : Word, Completes (.and x) s (s.thread.accThenNext (s.thread.acc &&& x))) ∧
    Completes .opbAnd s (s.thread.accThenNext (s.thread.acc &&& s.thread.b)) ∧
    (∀ x : Word, Completes (.xor x) s (s.thread.accThenNext (s.thread.acc ^^^ x))) ∧
    Completes .opbXor s (s.thread.accThenNext (s.thread.acc ^^^ s.thread.b)) ∧
    (∀ x : Word, Completes (.or x) s (s.thread.accThenNext (s.thread.acc ||| x))) ∧
    Completes .opbOr s (s.thread.accThenNext (s.thread.acc ||| s.thread.b))

/-- ADD, SUB, RSUB and their OPB forms complete with the result modulo 2^32 in Acc. Derived from 41_binary.md
R123, 41_binary.md R124, 41_binary.md R125. Arithmetic modulo 2^32 is the spec's own decision D2 (log entry
17). -/
def Obligations.AdditionAndSubtraction : Prop :=
  (∀ x, decode ⟨0x04, x⟩ = .add x) ∧ decode ⟨0x1F, 0x04⟩ = .opbAdd ∧
  (∀ x, decode ⟨0x14, x⟩ = .sub x) ∧ decode ⟨0x1F, 0x14⟩ = .opbSub ∧
  (∀ x, decode ⟨0x0C, x⟩ = .rsub x) ∧ decode ⟨0x1F, 0x0C⟩ = .opbRsub ∧
  ∀ s : State, s.Running →
    (∀ x : Word, Completes (.add x) s (s.thread.accThenNext (BitVec.ofNat 32 (s.thread.acc.toNat + x.toNat)))) ∧
    Completes .opbAdd s (s.thread.accThenNext (BitVec.ofNat 32 (s.thread.acc.toNat + s.thread.b.toNat))) ∧
    (∀ x : Word, Completes (.sub x) s (s.thread.accThenNext (BitVec.ofInt 32 ((s.thread.acc.toNat : Int) - x.toNat)))) ∧
    Completes .opbSub s (s.thread.accThenNext (BitVec.ofInt 32 ((s.thread.acc.toNat : Int) - s.thread.b.toNat))) ∧
    (∀ x : Word, Completes (.rsub x) s (s.thread.accThenNext (BitVec.ofInt 32 ((x.toNat : Int) - s.thread.acc.toNat)))) ∧
    Completes .opbRsub s (s.thread.accThenNext (BitVec.ofInt 32 ((s.thread.b.toNat : Int) - s.thread.acc.toNat)))

/-- MUL and OPB MUL complete with the low 32 bits of the product in Acc. Derived from 41_binary.md R126.
Arithmetic modulo 2^32 is the spec's own decision D2 (log entry 17). -/
def Obligations.Multiplication : Prop :=
  (∀ x, decode ⟨0x15, x⟩ = .mul x) ∧ decode ⟨0x1F, 0x15⟩ = .opbMul ∧
  ∀ s : State, s.Running →
    (∀ x : Word, Completes (.mul x) s (s.thread.accThenNext (BitVec.ofNat 32 (s.thread.acc.toNat * x.toNat)))) ∧
    Completes .opbMul s (s.thread.accThenNext (BitVec.ofNat 32 (s.thread.acc.toNat * s.thread.b.toNat)))

/-- SHR and OPB SHR complete with rev(rev(Acc) * XB) in Acc. Derived from 41_binary.md R127. That only the low
32 bits of the product count is the spec's own inference in R127 (log entry 17). -/
def Obligations.ReversedMultiplication : Prop :=
  (∀ x, decode ⟨0x16, x⟩ = .shr x) ∧ decode ⟨0x1F, 0x16⟩ = .opbShr ∧
  ∀ s : State, s.Running →
    (∀ x : Word, Completes (.shr x) s (s.thread.accThenNext (rev (BitVec.ofNat 32 ((rev s.thread.acc).toNat * x.toNat))))) ∧
    Completes .opbShr s (s.thread.accThenNext (rev (BitVec.ofNat 32 ((rev s.thread.acc).toNat * s.thread.b.toNat))))

/-- SAR and OPB SAR complete with the sign-corrected reversed product in Acc. Derived from 41_binary.md R128.
The meaning of sign is the spec's own decision D3 (log entry 17). -/
def Obligations.SignedReversedMultiplication : Prop :=
  (∀ x, decode ⟨0x17, x⟩ = .sar x) ∧ decode ⟨0x1F, 0x17⟩ = .opbSar ∧
  ∀ s : State, s.Running →
    (∀ x : Word, Completes (.sar x) s (s.thread.accThenNext (rev (BitVec.ofNat 32 ((rev (s.thread.acc ^^^ signOf s.thread.acc)).toNat * x.toNat)) ^^^ signOf s.thread.acc))) ∧
    Completes .opbSar s (s.thread.accThenNext (rev (BitVec.ofNat 32 ((rev (s.thread.acc ^^^ signOf s.thread.acc)).toNat * s.thread.b.toNat)) ^^^ signOf s.thread.acc))

/-- rev reverses the 32 bits and is its own inverse; shl1 is 2^u(a) below 32 and free above. Derived from
00_scope.md R7, 40_opb_load.md R108. -/
def Obligations.RevReversesBits : Prop :=
  (∀ (v : Word) (i : Nat), i ≤ 31 → (rev v).getLsbD i = v.getLsbD (31 - i)) ∧
  (∀ v : Word, rev (rev v) = v) ∧ ∀ a : Word, shl1 a = shl1Spec a

/-- MUL, SHR and SAR by 2^k are the three shifts by k. Derived from 41_binary.md R130. It rests on the decisions
D2 and D3 (log entry 17). -/
def Obligations.ShiftsByMultiplication : Prop :=
  ∀ (s : State) (k : Nat), s.Running → k ≤ 31 →
    Completes (.mul (BitVec.ofNat 32 (2 ^ k))) s (s.thread.accThenNext (s.thread.acc <<< k)) ∧
    Completes (.shr (BitVec.ofNat 32 (2 ^ k))) s (s.thread.accThenNext (s.thread.acc >>> k)) ∧
    Completes (.sar (BitVec.ofNat 32 (2 ^ k))) s (s.thread.accThenNext (s.thread.acc.sshiftRight k))

/-- UGT and ULT, both forms, complete with 1 or 0 in Acc by the unsigned order. Rules R165, R166. -/
def Obligations.UnsignedComparisons : Prop :=
  (∀ x, decode ⟨0x10, x⟩ = .ugt x) ∧ decode ⟨0x1F, 0x10⟩ = .opbUgt ∧
  (∀ x, decode ⟨0x11, x⟩ = .ult x) ∧ decode ⟨0x1F, 0x11⟩ = .opbUlt ∧
  ∀ s : State, s.Running →
    (∀ x : Word, Completes (.ugt x) s (s.thread.accThenNext (if s.thread.acc.toNat > x.toNat then 1 else 0))) ∧
    Completes .opbUgt s (s.thread.accThenNext (if s.thread.acc.toNat > s.thread.b.toNat then 1 else 0)) ∧
    (∀ x : Word, Completes (.ult x) s (s.thread.accThenNext (if s.thread.acc.toNat < x.toNat then 1 else 0))) ∧
    Completes .opbUlt s (s.thread.accThenNext (if s.thread.acc.toNat < s.thread.b.toNat then 1 else 0))

/-- IGT and ILT, both forms, complete with 1 or 0 in Acc by the two's-complement order. Derived from
44_compare.md R167, 44_compare.md R168. The two's complement reading is the spec's own decision D2 (log
entry 17). -/
def Obligations.SignedComparisons : Prop :=
  (∀ x, decode ⟨0x12, x⟩ = .igt x) ∧ decode ⟨0x1F, 0x12⟩ = .opbIgt ∧
  (∀ x, decode ⟨0x13, x⟩ = .ilt x) ∧ decode ⟨0x1F, 0x13⟩ = .opbIlt ∧
  ∀ s : State, s.Running →
    (∀ x : Word, Completes (.igt x) s (s.thread.accThenNext (if s.thread.acc.toInt > x.toInt then 1 else 0))) ∧
    Completes .opbIgt s (s.thread.accThenNext (if s.thread.acc.toInt > s.thread.b.toInt then 1 else 0)) ∧
    (∀ x : Word, Completes (.ilt x) s (s.thread.accThenNext (if s.thread.acc.toInt < x.toInt then 1 else 0))) ∧
    Completes .opbIlt s (s.thread.accThenNext (if s.thread.acc.toInt < s.thread.b.toInt then 1 else 0))

/-- JUMP and OPB JUMP complete with pc = XB; a bad target faults at the next fetch only. Rules R150. -/
def Obligations.JumpAssignsPc : Prop :=
  (∀ x, decode ⟨0x0F, x⟩ = .jump x) ∧ decode ⟨0x1F, 0x0F⟩ = .opbJump ∧
  ∀ s : State, s.Running →
    (∀ x : Word, Completes (.jump x) s { s.thread with pc := x } ∧
      (∀ u, exec (.jump x) s = .next u → u.badFetch u.thread = decide (s.plat.codeSize ≤ x.toNat % 2 ^ 31))) ∧
    Completes .opbJump s { s.thread with pc := s.thread.b } ∧
    (∀ u, exec .opbJump s = .next u → u.badFetch u.thread = decide (s.plat.codeSize ≤ s.thread.b.toNat % 2 ^ 31))

/-- JEQ and OPB JEQ complete: taken exactly when Acc is 0. Rules R151. -/
def Obligations.JeqJumpsOnZero : Prop :=
  (∀ x, decode ⟨0x0D, x⟩ = .jeq x) ∧ decode ⟨0x1F, 0x0D⟩ = .opbJeq ∧
  ∀ s : State, s.Running →
    (∀ x : Word, Completes (.jeq x) s { s.thread with pc := if s.thread.acc = 0 then x else s.thread.pc + 1 } ∧
      (∀ u, exec (.jeq x) s = .next u → s.thread.acc = 0 → u.badFetch u.thread = decide (s.plat.codeSize ≤ x.toNat % 2 ^ 31))) ∧
    Completes .opbJeq s { s.thread with pc := if s.thread.acc = 0 then s.thread.b else s.thread.pc + 1 } ∧
    (∀ u, exec .opbJeq s = .next u → s.thread.acc = 0 → u.badFetch u.thread = decide (s.plat.codeSize ≤ s.thread.b.toNat % 2 ^ 31))

/-- JNE and OPB JNE complete: taken exactly when Acc is not 0. Rules R152. -/
def Obligations.JneJumpsOnNonzero : Prop :=
  (∀ x, decode ⟨0x0E, x⟩ = .jne x) ∧ decode ⟨0x1F, 0x0E⟩ = .opbJne ∧
  ∀ s : State, s.Running →
    (∀ x : Word, Completes (.jne x) s { s.thread with pc := if s.thread.acc = 0 then s.thread.pc + 1 else x } ∧
      (∀ u, exec (.jne x) s = .next u → s.thread.acc ≠ 0 → u.badFetch u.thread = decide (s.plat.codeSize ≤ x.toNat % 2 ^ 31))) ∧
    Completes .opbJne s { s.thread with pc := if s.thread.acc = 0 then s.thread.pc + 1 else s.thread.b } ∧
    (∀ u, exec .opbJne s = .next u → s.thread.acc ≠ 0 → u.badFetch u.thread = decide (s.plat.codeSize ≤ s.thread.b.toNat % 2 ^ 31))

/-- PUT and OPB PUT queue Acc for the operand at XB, or fault outside code memory. Rules R140. -/
def Obligations.PutStoresAcc : Prop :=
  (∀ x, decode ⟨0x0A, x⟩ = .put x) ∧ decode ⟨0x1F, 0x0A⟩ = .opbPut ∧
  ∀ s : State, s.Running →
    (∀ x, Stores (.put x) s x s.thread.acc) ∧ Stores .opbPut s s.thread.b s.thread.acc

/-- PUTS queues 1 << Acc for the operand at X with bit 31 flipped, or faults outside code memory. Rules R141. -/
def Obligations.PutsStoresPower : Prop :=
  (∀ x : Word, x.msb = true → decode ⟨0x0B, x⟩ = .puts x) ∧
  ∀ s : State, s.Running → ∀ x : Word, Stores (.puts x) s (x ^^^ 0x80000000) (shl1Spec s.thread.acc)

/-- PUTM and OPB PUTM queue Acc with its sign bit flipped, or fault outside code memory. Derived from
42_transfer.md R142. That the OPB form is PUTM whatever bit 31 of B is, is the spec's own decision D24 (log
entry 19). -/
def Obligations.PutmStoresFlipped : Prop :=
  (∀ x : Word, x.msb = false → decode ⟨0x0B, x⟩ = .putm x) ∧ decode ⟨0x1F, 0x0B⟩ = .opbPutm ∧
  ∀ s : State, s.Running →
    (∀ x, Stores (.putm x) s x (s.thread.acc ^^^ 0x80000000)) ∧
    Stores .opbPutm s s.thread.b (s.thread.acc ^^^ 0x80000000)

/-- After a store a thread reads its own value at once, and every other operand as before. Derived from
20_memory.md R44, 20_memory.md R49, 47_custom.md R200. That a custom store is queued like a PUT, and so
forwarded, is the model's choice (log entry 10). -/
def Obligations.OwnWriteIsForwarded : Prop :=
  ∀ (i : Instr) (s t : State) (target v : Word), s.Inv → storeSpec s i = some (target, v) →
    exec i s = .next t →
    t.memRead t.thread target.toNat = v ∧
    ∀ a, a ≠ target.toNat → t.memRead t.thread a = s.memRead s.thread a

/-- The background step performs a writeback that is not fresh, and never a fresh one. Derived from 20_memory.md
R54, 20_memory.md R47, 20_memory.md R50. That a fresh writeback is not performed is the spec's own inference
in R47 item 2. -/
def Obligations.BackgroundStepPerformsOneWriteback : Prop :=
  ∀ (s : State) (t a : Nat) (rest : List Choice), s.Inv → s.agenda = .drain t a :: rest →
    (∀ (th : Thread) (p : Pending), s.threads[t]? = some th → p ∈ th.wb → p.addr = a → p.fresh = false →
      ∃ u, step s = .next u ∧ u.mem.read a = ⟨(s.mem.read a).op, p.value⟩ ∧
        (∀ a', a' ≠ a → u.mem.read a' = s.mem.read a') ∧
        u.threads[t]? = some { th with wb := th.wb.erase p } ∧
        (∀ k, k ≠ t → u.threads[k]? = s.threads[k]?) ∧ u.devices = s.devices ∧ u.plat = s.plat) ∧
    ((∀ (th : Thread) (p : Pending), s.threads[t]? = some th → p ∈ th.wb → p.addr = a → p.fresh = true) →
      step s = .next { s with agenda := rest })

/-- SWAP completes with the operand the fetch read out from memory in Acc. Derived from 46_swap.md R195,
10_state.md R31. The field readout is the model's own (log entry 7). -/
def Obligations.SwapReadsTheLatch : Prop :=
  ∀ s : State, s.Running → ∀ x, Completes (.swap x) s (s.thread.accThenNext s.readout)

/-- A step at a SWAP loads the operand as memory held it, and performs the coincident write. Rules R195. -/
def Obligations.SwapStepReadsOldOperand : Prop :=
  (∀ x, decode ⟨0x01, x⟩ = .swap x) ∧ decode ⟨0x1F, 0x01⟩ = .opbShift ∧
  ∀ s t th rest, NextUp s t th rest → th.getter = false → s.badFetch th = false → s.mem.wf = true →
    (s.mem.read th.addr).op = 0x01 →
    ∃ u th', step s = .next u ∧ u.threads[t]? = some th' ∧
      { th' with overrun := th.overrun } =
        { th.afterFetch with acc := (s.mem.read th.addr).x, pc := th.pc + 1 } ∧
      (u.badFetch th' = true ↔
        th.pc.toNat % 2 ^ 31 = 2 ^ 31 - 1 ∨ s.plat.codeSize ≤ (th.pc + 1).toNat % 2 ^ 31) ∧
      (∀ v, th.pendingValue th.addr = some v → u.mem.read th.addr = ⟨0x01, v⟩) ∧
      (th.pendingValue th.addr = none → u.mem.read th.addr = s.mem.read th.addr) ∧
      (∀ a, a ≠ th.addr → u.mem.read a = s.mem.read a) ∧
      (∀ k, k ≠ t → u.threads[k]? = s.threads[k]?) ∧ u.devices = s.devices ∧ u.plat = s.plat

/-- PUT L immediately before L: SWAP exchanges Acc and the cell, whatever the other agents do in between.
Derived from 46_swap.md R196. That no background step comes before the thread's next fetch is the spec's own
inference in R47 item 2; who acts in between is the model's agenda (log entry 6). -/
def Obligations.AtomicSwapIdiom : Prop :=
  ∀ (s : State) (t : Nat) (th : Thread) (mid rest : List Choice) (m : State),
    s.Inv → NextUp s t th (mid ++ .run t :: rest) → th.getter = false → s.badFetch th = false →
    (s.mem.read th.addr).op = 0x0A → s.memRead th th.addr = th.pc + 1 →
    (s.mem.read (th.pc + 1).toNat).op = 0x01 →
    (∀ c ∈ mid, spares t c = true) →
    Sys2Proof.core.run (mid.length + 1) s = .next m →
    ∃ u th', step m = .next u ∧ u.threads[t]? = some th' ∧
      th'.acc = (m.mem.read (th.pc + 1).toNat).x ∧
      u.mem.read (th.pc + 1).toNat = ⟨0x01, th.acc⟩ ∧
      ∀ a, a ≠ (th.pc + 1).toNat → u.mem.read a = m.mem.read a

/-- PUSH to a FIFO appends XB and advances; while the buffer is full nothing changes. Rules R181. -/
def Obligations.PushToFifo : Prop :=
  ∀ (s : State) (i : Instr) (v : Word) (id depth : Nat) (queue : List Word) (force : Bool),
    s.Running → (i = .push v ∨ i = .opbPush ∧ v = s.thread.b) →
    s.plat.outMap.lookup s.thread.acc = some id → s.devices[id]? = some (.fifo depth queue force) →
    (queue.length = depth → exec i s = .next s) ∧
    (queue.length ≠ depth → ∃ t, exec i s = .next t ∧
      RecordIs t { s.thread with pc := s.thread.pc + 1 } ∧
      t.devices = s.devices.set id (.fifo depth (queue ++ [v]) force) ∧
      SameCore s t ∧ ∀ a, t.mem.read a = s.mem.read a)

/-- POP from a FIFO: status query, readout, retry, and the remembered special command. Derived from 45_io.md
R182, 45_io.md R183. That a readout removes the word is marked in R182 as general knowledge (log entry 12). -/
def Obligations.PopFromFifo : Prop :=
  ∀ (s : State) (i : Instr) (port : Word) (id depth : Nat) (queue : List Word) (force : Bool),
    s.Running → (i = .pop port ∨ i = .opbPop ∧ port = s.thread.b) →
    s.plat.ioMap.lookup port = some id → s.devices[id]? = some (.fifo depth queue force) →
    let v := s.thread.acc
    let force' := force || v.getLsbD 31
    let req := v.getLsbD 0 || (if s.plat.stickyImmediate then force' else force)
    ∃ t, exec i s = .next t ∧ SameCore s t ∧ (∀ a, t.mem.read a = s.mem.read a) ∧
      (req = false → t.devices = s.devices.set id (.fifo depth queue force') ∧
        RecordIs t (s.thread.accThenNext (if queue = [] then 0 else 1))) ∧
      (∀ r rest, req = true → queue = r :: rest →
        t.devices = s.devices.set id (.fifo depth rest force') ∧ RecordIs t (s.thread.accThenNext r)) ∧
      (req = true → queue = [] → t.devices = s.devices.set id (.fifo depth [] force') ∧
        RecordIs t s.thread)

/-- When the device answers retry, PUSH and POP change no thread and no memory. Derived from 45_io.md R177,
45_io.md R178, 45_io.md R179. -/
def Obligations.RetryChangesNoRegister : Prop :=
  ∀ s t : State,
    (∀ x, s.portAccess .pushOut s.thread.acc x = some (none, t) →
      exec (.push x) s = .next t ∧ t.threads = s.threads ∧ t.mem = s.mem) ∧
    (s.portAccess .pushOut s.thread.acc s.thread.b = some (none, t) →
      exec .opbPush s = .next t ∧ t.threads = s.threads ∧ t.mem = s.mem) ∧
    (∀ x, s.portAccess .popIo x s.thread.acc = some (none, t) →
      exec (.pop x) s = .next t ∧ t.threads = s.threads ∧ t.mem = s.mem) ∧
    (s.portAccess .popIo s.thread.b s.thread.acc = some (none, t) →
      exec .opbPop s = .next t ∧ t.threads = s.threads ∧ t.mem = s.mem)

/-- PUSH and POP on a port with no device are the fault NoDevice. Derived from 45_io.md R175, 45_io.md R176. The
fault is the spec's own decision D16; that a port mapped to a device number that is not there has no device
is the model's choice (log entry 15). -/
def Obligations.UnmappedPortFaults : Prop :=
  ∀ s : State,
    ((∀ id, s.plat.outMap.lookup s.thread.acc = some id → s.devices[id]? = none) →
      (∀ x, exec (.push x) s = .fault .noDevice) ∧ exec .opbPush s = .fault .noDevice) ∧
    (∀ x, (∀ id, s.plat.ioMap.lookup x = some id → s.devices[id]? = none) → exec (.pop x) s = .fault .noDevice) ∧
    ((∀ id, s.plat.ioMap.lookup s.thread.b = some id → s.devices[id]? = none) →
      exec .opbPop s = .fault .noDevice)

/-- PUSH and POP on any other device complete with whatever the device answers. Derived from 45_io.md R175,
45_io.md R176. What such a device answers is the model's free value (log entry 11). -/
def Obligations.OtherDeviceAnswersFreely : Prop :=
  ∀ (s : State) (id : Nat) (history : List Access), s.Running → s.devices[id]? = some (.other history) →
    (∀ i v, (i = .push v ∨ i = .opbPush ∧ v = s.thread.b) → s.plat.outMap.lookup s.thread.acc = some id →
      ∃ t, exec i s = .next t ∧ SameCore s t ∧ (∀ a, t.mem.read a = s.mem.read a) ∧
        t.devices = s.devices.set id (.other (history ++ [⟨.pushOut, v⟩])) ∧
        RecordIs t (match Config.deviceAnswer id (history ++ [⟨.pushOut, v⟩]) with
          | none => s.thread
          | some _ => { s.thread with pc := s.thread.pc + 1 })) ∧
    (∀ i port, (i = .pop port ∨ i = .opbPop ∧ port = s.thread.b) → s.plat.ioMap.lookup port = some id →
      ∃ t, exec i s = .next t ∧ SameCore s t ∧ (∀ a, t.mem.read a = s.mem.read a) ∧
        t.devices = s.devices.set id (.other (history ++ [⟨.popIo, s.thread.acc⟩])) ∧
        RecordIs t (match Config.deviceAnswer id (history ++ [⟨.popIo, s.thread.acc⟩]) with
          | none => s.thread
          | some r => s.thread.accThenNext r))

/-- Threads that PUSH to one port together make one access, with the OR of their values. Derived from 45_io.md
R185, 45_io.md R186, 45_io.md R181, 45_io.md R175, 20_memory.md R47, 20_memory.md R54. Which threads merge,
and the order of their fetches, are the model's choice (log entries 6 and 13); so are that a device number
that is not there is no device (log entry 15), and what another device answers (log entry 11). -/
def Obligations.MergedPushSendsTheOr : Prop :=
  ∀ (s : State) (ts : List Nat) (rest : List Choice) (port : Word) (values : List Word),
    s.agenda = .merge ts :: rest → ts.Nodup → 2 ≤ ts.length →
    ts.map s.poised = values.map (fun v => some ⟨.pushOut, port, v⟩) →
    (s.plat.outMap.lookup port = none → step s = .fault .noDevice) ∧
    ∀ id, s.plat.outMap.lookup port = some id →
      (s.devices[id]? = none → step s = .fault .noDevice) ∧
      (∀ depth queue force, s.devices[id]? = some (.fifo depth queue force) →
        (queue.length ≠ depth → ∃ u, step s = .next u ∧ MergedTo s u ts rest
          (s.devices.set id (.fifo depth (queue ++ [values.foldl (· ||| ·) 0]) force)) true) ∧
        (queue.length = depth → ∃ u, step s = .next u ∧ MergedTo s u ts rest s.devices false)) ∧
      (∀ history, s.devices[id]? = some (.other history) →
        ∃ u, step s = .next u ∧ MergedTo s u ts rest
          (s.devices.set id (.other (history ++ [⟨.pushOut, values.foldl (· ||| ·) 0⟩])))
          (Config.deviceAnswer id (history ++ [⟨.pushOut, values.foldl (· ||| ·) 0⟩])).isSome)

/-- Threads that POP from one port together are the fault PortRace; threads that cannot merge do nothing
together. Derived from 45_io.md R186, 45_io.md R185, 45_io.md R176. The fault is the spec's own decision D17
(log entry 15); that a turn of threads that cannot merge is idle is the model's choice (log entry 6). -/
def Obligations.MergedPopRaces : Prop :=
  ∀ (s : State) (ts : List Nat) (rest : List Choice), s.agenda = .merge ts :: rest →
    (∀ (port : Word) (values : List Word), ts.Nodup → 2 ≤ ts.length →
      ts.map s.poised = values.map (fun v => some ⟨.popIo, port, v⟩) → step s = .fault .portRace) ∧
    ((ts.length < 2 ∨ ¬ts.Nodup ∨
        ∀ (space : PortSpace) (port : Word) (values : List Word),
          ts.map s.poised ≠ values.map (fun v => some ⟨space, port, v⟩)) →
      step s = .next { s with agenda := rest })

/-- A custom code or reserved OPB operand without a meaning is the fault ReservedOpcode. Derived from
30_encoding.md R80, 30_encoding.md R81, 47_custom.md R200. The table CUSTOM is the model's form of the
parameter (log entry 10). -/
def Obligations.CustomWithoutMeaningFaults : Prop :=
  (∀ (k : BitVec 5) (x : Word), 0x18 ≤ k.toNat → k.toNat ≤ 0x1E →
    customUse (decode ⟨k, x⟩) = some (.plain, k.setWidth 32, some x) ∧
    customUse (decode ⟨0x1F, k.setWidth 32⟩) = some (.opb, k.setWidth 32, none)) ∧
  ∀ (i : Instr) (s : State) (form : Form) (code : Word) (x : Option Word),
    customUse i = some (form, code, x) → s.plat.custom.lookup (customAsk s form code x) = none →
    exec i s = .fault .reservedOpcode

/-- custom0 to custom6, their OPB forms and reserved OPB operands do what CUSTOM gives them. Derived from
47_custom.md R200, 30_encoding.md R81. The shape of a result of CUSTOM is the model's choice (log entry 10). -/
def Obligations.CustomDoesWhatCustomSays : Prop :=
  ∀ (i : Instr) (s : State) (form : Form) (code : Word) (x : Option Word) (r : CustomResult),
    s.Running → customUse i = some (form, code, x) →
    s.plat.custom.lookup (customAsk s form code x) = some r →
    (r.store = none → Completes i s (customRecord s r)) ∧
    (∀ target v, r.store = some (target, v) → target.toNat < s.plat.codeSize →
      ∃ t, exec i s = .next t ∧ Queued s t target.toNat v ∧
        RecordIs t { customRecord s r with wb := t.thread.wb } ∧ SameCore s t ∧ t.devices = s.devices) ∧
    (∀ target v, r.store = some (target, v) → s.plat.codeSize ≤ target.toNat →
      exec i s = .fault .badAddress) ∧
    ∀ t, exec i s = .next t → CustomPc s t r.pc

/-- The generic OPB executes what its operand numbers; for numbers another row takes, a choice (log entry 24).
Derived from 40_opb_load.md R100. What the generic OPB does with a number that another row takes, a term no
word decodes to, is the model's choice (log entry 24). -/
def Obligations.OpbExecutesWhatItNumbers : Prop :=
  ∀ (e : Word) (s : State), exec (.opb e) s = exec (decode ⟨0x1F, e⟩) s

/-- Every step of every agent keeps the invariant. Derived from 10_state.md R25, 20_memory.md R46, 20_memory.md
R48, 20_memory.md R54, 45_io.md R180, 40_opb_load.md R102. Whether writebacks collide by bank or by address
is a parameter (log entry 16). -/
def Obligations.StepKeepsInvariant : Prop :=
  ∀ s t : State, s.Inv → step s = .next t → t.Inv

/-- The launch state keeps the invariant. Derived from 10_state.md R32. The launch values are the model's
choices where the spec states none (log entries 1, 2, 3). -/
def Obligations.ResetKeepsInvariant : Prop := State.reset.Inv

/-- At launch no thread is halted, nothing is pending, and the memory holds the unlisted word everywhere.
Derived from 10_state.md R32, 70_reset_and_hazards.md R230. The zeros, the empty platform and the unlisted
word are the model's choices (log entries 1, 2, 3). -/
def Obligations.ResetLeavesNothingPending : Prop :=
  (∀ th ∈ State.reset.threads, th.halted = false ∧ th.wb = [] ∧ th.pc = 0 ∧ th.acc = 0 ∧ th.b = 0 ∧ th.c = 0) ∧
  (∀ d ∈ State.reset.devices, ∃ depth, d = .fifo depth [] false) ∧
  ∀ a, State.reset.mem.read a = ⟨0, 0⟩

/-- No step of any agent changes an opcode; only operands are written. Derived from 10_state.md R25. -/
def Obligations.OpcodesAreConstant : Prop :=
  ∀ s t : State, s.Inv → step s = .next t → ∀ a, (t.mem.read a).op = (s.mem.read a).op

/-- An operand changes only to the value of a writeback that was pending to it. Derived from 20_memory.md R46,
20_memory.md R47, 10_state.md R30. -/
def Obligations.MemoryChangesOnlyByWritebacks : Prop :=
  ∀ s t : State, s.Inv → step s = .next t → ∀ a,
    t.mem.read a = s.mem.read a ∨
    ∃ th ∈ s.threads, ∃ p ∈ th.wb, p.addr = a ∧ (t.mem.read a).x = p.value

/-- No step changes the parameters or the number of threads, or clears a force bit. Derived from 00_scope.md R6,
60_exceptions.md R220, 45_io.md R183. That parameters are data of the state is the model's choice (log entry
2). That a force bit, once set, is never cleared is the spec's own reading, rule R183 (U14; log entry 12). -/
def Obligations.ParametersNeverChange : Prop :=
  ∀ s t : State, step s = .next t →
    t.plat = s.plat ∧ t.threads.length = s.threads.length ∧ t.devices.length = s.devices.length ∧
    ∀ (id depth : Nat) (queue : List Word) (force : Bool), s.devices[id]? = some (.fifo depth queue force) →
      ∃ queue' force', t.devices[id]? = some (.fifo depth queue' force') ∧ (force = true → force' = true)

/-- Only BLOAD, BSLOAD, BLOADX, BSLOADX and what CUSTOM defines change B. Derived from 10_state.md R23. -/
def Obligations.OnlyLoadsToBChangeB : Prop :=
  ∀ i s t, mayWriteB i = false → exec i s = .next t → t.threads.map Thread.b = s.threads.map Thread.b

/-- No basic instruction changes register C, and none depends on it. Derived from 10_state.md R24. -/
def Obligations.OnlyCustomChangesC : Prop :=
  ∀ i s t, (∀ e, i ≠ .opb e) → customUse i = none → exec i s = .next t →
    t.threads.map Thread.c = s.threads.map Thread.c ∧
    ∀ v, exec i (s.upd fun th => { th with c := v }) = .next (t.upd fun th => { th with c := v })

/-- A thread's step leaves every other thread's record as it was. Derived from 10_state.md R30, 60_exceptions.md
R220. -/
def Obligations.AThreadTouchesOnlyItself : Prop :=
  ∀ (s u : State) (t : Nat), s.runThread t = .next u → ∀ k, k ≠ t → u.threads[k]? = s.threads[k]?

/-- A final state stays as it is. Derived from 60_exceptions.md R216. That a step of a final state is idle is
the model's choice (log entry 6). -/
def Obligations.FinalStatesStay : Prop :=
  ∀ s : State, s.final = true → (s.agenda = [] → step s = .next s) ∧
    ∀ c rest, s.agenda = c :: rest → step s = .next { s with agenda := rest }

/-- Jump latency is 1 for the next bank, a lap for the same bank, and within a lap always. Derived from
70_reset_and_hazards.md R242, 20_memory.md R41. No step of the model reads it (log entry 22). -/
def Obligations.JumpLatencyIsOneToALap : Prop :=
  ∀ n a target : Nat, 1 ≤ n →
    1 ≤ jumpLatency n a target ∧ jumpLatency n a target ≤ n ∧
    (jumpLatency n a target = 1 ↔ target % n = (a + 1) % n) ∧
    (jumpLatency n a target = n ↔ target % n = a % n) ∧
    jumpPenalty n a target + 1 = jumpLatency n a target ∧
    ∀ s : State, s.threads.length = n →
      (jumpLatency n a target = 1 ↔ s.bank target = s.bank (a + 1)) ∧
      (jumpLatency n a target = n ↔ s.bank target = s.bank a)

/-- A thread stands at an access exactly when its next instruction is PUSH or POP, at the port and value of R178
and R179. Derived from 45_io.md R178, 45_io.md R179, 45_io.md R186. -/
def Obligations.WhereAThreadStands : Prop :=
  ∀ (s : State) (t : Nat) (p : PoisedAccess), s.poised t = some p ↔
    ∃ th, s.threads[t]? = some th ∧ th.halted = false ∧ th.pc.msb = false ∧ th.overrun = false ∧
      th.pc.toNat % 2 ^ 31 < s.plat.codeSize ∧
      let w : CodeWord := ⟨(s.mem.read th.addr).op, s.memRead th th.addr⟩
      (w.op = 0x08 ∧ p = ⟨.pushOut, th.acc, w.x⟩ ∨ w = ⟨0x1F, 0x08⟩ ∧ p = ⟨.pushOut, th.acc, th.b⟩ ∨
       w.op = 0x09 ∧ p = ⟨.popIo, w.x, th.acc⟩ ∨ w = ⟨0x1F, 0x09⟩ ∧ p = ⟨.popIo, th.b, th.acc⟩)

/-- In every run each thread that can act acts again, and each pending writeback is performed. Derived from
20_memory.md R54, 60_exceptions.md R220. Weak fairness is the spec's own decision D26; the schedule that has
it is the model's (log entry 6). -/
def Obligations.ScheduleIsFair : Prop :=
  ∀ f : Nat → State, (f 0).Inv → (∀ k, step (f k) = .next (f (k + 1))) →
    ∀ (m t : Nat) (th : Thread), (f m).threads[t]? = some th →
      ((th.halted = false ∨ ∃ p ∈ th.wb, p.fresh = true) → ∃ k, m ≤ k ∧ (f k).acts t) ∧
      ∀ p ∈ th.wb, p.fresh = false → ∃ k th₁ th₂, m ≤ k ∧
        (f k).threads[t]? = some th₁ ∧ p ∈ th₁.wb ∧ (f (k + 1)).threads[t]? = some th₂ ∧ p ∉ th₂.wb ∧
        (((f (k + 1)).mem.read p.addr).x = p.value ∨ ∃ ts, (f k).nextChoice.1 = .merge ts)
end

