-- ==== Sys2Proof/Laws/Memory.lean ====
section
/-! SUPPORT. The laws of code memory: read after write, and that every operation keeps the canonical form. -/

namespace Sys2Proof.Machine

@[simp] theorem read_nil (a : Nat) : Memory.read [] a = Memory.unlisted := rfl

@[simp] theorem wf_nil : Memory.wf [] = true := rfl

/-- In a canonical list above `lo`, an address at or below `lo` is not listed. -/
theorem read_of_wfAbove {m : Memory} {lo a : Nat} (h : Memory.wfAbove (some lo) m = true) (ha : a ≤ lo) :
    m.read a = Memory.unlisted := by
  induction m generalizing lo with
  | nil => rfl
  | cons e rest ih =>
    obtain ⟨k, w⟩ := e
    simp only [Memory.wfAbove, Memory.above, Bool.and_eq_true, decide_eq_true_eq] at h
    rw [Memory.read, if_neg (by omega)]
    exact ih h.2 (by omega)

/-- A weaker lower bound keeps the form. -/
theorem wfAbove_mono {m : Memory} {lo lo' : Option Nat} (h : Memory.wfAbove lo m = true)
    (hle : ∀ l', lo' = some l' → ∃ l, lo = some l ∧ l' ≤ l) : Memory.wfAbove lo' m = true := by
  cases m with
  | nil => rfl
  | cons e rest =>
    obtain ⟨k, w⟩ := e
    simp only [Memory.wfAbove, Bool.and_eq_true] at h ⊢
    refine ⟨⟨?_, h.1.2⟩, h.2⟩
    cases lo' with
    | none => rfl
    | some l' =>
      obtain ⟨l, rfl, hl⟩ := hle l' rfl
      have := h.1.1
      simp only [Memory.above, decide_eq_true_eq] at this ⊢
      omega

/-- A write above the lower bound keeps the form. -/
theorem wfAbove_write {m : Memory} {lo : Option Nat} {a : Nat} {w : CodeWord}
    (h : Memory.wfAbove lo m = true) (hlo : Memory.above lo a = true) :
    Memory.wfAbove lo (m.write a w) = true := by
  induction m generalizing lo with
  | nil =>
    unfold Memory.write
    split
    · rfl
    · simpa [Memory.wfAbove] using ⟨hlo, ‹_›⟩
  | cons e rest ih =>
    obtain ⟨k, v⟩ := e
    have h' := h
    simp only [Memory.wfAbove, Bool.and_eq_true] at h'
    unfold Memory.write
    split
    · split
      · exact h
      · rename_i hak hw
        simp only [Memory.wfAbove, Bool.and_eq_true]
        exact ⟨⟨hlo, by simpa using hw⟩, ⟨by simpa [Memory.above] using hak, h'.1.2⟩, h'.2⟩
    · split
      · rename_i hak
        subst hak
        split
        · exact wfAbove_mono h'.2 fun l' hl' => ⟨a, rfl, by subst hl'; exact (of_decide_eq_true hlo).le⟩
        · rename_i hw
          simp only [Memory.wfAbove, Bool.and_eq_true]
          exact ⟨⟨hlo, by simpa using hw⟩, h'.2⟩
      · have hka : k < a := by omega
        simp only [Memory.wfAbove, Bool.and_eq_true]
        exact ⟨h'.1, ih h'.2 (by simpa [Memory.above] using hka)⟩

/-- A write keeps the canonical form. -/
theorem wf_write {m : Memory} (h : m.wf = true) (a : Nat) (w : CodeWord) : (m.write a w).wf = true :=
  wfAbove_write h rfl

/-- A write leaves every other address alone. -/
theorem read_write_other (m : Memory) {a a' : Nat} (w : CodeWord) (h : a' ≠ a) :
    (m.write a w).read a' = m.read a' := by
  induction m with
  | nil =>
    unfold Memory.write
    split
    · rfl
    · simp only [Memory.read, if_neg (Ne.symm h)]
  | cons e rest ih =>
    obtain ⟨k, v⟩ := e
    unfold Memory.write
    split
    · split
      · rfl
      · simp only [Memory.read, if_neg (Ne.symm h)]
    · split
      · rename_i hak
        subst hak
        split
        · simp only [Memory.read, if_neg (Ne.symm h)]
        · simp only [Memory.read, if_neg (Ne.symm h)]
      · simp only [Memory.read, ih]

theorem read_write_same_above {m : Memory} {lo : Option Nat} (h : Memory.wfAbove lo m = true) (a : Nat)
    (w : CodeWord) : (m.write a w).read a = w := by
  induction m generalizing lo with
  | nil =>
    unfold Memory.write
    split
    · rename_i hw; rw [hw]; rfl
    · simp only [Memory.read, if_pos]
  | cons e rest ih =>
    obtain ⟨k, v⟩ := e
    simp only [Memory.wfAbove, Bool.and_eq_true] at h
    unfold Memory.write
    split
    · rename_i hak
      split
      · rename_i hw
        rw [Memory.read, if_neg (by omega), read_of_wfAbove h.2 (by omega), hw]
      · simp only [Memory.read, if_pos]
    · split
      · rename_i hak
        subst hak
        split
        · rename_i hw
          rw [read_of_wfAbove h.2 (le_refl _), hw]
        · simp only [Memory.read, if_pos]
      · rename_i hlt hne
        rw [Memory.read, if_neg (Ne.symm hne)]
        exact ih h.2

/-- A read after a write to the same address gives what was written. -/
theorem read_write_same {m : Memory} (h : m.wf = true) (a : Nat) (w : CodeWord) : (m.write a w).read a = w :=
  read_write_same_above h a w

/-- An entry after a write is the one written or was there before. -/
theorem mem_write {m : Memory} {a : Nat} {w : CodeWord} {e : Nat × CodeWord} (h : e ∈ m.write a w) :
    e = (a, w) ∨ e ∈ m := by
  induction m with
  | nil =>
    unfold Memory.write at h
    split at h
    · cases h
    · exact .inl (by simpa using h)
  | cons e' rest ih =>
    obtain ⟨k, v⟩ := e'
    unfold Memory.write at h
    split at h
    · split at h
      · exact .inr h
      · rcases List.mem_cons.1 h with h | h
        · exact .inl h
        · exact .inr h
    · split at h
      · split at h
        · exact .inr (List.mem_cons_of_mem _ h)
        · rcases List.mem_cons.1 h with h | h
          · exact .inl h
          · exact .inr (List.mem_cons_of_mem _ h)
      · rcases List.mem_cons.1 h with h | h
        · exact .inr (h ▸ List.mem_cons_self)
        · rcases ih h with h | h
          · exact .inl h
          · exact .inr (List.mem_cons_of_mem _ h)

/-! Writing an operand. -/

theorem wf_writeOperand {m : Memory} (h : m.wf = true) (a : Nat) (v : Word) :
    (m.writeOperand a v).wf = true := wf_write h a _

theorem read_writeOperand_other (m : Memory) {a a' : Nat} (v : Word) (h : a' ≠ a) :
    (m.writeOperand a v).read a' = m.read a' := read_write_other m _ h

theorem read_writeOperand_same {m : Memory} (h : m.wf = true) (a : Nat) (v : Word) :
    (m.writeOperand a v).read a = { m.read a with x := v } := read_write_same h a _

/-- Writing an operand changes no opcode (rule R25). -/
theorem op_writeOperand {m : Memory} (h : m.wf = true) (a a' : Nat) (v : Word) :
    ((m.writeOperand a v).read a').op = (m.read a').op := by
  by_cases ha : a' = a
  · rw [ha, read_writeOperand_same h]
  · rw [read_writeOperand_other m v ha]

theorem mem_writeOperand {m : Memory} {a : Nat} {v : Word} {e : Nat × CodeWord} (h : e ∈ m.writeOperand a v) :
    e.1 = a ∨ e ∈ m := by
  rcases mem_write h with h | h
  · exact .inl (by rw [h])
  · exact .inr h

end Sys2Proof.Machine
end

