-- ==== Sys2Proof/Laws/State.lean ====
section
/-! SUPPORT. The small lemmas of the state's and a thread's updates: one per field per update, so that no later proof
unfolds a record update. -/

namespace Sys2Proof.Machine

@[simp] theorem mapThread_threads (s : State) (t : Nat) (f : Thread → Thread) :
    (s.mapThread t f).threads = s.threads.modify t f := rfl

@[simp] theorem mapThread_mem (s : State) (t : Nat) (f : Thread → Thread) :
    (s.mapThread t f).mem = s.mem := rfl

@[simp] theorem mapThread_devices (s : State) (t : Nat) (f : Thread → Thread) :
    (s.mapThread t f).devices = s.devices := rfl

@[simp] theorem mapThread_plat (s : State) (t : Nat) (f : Thread → Thread) :
    (s.mapThread t f).plat = s.plat := rfl

@[simp] theorem mapThread_cur (s : State) (t : Nat) (f : Thread → Thread) :
    (s.mapThread t f).cur = s.cur := rfl

@[simp] theorem mapThread_readout (s : State) (t : Nat) (f : Thread → Thread) :
    (s.mapThread t f).readout = s.readout := rfl

@[simp] theorem mapThread_agenda (s : State) (t : Nat) (f : Thread → Thread) :
    (s.mapThread t f).agenda = s.agenda := rfl

@[simp] theorem mapThread_draws (s : State) (t : Nat) (f : Thread → Thread) :
    (s.mapThread t f).draws = s.draws := rfl

@[simp] theorem mapThread_waits (s : State) (t : Nat) (f : Thread → Thread) :
    (s.mapThread t f).waits = s.waits := rfl

@[simp] theorem upd_threads (s : State) (f : Thread → Thread) :
    (s.upd f).threads = s.threads.modify s.cur f := rfl

@[simp] theorem upd_mem (s : State) (f : Thread → Thread) :
    (s.upd f).mem = s.mem := rfl

@[simp] theorem upd_devices (s : State) (f : Thread → Thread) :
    (s.upd f).devices = s.devices := rfl

@[simp] theorem upd_plat (s : State) (f : Thread → Thread) :
    (s.upd f).plat = s.plat := rfl

@[simp] theorem upd_cur (s : State) (f : Thread → Thread) :
    (s.upd f).cur = s.cur := rfl

@[simp] theorem upd_readout (s : State) (f : Thread → Thread) :
    (s.upd f).readout = s.readout := rfl

@[simp] theorem upd_agenda (s : State) (f : Thread → Thread) :
    (s.upd f).agenda = s.agenda := rfl

@[simp] theorem upd_draws (s : State) (f : Thread → Thread) :
    (s.upd f).draws = s.draws := rfl

@[simp] theorem upd_waits (s : State) (f : Thread → Thread) :
    (s.upd f).waits = s.waits := rfl

@[simp] theorem advance_threads (s : State) :
    s.advance.threads = s.threads.modify s.cur Thread.advance := rfl

@[simp] theorem advance_mem (s : State) :
    s.advance.mem = s.mem := rfl

@[simp] theorem advance_devices (s : State) :
    s.advance.devices = s.devices := rfl

@[simp] theorem advance_plat (s : State) :
    s.advance.plat = s.plat := rfl

@[simp] theorem advance_cur (s : State) :
    s.advance.cur = s.cur := rfl

@[simp] theorem advance_readout (s : State) :
    s.advance.readout = s.readout := rfl

@[simp] theorem advance_agenda (s : State) :
    s.advance.agenda = s.agenda := rfl

@[simp] theorem advance_draws (s : State) :
    s.advance.draws = s.draws := rfl

@[simp] theorem advance_waits (s : State) :
    s.advance.waits = s.waits := rfl

@[simp] theorem fetch_threads (s : State) (t : Nat) (th : Thread) :
    (s.fetch t th).threads = s.threads.modify t fun th => th.fetched th.addr := rfl

@[simp] theorem fetch_devices (s : State) (t : Nat) (th : Thread) :
    (s.fetch t th).devices = s.devices := rfl

@[simp] theorem fetch_plat (s : State) (t : Nat) (th : Thread) :
    (s.fetch t th).plat = s.plat := rfl

@[simp] theorem fetch_cur (s : State) (t : Nat) (th : Thread) :
    (s.fetch t th).cur = t := rfl

@[simp] theorem fetch_readout (s : State) (t : Nat) (th : Thread) :
    (s.fetch t th).readout = (s.mem.read th.addr).x := rfl

@[simp] theorem fetch_agenda (s : State) (t : Nat) (th : Thread) :
    (s.fetch t th).agenda = s.agenda := rfl

@[simp] theorem fetch_draws (s : State) (t : Nat) (th : Thread) :
    (s.fetch t th).draws = s.draws := rfl

@[simp] theorem fetch_waits (s : State) (t : Nat) (th : Thread) :
    (s.fetch t th).waits = s.waits := rfl

@[simp] theorem threadAdvance_pc (th : Thread) :
    (th.advance).pc = th.pc + 1 := rfl

@[simp] theorem threadAdvance_acc (th : Thread) :
    (th.advance).acc = th.acc := rfl

@[simp] theorem threadAdvance_b (th : Thread) :
    (th.advance).b = th.b := rfl

@[simp] theorem threadAdvance_c (th : Thread) :
    (th.advance).c = th.c := rfl

@[simp] theorem threadAdvance_halted (th : Thread) :
    (th.advance).halted = th.halted := rfl

@[simp] theorem threadAdvance_overrun (th : Thread) :
    (th.advance).overrun = decide (th.pc.toNat % 2 ^ 31 = 2 ^ 31 - 1) := rfl

@[simp] theorem threadAdvance_wb (th : Thread) :
    (th.advance).wb = th.wb := rfl

@[simp] theorem jump_pc (th : Thread) (v : Word) :
    (th.jump v).pc = v := rfl

@[simp] theorem jump_acc (th : Thread) (v : Word) :
    (th.jump v).acc = th.acc := rfl

@[simp] theorem jump_b (th : Thread) (v : Word) :
    (th.jump v).b = th.b := rfl

@[simp] theorem jump_c (th : Thread) (v : Word) :
    (th.jump v).c = th.c := rfl

@[simp] theorem jump_halted (th : Thread) (v : Word) :
    (th.jump v).halted = th.halted := rfl

@[simp] theorem jump_overrun (th : Thread) (v : Word) :
    (th.jump v).overrun = false := rfl

@[simp] theorem jump_wb (th : Thread) (v : Word) :
    (th.jump v).wb = th.wb := rfl

@[simp] theorem peeked_pc (th : Thread) (v : Word) :
    (th.peeked v).pc = th.acc := rfl

@[simp] theorem peeked_acc (th : Thread) (v : Word) :
    (th.peeked v).acc = v := rfl

@[simp] theorem peeked_b (th : Thread) (v : Word) :
    (th.peeked v).b = th.b := rfl

@[simp] theorem peeked_c (th : Thread) (v : Word) :
    (th.peeked v).c = th.c := rfl

@[simp] theorem peeked_halted (th : Thread) (v : Word) :
    (th.peeked v).halted = th.halted := rfl

@[simp] theorem peeked_overrun (th : Thread) (v : Word) :
    (th.peeked v).overrun = false := rfl

@[simp] theorem peeked_wb (th : Thread) (v : Word) :
    (th.peeked v).wb = th.wb := rfl

@[simp] theorem fetched_pc (th : Thread) (a : Nat) :
    (th.fetched a).pc = th.pc := rfl

@[simp] theorem fetched_acc (th : Thread) (a : Nat) :
    (th.fetched a).acc = th.acc := rfl

@[simp] theorem fetched_b (th : Thread) (a : Nat) :
    (th.fetched a).b = th.b := rfl

@[simp] theorem fetched_c (th : Thread) (a : Nat) :
    (th.fetched a).c = th.c := rfl

@[simp] theorem fetched_halted (th : Thread) (a : Nat) :
    (th.fetched a).halted = th.halted := rfl

@[simp] theorem fetched_overrun (th : Thread) (a : Nat) :
    (th.fetched a).overrun = th.overrun := rfl

@[simp] theorem fetched_wb (th : Thread) (a : Nat) :
    (th.fetched a).wb = (th.wb.filter fun p => p.addr != a).map fun p => { p with fresh := false } := rfl

@[simp] theorem queue_pc (th : Thread) (a : Nat) (v : Word) :
    (th.queue a v).pc = th.pc := rfl

@[simp] theorem queue_acc (th : Thread) (a : Nat) (v : Word) :
    (th.queue a v).acc = th.acc := rfl

@[simp] theorem queue_b (th : Thread) (a : Nat) (v : Word) :
    (th.queue a v).b = th.b := rfl

@[simp] theorem queue_c (th : Thread) (a : Nat) (v : Word) :
    (th.queue a v).c = th.c := rfl

@[simp] theorem queue_halted (th : Thread) (a : Nat) (v : Word) :
    (th.queue a v).halted = th.halted := rfl

@[simp] theorem queue_overrun (th : Thread) (a : Nat) (v : Word) :
    (th.queue a v).overrun = th.overrun := rfl

@[simp] theorem queue_wb (th : Thread) (a : Nat) (v : Word) :
    (th.queue a v).wb = th.wb ++ [⟨a, v, true⟩] := rfl

@[simp] theorem getter_fetched (th : Thread) (a : Nat) : (th.fetched a).getter = th.getter := rfl

@[simp] theorem addr_fetched (th : Thread) (a : Nat) : (th.fetched a).addr = th.addr := rfl

/-! Reading a thread back after an update. -/

@[simp] theorem mapThread_getElem? (s : State) (t k : Nat) (f : Thread → Thread) :
    (s.mapThread t f).threads[k]? = (fun th => if t = k then f th else th) <$> s.threads[k]? := by
  simp only [mapThread_threads, List.getElem?_modify]

theorem thread_eq_getElem (s : State) (h : s.Running) : s.threads[s.cur]? = some s.thread := by
  unfold State.Running at h
  simp [State.thread, h]

theorem thread_of_getElem? (s : State) (th : Thread) (h : s.threads[s.cur]? = some th) :
    s.thread = th := by
  simp [State.thread, h]

theorem thread_upd (s : State) (f : Thread → Thread) (h : s.Running) : (s.upd f).thread = f s.thread := by
  apply thread_of_getElem?
  simp [thread_eq_getElem s h]

theorem thread_advance (s : State) (h : s.Running) : s.advance.thread = s.thread.advance :=
  thread_upd s _ h

@[simp] theorem running_upd (s : State) (f : Thread → Thread) : (s.upd f).Running ↔ s.Running := by
  simp [State.Running]

@[simp] theorem running_mapThread (s : State) (t : Nat) (f : Thread → Thread) :
    (s.mapThread t f).Running ↔ s.Running := by
  simp [State.Running]

@[simp] theorem running_advance (s : State) : s.advance.Running ↔ s.Running := running_upd s _

/-- An update of the executing thread leaves everything else alone. -/
theorem sameRest_upd (s : State) (f : Thread → Thread) : SameRest s (s.upd f) where
  count := by simp
  others k hk := by simp [Ne.symm hk]
  mem _ := rfl
  devices := rfl
  plat := rfl
  cur := rfl
  readout := rfl
  agenda := rfl
  draws := rfl
  waits := rfl

/-- An instruction that only updates the executing thread completes with that update. -/
theorem completes_upd {i : Instr} {s : State} {f : Thread → Thread} {th : Thread} (hs : s.Running)
    (h : exec i s = .next (s.upd f)) (hf : { f s.thread with overrun := th.overrun } = th) :
    Completes i s th :=
  ⟨s.upd f, h, by rw [RecordIs, thread_upd s f hs]; exact hf, sameRest_upd s f⟩

end Sys2Proof.Machine
end

