-- ==== Sys2Proof/Laws/Ops.lean ====
section
/-! SUPPORT. One lemma per shared operation over memory and ports that says all it can do. -/

namespace Sys2Proof.Machine

/-! Performing writebacks in list order (rules R47, R48). -/

@[simp] theorem performAll_nil (m : Memory) : performAll m [] = m := rfl

@[simp] theorem performAll_cons (m : Memory) (p : Pending) (wb : List Pending) :
    performAll m (p :: wb) = performAll (m.writeOperand p.addr p.value) wb := rfl

theorem wf_performAll {m : Memory} (h : m.wf = true) (wb : List Pending) : (performAll m wb).wf = true := by
  induction wb generalizing m with
  | nil => exact h
  | cons p wb ih => exact ih (wf_writeOperand h _ _)

theorem op_performAll {m : Memory} (h : m.wf = true) (wb : List Pending) (a : Nat) :
    ((performAll m wb).read a).op = (m.read a).op := by
  induction wb generalizing m with
  | nil => rfl
  | cons p wb ih => rw [performAll_cons, ih (wf_writeOperand h _ _), op_writeOperand h]

theorem read_performAll_other (m : Memory) {wb : List Pending} {a : Nat} (h : ∀ p ∈ wb, p.addr ≠ a) :
    (performAll m wb).read a = m.read a := by
  induction wb generalizing m with
  | nil => rfl
  | cons p wb ih =>
    rw [performAll_cons, ih _ fun q hq => h q (List.mem_cons_of_mem _ hq),
      read_writeOperand_other _ _ (h p List.mem_cons_self).symm]

theorem mem_performAll {m : Memory} {wb : List Pending} {e : Nat × CodeWord} (h : e ∈ performAll m wb) :
    (∃ p ∈ wb, e.1 = p.addr) ∨ e ∈ m := by
  induction wb generalizing m with
  | nil => exact .inr h
  | cons p wb ih =>
    rcases ih h with ⟨q, hq, he⟩ | h
    · exact .inl ⟨q, List.mem_cons_of_mem _ hq, he⟩
    · rcases mem_writeOperand h with h | h
      · exact .inl ⟨p, List.mem_cons_self, h⟩
      · exact .inr h

/-! MemWrite (rules R46, R48, R54). -/

/-- The collision rule in the spec's terms (rules R41, R48, R54). -/
theorem collides_eq_shareBank (s : State) (a a' : Nat) : s.collides a a' = s.shareBank a a' := rfl

theorem shareBank_self (s : State) (a : Nat) : s.shareBank a a = true := by
  unfold State.shareBank
  split <;> simp

theorem shareBank_comm (s : State) (a a' : Nat) : s.shareBank a a' = s.shareBank a' a := by
  unfold State.shareBank
  simp only [eq_comm]

theorem shareBank_congr {s t : State} (hp : t.plat = s.plat) (hl : t.threads.length = s.threads.length)
    (a a' : Nat) : t.shareBank a a' = s.shareBank a a' := by
  simp only [State.shareBank, hp, hl]

/-- Of one thread's writebacks, no two go to one address (rules R48, R54). -/
theorem pending_unique {s : State} {th : Thread} (h : s.pendingOk th) {p q : Pending} (hp : p ∈ th.wb)
    (hq : q ∈ th.wb) (ha : p.addr = q.addr) : p = q := by
  by_contra hne
  have hsym : Std.Symm fun p q : Pending => s.shareBank p.addr q.addr = false :=
    ⟨fun p q h => by rw [shareBank_comm]; exact h⟩
  have := h.2.1.forall hp hq hne
  rw [ha, shareBank_self] at this
  cases this

/-- All that queueing a write can do: the address exists; without a collision the write is queued; with one every
pending write of the thread is performed first. -/
theorem memWrite_cases {s s' : State} {a : Nat} {v : Word} (h : s.memWrite a v = some s') :
    a < s.plat.codeSize ∧
    ((∀ p ∈ s.thread.wb, s.shareBank a p.addr = false) ∧ s' = s.upd (fun th => th.queue a v) ∨
     (∃ p ∈ s.thread.wb, s.shareBank a p.addr = true) ∧
       s' = { s with mem := performAll s.mem s.thread.wb }.upd
         fun th => { th with wb := [] }.queue a v) := by
  unfold State.memWrite at h
  split at h
  · rename_i ha
    refine ⟨ha, ?_⟩
    split at h
    · rename_i hc
      exact .inr ⟨by simpa [collides_eq_shareBank] using hc, (Option.some.inj h).symm⟩
    · rename_i hc
      exact .inl ⟨by simpa [collides_eq_shareBank] using hc, (Option.some.inj h).symm⟩
  · cases h

theorem memWrite_none {s : State} {a : Nat} {v : Word} : s.memWrite a v = none ↔ s.plat.codeSize ≤ a := by
  unfold State.memWrite
  split
  · split <;> simp <;> omega
  · simp; omega

/-! Forwarding (rules R44, R47). -/

theorem pendingValue_eq_some {th : Thread} {a : Nat} {v : Word} (h : th.pendingValue a = some v) :
    ∃ p ∈ th.wb, p.addr = a ∧ p.value = v := by
  unfold Thread.pendingValue at h
  obtain ⟨p, hp, rfl⟩ := Option.map_eq_some_iff.1 h
  exact ⟨p, List.mem_of_find?_eq_some hp, by simpa using List.find?_some hp, rfl⟩

theorem pendingValue_eq_none {th : Thread} {a : Nat} :
    th.pendingValue a = none ↔ ∀ p ∈ th.wb, p.addr ≠ a := by
  simp [Thread.pendingValue]

/-- After a fetch of `a` the thread has nothing pending to `a`. -/
theorem pendingValue_fetched (th : Thread) (a : Nat) : (th.fetched a).pendingValue a = none := by
  rw [pendingValue_eq_none]
  intro p hp
  obtain ⟨q, hq, rfl⟩ := List.mem_map.1 hp
  simpa using (List.mem_filter.1 hq).2

theorem memRead_of_pending {s : State} {th : Thread} {a : Nat} {v : Word} (h : th.pendingValue a = some v) :
    s.memRead th a = v := by simp [State.memRead, h]

theorem memRead_of_none {s : State} {th : Thread} {a : Nat} (h : th.pendingValue a = none) :
    s.memRead th a = (s.mem.read a).x := by simp [State.memRead, h]

/-- What a fetch does to the memory: it performs the coincident writeback, if there is one. -/
theorem fetch_mem (s : State) (t : Nat) (th : Thread) :
    (s.fetch t th).mem = match th.pendingValue th.addr with
      | some v => s.mem.writeOperand th.addr v
      | none => s.mem := rfl

theorem thread_fetch {s : State} {t : Nat} {th : Thread} (h : s.threads[t]? = some th) :
    (s.fetch t th).thread = th.fetched th.addr := by
  apply thread_of_getElem?
  simp [h]

theorem running_fetch {s : State} {t : Nat} {th th' : Thread} (h : s.threads[t]? = some th') :
    (s.fetch t th).Running := by
  simpa [State.Running] using (List.getElem?_eq_some_iff.1 h).1

/-! The background step (rule R54). -/

/-- All the background step can do: nothing, or perform one writeback that is not fresh. -/
theorem drain_cases (s : State) (t a : Nat) :
    s.drain t a = s ∨
    ∃ th p, s.threads[t]? = some th ∧ p ∈ th.wb ∧ p.addr = a ∧ p.fresh = false ∧
      s.drain t a = { s with mem := s.mem.writeOperand a p.value }.mapThread t fun th =>
        { th with wb := th.wb.eraseP fun q => q.addr == a && !q.fresh } := by
  unfold State.drain
  split
  · rename_i th hth
    split
    · rename_i p hp
      have hs := List.find?_some hp
      simp only [Bool.and_eq_true, beq_iff_eq, Bool.not_eq_true'] at hs
      exact .inr ⟨th, p, hth, List.mem_of_find?_eq_some hp, hs.1, hs.2, rfl⟩
    · exact .inl rfl
  · exact .inl rfl

/-! Port accesses (rules R175, R176). -/

/-- All a port access can do: reach the device mapped at the port and leave it as it answers. -/
theorem portAccess_cases {s s' : State} {space : PortSpace} {port v : Word} {r : Option Word}
    (h : s.portAccess space port v = some (r, s')) :
    ∃ id d, deviceOn s.plat space port = some id ∧ s.devices[id]? = some d ∧
      r = (d.access s.plat.stickyImmediate id space v).result ∧
      s' = { s with devices := s.devices.set id (d.access s.plat.stickyImmediate id space v).device } := by
  unfold State.portAccess at h
  split at h
  · rename_i id hid
    split at h
    · rename_i d hd
      cases h
      exact ⟨id, d, hid, hd, rfl, rfl⟩
    · cases h
  · cases h

/-- When a port access reaches no device: the port is not mapped, or to a device number that is not there
(rules R175, R176; log entry 15). -/
theorem portAccess_none {s : State} {space : PortSpace} {port v : Word} :
    s.portAccess space port v = none ↔ ∀ id, deviceOn s.plat space port = some id → s.devices[id]? = none := by
  unfold State.portAccess
  split
  · rename_i id hid
    rw [hid]
    split
    · rename_i d hd
      exact ⟨fun h => (by cases h), fun h => absurd (h id rfl) (by simp [hd])⟩
    · rename_i hd
      exact ⟨fun _ id' h => by cases h; exact hd, fun _ => rfl⟩
  · rename_i hid
    simp [hid]

/-- A FIFO's capacity and its bound are kept by every access (rule R180). -/
theorem access_ok (sticky : Bool) (id : Nat) (space : PortSpace) (v : Word) {d : Device} (h : d.ok) :
    (d.access sticky id space v).device.ok := by
  cases d with
  | other history => exact trivial
  | fifo depth queue force =>
    simp only [Device.ok] at h
    cases space with
    | pushOut =>
      unfold Device.access
      simp only [fifoPush]
      split
      · exact h
      · simp only [Device.ok, List.length_append, List.length_singleton]; omega
    | popIo =>
      unfold Device.access
      simp only [fifoPop]
      split
      · cases queue with
        | nil => exact h
        | cons r rest => simp only [Device.ok, List.length_cons] at h ⊢; omega
      · exact h

end Sys2Proof.Machine
end

