-- ==== Sys2Proof/Laws/Meanings.lean ====
section
/-! SUPPORT. One lemma per shared meaning that says all it can answer: callers cite it and do not unfold the
meaning. -/

namespace Sys2Proof.Machine

/-- A store completes on a target that exists: the write is queued and the pc advances (rules R46, R140). -/
theorem store_next {target v : Word} {s t : State} (h : store target v s = .next t) :
    ∃ s', s.memWrite target.toNat v = some s' ∧ t = s'.advance := by
  unfold store at h
  split at h
  · rename_i s' hs
    cases h
    exact ⟨s', hs, rfl⟩
  · cases h

/-- A store stops exactly on a target that does not exist (rule R57). -/
theorem store_fault {target v : Word} {s : State} :
    store target v s = .fault .badAddress ↔ s.plat.codeSize ≤ target.toNat := by
  rw [← memWrite_none (v := v)]
  unfold store
  split <;> simp_all

/-- PUSH/OUT completes after one access to its port: on `retry` with the device's state alone changed, on `done`
with the pc advanced too (rules R177, R178). -/
theorem pushOut_next {o : Operand} {s t : State} (h : pushOut o s = .next t) :
    ∃ r s', s.portAccess .pushOut s.thread.acc (s.xb o) = some (r, s') ∧
      t = match r with | none => s' | some _ => s'.advance := by
  unfold pushOut at h
  split at h
  · cases h
  · rename_i s' hs
    cases h
    exact ⟨none, _, hs, rfl⟩
  · rename_i r s' hs
    cases h
    exact ⟨some r, _, hs, rfl⟩

/-- POP/IO completes after one access to its port: on `retry` with the device's state alone changed, on `done`
with the result in Acc and the pc advanced too (rules R177, R179). -/
theorem popIo_next {o : Operand} {s t : State} (h : popIo o s = .next t) :
    ∃ r s', s.portAccess .popIo (s.xb o) s.thread.acc = some (r, s') ∧
      t = match r with
        | none => s'
        | some v => s'.upd fun th => { th with acc := v }.advance := by
  unfold popIo at h
  split at h
  · cases h
  · rename_i s' hs
    cases h
    exact ⟨none, _, hs, rfl⟩
  · rename_i r s' hs
    cases h
    exact ⟨some r, _, hs, rfl⟩

/-- A custom operation completes only with a result of CUSTOM, after its store if it has one (rule R200). -/
theorem customOp_next {code : Word} {o : Operand} {s t : State} (h : customOp code o s = .next t) :
    ∃ r s', s.plat.custom.lookup (s.customKey code o) = some r ∧
      (r.store = none ∧ s' = s ∨
        ∃ target v, r.store = some (target, v) ∧ s.memWrite target.toNat v = some s') ∧
      t = s'.upd fun th => th.customResult s.plat.hasC r := by
  unfold customOp at h
  split at h
  · cases h
  · rename_i r hr
    split at h
    · rename_i hst
      cases h
      exact ⟨r, s, hr, .inl ⟨hst, rfl⟩, rfl⟩
    · rename_i target v hst
      split at h
      · rename_i s' hs
        cases h
        exact ⟨r, s', hr, .inr ⟨target, v, hst, hs⟩, rfl⟩
      · cases h

/-- The generic OPB executes what its number decodes to: for a number another row takes, that row's instruction
(rules R75, R100). -/
theorem opbExtended_eq (e : Word) (s : State) :
    exec (decodeOpbExtended e) s = opbExtended e s ∨ decodeOpbExtended e = .opb e := by
  unfold decodeOpbExtended opbExtended
  split
  · split
    · left; simp [exec]
    · split
      · left; simp [exec]
      · exact .inr rfl
  · exact .inr rfl

/-! Bit reversal (rule R7) and `shl1` (rule R108). -/

theorem getLsbD_rev (v : Word) (i : Nat) : (rev v).getLsbD i = (decide (i < 32) && v.getLsbD (31 - i)) := by
  simp [rev, BitVec.getLsbD_reverse, BitVec.getMsbD]

theorem shl1_of_lt {a : Word} (h : a.toNat < 32) : shl1 a = 1#32 <<< a.toNat := if_pos h

theorem shl1_of_ge {a : Word} (h : 32 ≤ a.toNat) : shl1 a = Config.shl1High a := if_neg (by omega)

/-! The bounds of OPX_BLOADX and OPX_BSLOADX (rule R76). -/

theorem opxBloadx_bounds : 0x20 ≤ Config.opxBloadx ∧ Config.opxBloadx < Config.opxBsloadx := by
  unfold Config.opxBloadx Config.opxBsloadx
  have := Config.bloadxColumn.isLt
  omega

theorem opxBsloadx_upper : Config.opxBsloadx ≤ 0x27 := by
  unfold Config.opxBsloadx
  have h := Config.bloadxColumn.isLt
  have := Nat.mod_lt Config.bsloadxGap.val (show 7 - Config.bloadxColumn.val > 0 by omega)
  omega

end Sys2Proof.Machine
end

