-- ==== Sys2Proof/Laws/Turn.lean ====
section
/-! SUPPORT. What a turn can do, said once (rules R31, R54, R186). -/

namespace Sys2Proof.Machine

/-- When a fetch is bad (rules R22, R31, R57). -/
theorem badFetch_iff {s : State} {th : Thread} :
    s.badFetch th = true ↔ th.overrun = true ∨ s.plat.codeSize ≤ th.pc.toNat % 2 ^ 31 := by
  unfold State.badFetch
  rw [Bool.or_eq_true, decide_eq_true_eq]
  exact Iff.rfl

/-- All a thread's turn can do: be idle, fault at the fetch, make a getter step, or execute the instruction fetched
(rules R31, R102, R154). -/
theorem runThread_cases (s : State) (t : Nat) :
    s.runThread t = .next s ∨
    ∃ th, s.threads[t]? = some th ∧ th.halted = false ∧
      (s.badFetch th = true ∧ s.runThread t = .fault .badAddress ∨
       s.badFetch th = false ∧ th.getter = true ∧
         s.runThread t = .next ((s.fetch t th).upd fun th' => th'.peeked (s.memRead th th.addr)) ∨
       s.badFetch th = false ∧ th.getter = false ∧
         s.runThread t = exec (decode (s.fetchedWord th)) (s.fetch t th)) := by
  unfold State.runThread
  split
  · rename_i th hth
    cases hh : th.halted with
    | true => left; simp
    | false =>
      refine .inr ⟨th, hth, hh, ?_⟩
      unfold State.stepThread
      cases hb : s.badFetch th with
      | true => left; simp
      | false =>
        cases hg : th.getter with
        | true => right; left; simp
        | false => right; right; simp
  · exact .inl rfl

/-! The fetches of a merged access (rules R47, R54, R186). -/

theorem fetchAll_cons_some {s : State} {t : Nat} {th : Thread} (h : s.threads[t]? = some th) (ts : List Nat) :
    s.fetchAll (t :: ts) = (s.fetch t th).fetchAll ts := by
  simp [State.fetchAll, h]

theorem fetchAll_cons_none {s : State} {t : Nat} (h : s.threads[t]? = none) (ts : List Nat) :
    s.fetchAll (t :: ts) = s.fetchAll ts := by
  simp [State.fetchAll, h]

/-- Fetches of some threads change no other thread's record, no device, no parameter and nothing of the schedule. -/
theorem fetchAll_frame (s : State) (ts : List Nat) :
    (s.fetchAll ts).devices = s.devices ∧ (s.fetchAll ts).plat = s.plat ∧ (s.fetchAll ts).agenda = s.agenda ∧
    (s.fetchAll ts).draws = s.draws ∧ (s.fetchAll ts).waits = s.waits ∧
    ∀ k, k ∉ ts → (s.fetchAll ts).threads[k]? = s.threads[k]? := by
  induction ts generalizing s with
  | nil => exact ⟨rfl, rfl, rfl, rfl, rfl, fun _ _ => rfl⟩
  | cons t ts ih =>
    cases h : s.threads[t]? with
    | none =>
      rw [fetchAll_cons_none h]
      obtain ⟨h1, h2, h3, h4, h5, h6⟩ := ih s
      exact ⟨h1, h2, h3, h4, h5, fun k hk => h6 k fun hm => hk (List.mem_cons_of_mem _ hm)⟩
    | some th =>
      rw [fetchAll_cons_some h]
      obtain ⟨h1, h2, h3, h4, h5, h6⟩ := ih (s.fetch t th)
      refine ⟨h1, h2, h3, h4, h5, fun k hk => ?_⟩
      simp only [List.mem_cons, not_or] at hk
      rw [h6 k hk.2]
      simp [Ne.symm hk.1]

/-- Each of these threads has fetched. -/
theorem fetchAll_thread {s : State} {ts : List Nat} (hn : ts.Nodup) {k : Nat} (hk : k ∈ ts) {th : Thread}
    (h : s.threads[k]? = some th) : (s.fetchAll ts).threads[k]? = some (th.fetched th.addr) := by
  induction ts generalizing s with
  | nil => cases hk
  | cons t ts ih =>
    obtain ⟨hnt, hn⟩ := List.nodup_cons.1 hn
    cases ht : s.threads[t]? with
    | none =>
      rw [fetchAll_cons_none ht]
      rcases List.mem_cons.1 hk with rfl | hk
      · rw [h] at ht; cases ht
      · exact ih hn hk h
    | some th0 =>
      rw [fetchAll_cons_some ht]
      rcases List.mem_cons.1 hk with rfl | hk
      · rw [(fetchAll_frame _ ts).2.2.2.2.2 k hnt]
        rw [h] at ht
        cases ht
        simp [h]
      · have : t ≠ k := fun he => hnt (he ▸ hk)
        exact ih hn hk (by simp [this, h])

/-- An address to which none of these threads has a writeback pending while it fetches it is as before. -/
theorem fetchAll_read_other {s : State} {ts : List Nat} (hn : ts.Nodup) {a : Nat}
    (h : ∀ k ∈ ts, ∀ th, s.threads[k]? = some th → th.addr = a → th.pendingValue a = none) :
    (s.fetchAll ts).mem.read a = s.mem.read a := by
  induction ts generalizing s with
  | nil => rfl
  | cons t ts ih =>
    obtain ⟨hnt, hn⟩ := List.nodup_cons.1 hn
    cases ht : s.threads[t]? with
    | none =>
      rw [fetchAll_cons_none ht]
      exact ih hn fun k hk => h k (List.mem_cons_of_mem _ hk)
    | some th0 =>
      rw [fetchAll_cons_some ht, ih hn, fetch_mem]
      · split
        · rename_i v hv
          apply read_writeOperand_other
          intro he
          have := h t List.mem_cons_self th0 ht he.symm
          rw [he, hv] at this
          cases this
        · rfl
      · intro k hk th hth
        have : t ≠ k := fun he => hnt (he ▸ hk)
        exact h k (List.mem_cons_of_mem _ hk) th (by simpa [this] using hth)

/-- A writeback that one of these threads has pending to the address it fetches is performed, unless a later one of
them performs its own there. -/
theorem fetchAll_read_performed {s : State} {pre post : List Nat} {k : Nat} {th : Thread} {v : Word}
    (hw : s.mem.wf = true) (hn : (pre ++ k :: post).Nodup) (hk : s.threads[k]? = some th)
    (hv : th.pendingValue th.addr = some v)
    (hpost : ∀ j ∈ post, ∀ th', s.threads[j]? = some th' → th'.addr = th.addr → th'.pendingValue th.addr = none) :
    (s.fetchAll (pre ++ k :: post)).mem.read th.addr = { s.mem.read th.addr with x := v } := by
  induction pre generalizing s with
  | nil =>
    obtain ⟨hnk, hn⟩ := List.nodup_cons.1 hn
    rw [List.nil_append, fetchAll_cons_some hk, fetchAll_read_other hn, fetch_mem]
    · simp only [hv]
      exact read_writeOperand_same hw _ _
    · intro j hj th' hth
      have : k ≠ j := fun he => hnk (he ▸ hj)
      exact hpost j hj th' (by simpa [this] using hth)
  | cons t pre ih =>
    obtain ⟨hnt, hn⟩ := List.nodup_cons.1 hn
    have hne : ∀ j ∈ k :: post, t ≠ j := fun j hj he => hnt (List.mem_append_right _ (he ▸ hj))
    cases ht : s.threads[t]? with
    | none =>
      rw [List.cons_append, fetchAll_cons_none ht]
      exact ih hw hn hk hpost
    | some th0 =>
      have hmem : (s.fetch t th0).mem.wf = true ∧
          ((s.fetch t th0).mem.read th.addr).op = (s.mem.read th.addr).op := by
        rw [fetch_mem]
        split
        · exact ⟨wf_writeOperand hw _ _, op_writeOperand hw _ _ _⟩
        · exact ⟨hw, rfl⟩
      rw [List.cons_append, fetchAll_cons_some ht, ih hmem.1 hn (by simp [hne k List.mem_cons_self, hk])
        fun j hj th' hth => hpost j hj th' (by simpa [hne j (List.mem_cons_of_mem _ hj)] using hth)]
      show CodeWord.mk _ v = _
      rw [hmem.2]

/-! The participants of a merged access that is `done` do `next` (rule R186). -/

theorem advanceAll_frame (s : State) (ts : List Nat) :
    let u := ts.foldl (fun s t => s.mapThread t Thread.advance) s
    u.mem = s.mem ∧ u.devices = s.devices ∧ u.plat = s.plat ∧ u.agenda = s.agenda ∧ u.draws = s.draws ∧
    u.waits = s.waits ∧ ∀ k, k ∉ ts → u.threads[k]? = s.threads[k]? := by
  induction ts generalizing s with
  | nil => exact ⟨rfl, rfl, rfl, rfl, rfl, rfl, fun _ _ => rfl⟩
  | cons t ts ih =>
    obtain ⟨h1, h2, h3, h4, h5, h6, h7⟩ := ih (s.mapThread t Thread.advance)
    refine ⟨h1, h2, h3, h4, h5, h6, fun k hk => ?_⟩
    simp only [List.mem_cons, not_or] at hk
    rw [List.foldl_cons, h7 k hk.2]
    simp [Ne.symm hk.1]

theorem advanceAll_thread {s : State} {ts : List Nat} (hn : ts.Nodup) {k : Nat} (hk : k ∈ ts) :
    (ts.foldl (fun s t => s.mapThread t Thread.advance) s).threads[k]? = s.threads[k]?.map Thread.advance := by
  induction ts generalizing s with
  | nil => cases hk
  | cons t ts ih =>
    obtain ⟨hnt, hn⟩ := List.nodup_cons.1 hn
    rw [List.foldl_cons]
    rcases List.mem_cons.1 hk with rfl | hk
    · rw [(advanceAll_frame _ ts).2.2.2.2.2.2 k hnt]
      simp
    · have : t ≠ k := fun he => hnt (he ▸ hk)
      rw [ih hn hk]
      simp [this]

/-! What can merge (rules R185, R186). -/

/-- The accesses of some threads are known exactly where each of them stands at one. -/
theorem poisedAll_eq_some {s : State} {ts : List Nat} {ps : List PoisedAccess} :
    s.poisedAll ts = some ps ↔ ts.map s.poised = ps.map some := by
  induction ts generalizing ps with
  | nil => cases ps <;> simp [State.poisedAll]
  | cons t ts ih =>
    rw [State.poisedAll]
    cases ps with
    | nil =>
      split <;> simp
    | cons p ps =>
      simp only [List.map_cons, List.cons.injEq, ← ih]
      split
      · rename_i q qs hq hqs
        simp [hq, hqs]
      · rename_i hno
        constructor
        · intro h; cases h
        · rintro ⟨hp, hps⟩; exact absurd hps (hno _ _ hp)

/-- What can merge does not depend on what is left of the schedule. -/
theorem poisedAll_schedule (s : State) (ag : List Choice) (dr : Nat) (ws : List Wait) (ts : List Nat) :
    ({ s with agenda := ag, draws := dr, waits := ws } : State).poisedAll ts = s.poisedAll ts := by
  induction ts with
  | nil => rfl
  | cons t ts ih => rw [State.poisedAll, State.poisedAll, ih]; rfl

theorem mergedAccess_schedule (s : State) (ag : List Choice) (dr : Nat) (ws : List Wait) (ts : List Nat) :
    ({ s with agenda := ag, draws := dr, waits := ws } : State).mergedAccess ts = s.mergedAccess ts := by
  rw [State.mergedAccess, State.mergedAccess, poisedAll_schedule]

/-- A merged access is one of two or more different threads, each at an access to the same port of one space; its
value is the OR of theirs (rules R185, R186). -/
theorem mergedAccess_cases {s : State} {ts : List Nat} {r : PoisedAccess} (h : s.mergedAccess ts = some r) :
    ∃ p q ps, s.poisedAll ts = some (p :: q :: ps) ∧ ts.Nodup ∧ (∀ a ∈ q :: ps, p.samePort a = true) ∧
      r = { p with value := (q :: ps).foldl (fun v a => v ||| a.value) p.value } := by
  unfold State.mergedAccess at h
  split at h
  · rename_i p q ps hp
    split at h
    · rename_i hc
      simp only [Bool.and_eq_true, decide_eq_true_eq, List.all_eq_true] at hc
      exact ⟨p, q, ps, hp, hc.1, hc.2, (Option.some.inj h).symm⟩
    · cases h
  · cases h

/-- All a merged turn can do: be idle, race at a POP/IO port, or make one merged PUSH/OUT access (rule R186). -/
theorem runMerge_cases (s : State) (ts : List Nat) :
    s.mergedAccess ts = none ∧ s.runMerge ts = .next s ∨
    ∃ r, s.mergedAccess ts = some r ∧
      (r.space = .popIo ∧ s.runMerge ts = .fault .portRace ∨
       r.space = .pushOut ∧ s.runMerge ts = s.mergedPush ts r.port r.value) := by
  unfold State.runMerge
  split
  · rename_i r hr
    refine .inr ⟨r, hr, ?_⟩
    split
    · exact .inl ⟨‹_›, rfl⟩
    · exact .inr ⟨‹_›, rfl⟩
  · exact .inl ⟨‹_›, rfl⟩

/-- All a merged PUSH/OUT access can answer: one access after every participant's fetch; on `retry` none moves, on
`done` every participant does `next` (rule R186). -/
theorem mergedPush_next {s t : State} {ts : List Nat} {port v : Word} (h : s.mergedPush ts port v = .next t) :
    ∃ r s', (s.fetchAll ts).portAccess .pushOut port v = some (r, s') ∧
      t = match r with
        | none => s'
        | some _ => ts.foldl (fun s t => s.mapThread t Thread.advance) s' := by
  unfold State.mergedPush at h
  split at h
  · cases h
  · rename_i s' hs
    cases h
    exact ⟨none, _, hs, rfl⟩
  · rename_i r s' hs
    cases h
    exact ⟨some r, _, hs, rfl⟩

/-- The state a turn starts from differs from the state before only in what is left of the schedule. -/
theorem nextChoice_state (s : State) :
    ∃ ag dr ws, s.nextChoice.2 = { s with agenda := ag, draws := dr, waits := ws } := by
  unfold State.nextChoice
  split
  · exact ⟨_, s.draws, s.waits, rfl⟩
  · split
    · exact ⟨s.agenda, s.draws, s.waits, rfl⟩
    · exact ⟨s.agenda, s.draws, [], rfl⟩
    · exact ⟨s.agenda, _, _, rfl⟩

/-- Where the agenda decides the next turn, the step is that turn. -/
theorem step_of_agenda {s : State} {c : Choice} {rest : List Choice} (h : s.agenda = c :: rest) :
    step s = { s with agenda := rest }.turn c := by
  simp [step, State.nextChoice, h]

end Sys2Proof.Machine
end

