-- ==== Sys2Proof/Laws/Exec.lean ====
section
/-! SUPPORT. What executing one instruction can do, said once over all instructions: invariants of the machine are
proved from this and not by unfolding `exec`. -/

namespace Sys2Proof.Machine

/-- How an instruction reaches memory and devices: not at all, by queueing one writeback, or by one port access. -/
inductive Reach (s : State) : State → Prop where
  | none : Reach s s
  | write {s' : State} (a : Nat) (v : Word) (h : s.memWrite a v = some s') : Reach s s'
  | port {s' : State} (space : PortSpace) (port v : Word) (r : Option Word)
      (h : s.portAccess space port v = some (r, s')) : Reach s s'

/-- An update of a thread's registers: the pending writebacks stay, and the halted flag stays or is set. -/
structure RegistersOnly (f : Thread → Thread) : Prop where
  wb : ∀ th, (f th).wb = th.wb
  halted : (∀ th, (f th).halted = th.halted) ∨ ∀ th, (f th).halted = true

/-- The effect of one instruction: a reach, then an update of the executing thread's registers; HALT, which sets
the flag, reaches nothing. -/
def Effect (s t : State) : Prop :=
  ∃ s' f, Reach s s' ∧ RegistersOnly f ∧ t = s'.upd f ∧
    ((∀ th, (f th).halted = th.halted) ∨ s' = s)

theorem registersOnly_of {f : Thread → Thread} (hw : ∀ th, (f th).wb = th.wb)
    (hh : ∀ th, (f th).halted = th.halted) : RegistersOnly f := ⟨hw, .inl hh⟩

theorem effect_upd {s : State} {f : Thread → Thread} (h : RegistersOnly f) : Effect s (s.upd f) :=
  ⟨s, f, .none, h, rfl, .inr rfl⟩

theorem upd_id (s : State) : s.upd id = s := by
  simp [State.upd, State.mapThread]

theorem registersOnly_advance : RegistersOnly Thread.advance :=
  registersOnly_of (fun _ => rfl) fun _ => rfl

theorem registersOnly_id : RegistersOnly id := registersOnly_of (fun _ => rfl) fun _ => rfl

theorem registersOnly_custom (hasC : Bool) (r : CustomResult) :
    RegistersOnly fun th => th.customResult hasC r := by
  apply registersOnly_of <;> intro th <;> unfold Thread.customResult Thread.customPc <;> split <;> rfl

theorem effect_registers {acc b : Thread → Word} {s t : State} (h : registers acc b s = .next t) :
    Effect s t := by
  cases h
  exact effect_upd (registersOnly_of (fun _ => rfl) fun _ => rfl)

theorem effect_binary {f : Word → Word → Word} {o : Operand} {s t : State} (h : binary f o s = .next t) :
    Effect s t := by
  cases h
  exact effect_upd (registersOnly_of (fun _ => rfl) fun _ => rfl)

theorem effect_branch {c : Word → Bool} {o : Operand} {s t : State} (h : branch c o s = .next t) :
    Effect s t := by
  cases h
  refine effect_upd (registersOnly_of ?_ ?_) <;> intro th <;> split <;> rfl

theorem effect_store {target v : Word} {s t : State} (h : store target v s = .next t) : Effect s t := by
  obtain ⟨s', hm, rfl⟩ := store_next h
  exact ⟨s', _, .write _ _ hm, registersOnly_advance, rfl, .inl fun _ => rfl⟩

theorem effect_pushOut {o : Operand} {s t : State} (h : pushOut o s = .next t) : Effect s t := by
  obtain ⟨r, s', hp, ht⟩ := pushOut_next h
  cases r with
  | none => exact ⟨s', id, .port _ _ _ _ hp, registersOnly_id, by rw [upd_id]; exact ht, .inl fun _ => rfl⟩
  | some v => exact ⟨s', _, .port _ _ _ _ hp, registersOnly_advance, ht, .inl fun _ => rfl⟩

theorem effect_popIo {o : Operand} {s t : State} (h : popIo o s = .next t) : Effect s t := by
  obtain ⟨r, s', hp, ht⟩ := popIo_next h
  cases r with
  | none => exact ⟨s', id, .port _ _ _ _ hp, registersOnly_id, by rw [upd_id]; exact ht, .inl fun _ => rfl⟩
  | some v =>
    exact ⟨s', fun th => { th with acc := v }.advance, .port _ _ _ _ hp,
      registersOnly_of (fun _ => rfl) fun _ => rfl, ht, .inl fun _ => rfl⟩

theorem effect_customOp {code : Word} {o : Operand} {s t : State} (h : customOp code o s = .next t) :
    Effect s t := by
  obtain ⟨r, s', -, hs, rfl⟩ := customOp_next h
  have hr := registersOnly_custom s.plat.hasC r
  rcases hs with ⟨-, rfl⟩ | ⟨target, v, -, hm⟩
  · exact effect_upd hr
  · refine ⟨s', _, .write _ _ hm, hr, rfl, .inl fun th => ?_⟩
    unfold Thread.customResult Thread.customPc
    split <;> rfl

theorem effect_halt {s t : State} (h : execHalt s = .next t) : Effect s t := by
  cases h
  exact effect_upd ⟨fun _ => rfl, .inr fun _ => rfl⟩

theorem effect_opb {e : Word} {s t : State} (h : execOpb e s = .next t) : Effect s t := by
  unfold execOpb at h
  split at h
  all_goals first
    | exact effect_registers h | exact effect_binary h | exact effect_branch h | exact effect_store h
    | exact effect_pushOut h | exact effect_popIo h | exact effect_customOp h | exact effect_halt h | skip
  unfold opbExtended at h
  split at h
  · split at h
    · exact effect_registers h
    · split at h
      · exact effect_registers h
      · exact effect_customOp h
  · exact effect_customOp h

/-- Every instruction, where it answers a next state, has such an effect. -/
theorem exec_effect {i : Instr} {s t : State} (h : exec i s = .next t) : Effect s t := by
  cases i
  case opb e => exact effect_opb h
  case halt => exact effect_halt h
  case swap x =>
    cases h
    exact effect_upd (registersOnly_of (fun _ => rfl) fun _ => rfl)
  case jump x => exact effect_branch (c := fun _ => true) (o := .imm x) h
  case jne x => exact effect_branch (c := fun acc => !accIsZero acc) (o := .imm x) h
  case opbJump => exact effect_branch (c := fun _ => true) (o := .regB) h
  case opbJne => exact effect_branch (c := fun acc => !accIsZero acc) (o := .regB) h
  all_goals first
    | exact effect_registers h | exact effect_binary h | exact effect_branch h | exact effect_store h
    | exact effect_pushOut h | exact effect_popIo h | exact effect_customOp h

/-- What a reach leaves alone: the other threads, the executing thread's registers, and all that no step changes. -/
theorem Reach.core {s s' : State} (h : Reach s s') :
    s'.plat = s.plat ∧ s'.cur = s.cur ∧ s'.agenda = s.agenda ∧ s'.draws = s.draws ∧ s'.waits = s.waits ∧
    s'.readout = s.readout ∧ s'.threads.length = s.threads.length ∧
    (∀ k, k ≠ s.cur → s'.threads[k]? = s.threads[k]?) ∧
    ∀ (k : Nat) (th : Thread), s.threads[k]? = some th → ∃ wb, s'.threads[k]? = some { th with wb := wb } := by
  cases h with
  | none => exact ⟨rfl, rfl, rfl, rfl, rfl, rfl, rfl, fun _ _ => rfl, fun _ th h => ⟨th.wb, h⟩⟩
  | port space port v r h =>
    obtain ⟨id, d, -, -, -, rfl⟩ := portAccess_cases h
    exact ⟨rfl, rfl, rfl, rfl, rfl, rfl, rfl, fun _ _ => rfl, fun _ th h => ⟨th.wb, h⟩⟩
  | write a v h =>
    obtain ⟨-, ⟨-, rfl⟩ | ⟨-, rfl⟩⟩ := memWrite_cases h
    all_goals
      refine ⟨rfl, rfl, rfl, rfl, rfl, rfl, by simp, fun k hk => by simp [Ne.symm hk], fun k th hk => ?_⟩
      by_cases hc : s.cur = k
      · exact ⟨_, by simp [hc, hk]; rfl⟩
      · exact ⟨th.wb, by simp [hc, hk]⟩

end Sys2Proof.Machine
end

