-- ==== Sys2Proof/Laws/PerInstr.lean ====
section
/-! SUPPORT. The family TableRow: the word of a well-formed instruction lies in its row of spec/opcode_table.json,
read in the canonical packing of rule R71. One lemma per constructor of Instr. -/

namespace Sys2Proof.Laws.TableRow

open Sys2Proof.Machine

/-- `match` and `mask` of an instruction's row of spec/opcode_table.json. -/
def row : Instr → Nat × Nat
  | .load _ => (0x0000000000, 0x1F00000000)
  | .swap _ => (0x0100000000, 0x1F00000000)
  | .bload _ => (0x0200000000, 0x1F00000000)
  | .bsload _ => (0x0300000000, 0x1F00000000)
  | .add _ => (0x0400000000, 0x1F00000000)
  | .and _ => (0x0500000000, 0x1F00000000)
  | .xor _ => (0x0600000000, 0x1F00000000)
  | .or _ => (0x0700000000, 0x1F00000000)
  | .push _ => (0x0800000000, 0x1F00000000)
  | .pop _ => (0x0900000000, 0x1F00000000)
  | .put _ => (0x0A00000000, 0x1F00000000)
  | .puts _ => (0x0B80000000, 0x1F80000000)
  | .putm _ => (0x0B00000000, 0x1F80000000)
  | .rsub _ => (0x0C00000000, 0x1F00000000)
  | .jeq _ => (0x0D00000000, 0x1F00000000)
  | .jne _ => (0x0E00000000, 0x1F00000000)
  | .jump _ => (0x0F00000000, 0x1F00000000)
  | .ugt _ => (0x1000000000, 0x1F00000000)
  | .ult _ => (0x1100000000, 0x1F00000000)
  | .igt _ => (0x1200000000, 0x1F00000000)
  | .ilt _ => (0x1300000000, 0x1F00000000)
  | .sub _ => (0x1400000000, 0x1F00000000)
  | .mul _ => (0x1500000000, 0x1F00000000)
  | .shr _ => (0x1600000000, 0x1F00000000)
  | .sar _ => (0x1700000000, 0x1F00000000)
  | .custom0 _ => (0x1800000000, 0x1F00000000)
  | .custom1 _ => (0x1900000000, 0x1F00000000)
  | .custom2 _ => (0x1A00000000, 0x1F00000000)
  | .custom3 _ => (0x1B00000000, 0x1F00000000)
  | .custom4 _ => (0x1C00000000, 0x1F00000000)
  | .custom5 _ => (0x1D00000000, 0x1F00000000)
  | .custom6 _ => (0x1E00000000, 0x1F00000000)
  | .opb _ => (0x1F00000000, 0x1F00000000)
  | .opbLoad => (0x1F00000000, 0x1FFFFFFFFF)
  | .opbShift => (0x1F00000001, 0x1FFFFFFFFF)
  | .opbBload => (0x1F00000002, 0x1FFFFFFFFF)
  | .opbBsload => (0x1F00000003, 0x1FFFFFFFFF)
  | .opbAdd => (0x1F00000004, 0x1FFFFFFFFF)
  | .opbAnd => (0x1F00000005, 0x1FFFFFFFFF)
  | .opbXor => (0x1F00000006, 0x1FFFFFFFFF)
  | .opbOr => (0x1F00000007, 0x1FFFFFFFFF)
  | .opbPush => (0x1F00000008, 0x1FFFFFFFFF)
  | .opbPop => (0x1F00000009, 0x1FFFFFFFFF)
  | .opbPut => (0x1F0000000A, 0x1FFFFFFFFF)
  | .opbPutm => (0x1F0000000B, 0x1FFFFFFFFF)
  | .opbRsub => (0x1F0000000C, 0x1FFFFFFFFF)
  | .opbJeq => (0x1F0000000D, 0x1FFFFFFFFF)
  | .opbJne => (0x1F0000000E, 0x1FFFFFFFFF)
  | .opbJump => (0x1F0000000F, 0x1FFFFFFFFF)
  | .opbUgt => (0x1F00000010, 0x1FFFFFFFFF)
  | .opbUlt => (0x1F00000011, 0x1FFFFFFFFF)
  | .opbIgt => (0x1F00000012, 0x1FFFFFFFFF)
  | .opbIlt => (0x1F00000013, 0x1FFFFFFFFF)
  | .opbSub => (0x1F00000014, 0x1FFFFFFFFF)
  | .opbMul => (0x1F00000015, 0x1FFFFFFFFF)
  | .opbShr => (0x1F00000016, 0x1FFFFFFFFF)
  | .opbSar => (0x1F00000017, 0x1FFFFFFFFF)
  | .opbCustom0 => (0x1F00000018, 0x1FFFFFFFFF)
  | .opbCustom1 => (0x1F00000019, 0x1FFFFFFFFF)
  | .opbCustom2 => (0x1F0000001A, 0x1FFFFFFFFF)
  | .opbCustom3 => (0x1F0000001B, 0x1FFFFFFFFF)
  | .opbCustom4 => (0x1F0000001C, 0x1FFFFFFFFF)
  | .opbCustom5 => (0x1F0000001D, 0x1FFFFFFFFF)
  | .opbCustom6 => (0x1F0000001E, 0x1FFFFFFFFF)
  | .halt => (0x1F0000001F, 0x1FFFFFFFFF)
  | .opbBloadx => (0x1F00000020, 0x1FFFFFFFF8)
  | .opbBsloadx => (0x1F00000020, 0x1FFFFFFFF8)

/-- The packed word of `i`, if `i` is well formed, has the row's fixed bits (rules R71, R78). -/
def Statement (i : Instr) : Prop :=
  i.wellFormed = true → (encode i).packed &&& (row i).2 = (row i).1

/-- The fixed bits of a row whose mask is the opcode field alone. -/
theorem packed_and_opcode (op : BitVec 5) (x : Word) :
    (CodeWord.mk op x).packed &&& 0x1F00000000 = op.toNat * 2 ^ 32 := by
  have hx := x.isLt
  have ho := op.isLt
  have h : (0x1F00000000 : Nat) = 0x1F <<< 32 := rfl
  apply Nat.eq_of_testBit_eq
  intro j
  simp only [CodeWord.packed, Nat.mul_comm op.toNat, Nat.testBit_and, Nat.testBit_two_pow_mul_add _ hx, h,
    Nat.testBit_shiftLeft, Nat.testBit_two_pow_mul]
  by_cases hj : j < 32
  · simp [hj, Nat.not_le.2 hj]
  · have hle : 32 ≤ j := by omega
    simp only [hj, hle, if_false, decide_true, Bool.true_and]
    have hm : (0x1F : Nat) = 2 ^ 5 - 1 := rfl
    rw [hm, Nat.testBit_two_pow_sub_one]
    by_cases h5 : j - 32 < 5
    · simp [h5]
    · have : op.toNat < 2 ^ (j - 32) := lt_of_lt_of_le ho (Nat.pow_le_pow_right (by norm_num) (by omega))
      simp [Nat.testBit_lt_two_pow this]

/-- The same with bit 31 of the operand also fixed (rules R73, R77). -/
theorem packed_and_flag (op : BitVec 5) (x : Word) :
    (CodeWord.mk op x).packed &&& 0x1F80000000 = op.toNat * 2 ^ 32 + if x.msb then 2 ^ 31 else 0 := by
  have hx := x.isLt
  have h : (0x1F80000000 : Nat) = 0x1F00000000 ||| 0x80000000 := rfl
  have hlow : (CodeWord.mk op x).packed &&& 0x80000000 = if x.msb then 2 ^ 31 else 0 := by
    apply Nat.eq_of_testBit_eq
    intro j
    have hb : (0x80000000 : Nat) = 2 ^ 31 := rfl
    simp only [CodeWord.packed, Nat.mul_comm op.toNat, Nat.testBit_and, Nat.testBit_two_pow_mul_add _ hx, hb,
      Nat.testBit_two_pow]
    have hif : (if x.msb = true then 2 ^ 31 else 0 : Nat).testBit j = (x.msb && decide (31 = j)) := by
      cases x.msb
      · simp
      · rw [if_pos rfl, Nat.testBit_two_pow, Bool.true_and]
    rw [hif]
    by_cases hj : 31 = j
    · subst hj
      have : x.toNat.testBit 31 = x.msb := by rw [BitVec.msb_eq_getLsbD_last]; rfl
      simp [this]
    · simp [hj]
  have hdisj : op.toNat * 2 ^ 32 &&& (if x.msb then 2 ^ 31 else 0) = 0 := by
    apply Nat.eq_of_testBit_eq
    intro j
    simp only [Nat.testBit_and, Nat.mul_comm op.toNat, Nat.testBit_two_pow_mul, Nat.zero_testBit]
    cases hmsb : x.msb
    · simp
    · simp only [if_true, Nat.testBit_two_pow]
      by_cases hj : 31 = j
      · subst hj; simp
      · simp [hj]
  rw [h, Nat.and_or_distrib_left, packed_and_opcode, hlow]
  cases hmsb : x.msb
  · simp
  · rw [if_pos rfl, Nat.mul_comm]
    exact (Nat.two_pow_add_eq_or_of_lt (by norm_num) _).symm

/-- The rows of the two OPB-type opcodes fix all but the low three bits (rule R76). -/
theorem packed_opx {e : Nat} (h : 0x20 ≤ e ∧ e ≤ 0x27) :
    (CodeWord.mk 31 (BitVec.ofNat 32 e)).packed &&& 0x1FFFFFFFF8 = 0x1F00000020 := by
  obtain ⟨h1, h2⟩ := h
  interval_cases e <;> decide

theorem load (x : Word) : Statement (.load x) := fun _ => packed_and_opcode _ _

theorem swap (x : Word) : Statement (.swap x) := fun _ => packed_and_opcode _ _

theorem bload (x : Word) : Statement (.bload x) := fun _ => packed_and_opcode _ _

theorem bsload (x : Word) : Statement (.bsload x) := fun _ => packed_and_opcode _ _

theorem add (x : Word) : Statement (.add x) := fun _ => packed_and_opcode _ _

theorem and (x : Word) : Statement (.and x) := fun _ => packed_and_opcode _ _

theorem xor (x : Word) : Statement (.xor x) := fun _ => packed_and_opcode _ _

theorem or (x : Word) : Statement (.or x) := fun _ => packed_and_opcode _ _

theorem push (x : Word) : Statement (.push x) := fun _ => packed_and_opcode _ _

theorem pop (x : Word) : Statement (.pop x) := fun _ => packed_and_opcode _ _

theorem put (x : Word) : Statement (.put x) := fun _ => packed_and_opcode _ _

theorem puts (x : Word) : Statement (.puts x) := fun h => by
  have h : x.msb = true := by simpa [Instr.wellFormed] using h
  exact (packed_and_flag _ _).trans (by rw [h]; rfl)

theorem putm (x : Word) : Statement (.putm x) := fun h => by
  have h : x.msb = false := by simpa [Instr.wellFormed] using h
  exact (packed_and_flag _ _).trans (by rw [h]; rfl)

theorem rsub (x : Word) : Statement (.rsub x) := fun _ => packed_and_opcode _ _

theorem jeq (x : Word) : Statement (.jeq x) := fun _ => packed_and_opcode _ _

theorem jne (x : Word) : Statement (.jne x) := fun _ => packed_and_opcode _ _

theorem jump (x : Word) : Statement (.jump x) := fun _ => packed_and_opcode _ _

theorem ugt (x : Word) : Statement (.ugt x) := fun _ => packed_and_opcode _ _

theorem ult (x : Word) : Statement (.ult x) := fun _ => packed_and_opcode _ _

theorem igt (x : Word) : Statement (.igt x) := fun _ => packed_and_opcode _ _

theorem ilt (x : Word) : Statement (.ilt x) := fun _ => packed_and_opcode _ _

theorem sub (x : Word) : Statement (.sub x) := fun _ => packed_and_opcode _ _

theorem mul (x : Word) : Statement (.mul x) := fun _ => packed_and_opcode _ _

theorem shr (x : Word) : Statement (.shr x) := fun _ => packed_and_opcode _ _

theorem sar (x : Word) : Statement (.sar x) := fun _ => packed_and_opcode _ _

theorem custom0 (x : Word) : Statement (.custom0 x) := fun _ => packed_and_opcode _ _

theorem custom1 (x : Word) : Statement (.custom1 x) := fun _ => packed_and_opcode _ _

theorem custom2 (x : Word) : Statement (.custom2 x) := fun _ => packed_and_opcode _ _

theorem custom3 (x : Word) : Statement (.custom3 x) := fun _ => packed_and_opcode _ _

theorem custom4 (x : Word) : Statement (.custom4 x) := fun _ => packed_and_opcode _ _

theorem custom5 (x : Word) : Statement (.custom5 x) := fun _ => packed_and_opcode _ _

theorem custom6 (x : Word) : Statement (.custom6 x) := fun _ => packed_and_opcode _ _

theorem opb (e : Word) : Statement (.opb e) := fun _ => packed_and_opcode _ _

theorem opbLoad : Statement .opbLoad := fun _ => by decide

theorem opbShift : Statement .opbShift := fun _ => by decide

theorem opbBload : Statement .opbBload := fun _ => by decide

theorem opbBsload : Statement .opbBsload := fun _ => by decide

theorem opbAdd : Statement .opbAdd := fun _ => by decide

theorem opbAnd : Statement .opbAnd := fun _ => by decide

theorem opbXor : Statement .opbXor := fun _ => by decide

theorem opbOr : Statement .opbOr := fun _ => by decide

theorem opbPush : Statement .opbPush := fun _ => by decide

theorem opbPop : Statement .opbPop := fun _ => by decide

theorem opbPut : Statement .opbPut := fun _ => by decide

theorem opbPutm : Statement .opbPutm := fun _ => by decide

theorem opbRsub : Statement .opbRsub := fun _ => by decide

theorem opbJeq : Statement .opbJeq := fun _ => by decide

theorem opbJne : Statement .opbJne := fun _ => by decide

theorem opbJump : Statement .opbJump := fun _ => by decide

theorem opbUgt : Statement .opbUgt := fun _ => by decide

theorem opbUlt : Statement .opbUlt := fun _ => by decide

theorem opbIgt : Statement .opbIgt := fun _ => by decide

theorem opbIlt : Statement .opbIlt := fun _ => by decide

theorem opbSub : Statement .opbSub := fun _ => by decide

theorem opbMul : Statement .opbMul := fun _ => by decide

theorem opbShr : Statement .opbShr := fun _ => by decide

theorem opbSar : Statement .opbSar := fun _ => by decide

theorem opbCustom0 : Statement .opbCustom0 := fun _ => by decide

theorem opbCustom1 : Statement .opbCustom1 := fun _ => by decide

theorem opbCustom2 : Statement .opbCustom2 := fun _ => by decide

theorem opbCustom3 : Statement .opbCustom3 := fun _ => by decide

theorem opbCustom4 : Statement .opbCustom4 := fun _ => by decide

theorem opbCustom5 : Statement .opbCustom5 := fun _ => by decide

theorem opbCustom6 : Statement .opbCustom6 := fun _ => by decide

theorem halt : Statement .halt := fun _ => by decide

theorem opbBloadx : Statement .opbBloadx := fun _ => packed_opx ⟨opxBloadx_bounds.1, by have := opxBloadx_bounds; have := opxBsloadx_upper; omega⟩

theorem opbBsloadx : Statement .opbBsloadx := fun _ => packed_opx ⟨by have := opxBloadx_bounds; omega, opxBsloadx_upper⟩

end Sys2Proof.Laws.TableRow
end

