-- ==== Sys2Proof/Laws/Schedule.lean ====
section
/-! SUPPORT. What the schedule does, said once: which turns are enabled, and that a turn that waits is passed over a
bounded number of times (rule R54, D26). -/

namespace Sys2Proof.Machine

/-! The turns the threads enable (rules R31, R54, R102). -/

theorem mem_turns {th : Thread} {t : Nat} {c : Choice} : c ∈ th.turns t ↔
    (c = .run t ∧ th.halted = false) ∨ ∃ p ∈ th.wb, p.fresh = false ∧ c = .drain t p.addr := by
  have hd : c ∈ (th.wb.filter fun p => !p.fresh).map (fun p => Choice.drain t p.addr) ↔
      ∃ p ∈ th.wb, p.fresh = false ∧ c = .drain t p.addr := by
    simp only [List.mem_map, List.mem_filter, Bool.not_eq_true']
    constructor
    · rintro ⟨p, ⟨hp, hf⟩, rfl⟩; exact ⟨p, hp, hf, rfl⟩
    · rintro ⟨p, hp, hf, rfl⟩; exact ⟨p, ⟨hp, hf⟩, rfl⟩
  unfold Thread.turns
  rw [List.mem_append, hd]
  cases th.halted <;> simp

theorem mem_turnsFrom {l : List Thread} {n : Nat} {c : Choice} :
    c ∈ turnsFrom n l ↔ ∃ (i : Nat) (th : Thread), l[i]? = some th ∧ c ∈ th.turns (n + i) := by
  induction l generalizing n with
  | nil => simp [turnsFrom]
  | cons a l ih =>
    rw [turnsFrom, List.mem_append, ih]
    constructor
    · rintro (h | ⟨i, th, h, hc⟩)
      · exact ⟨0, a, rfl, h⟩
      · exact ⟨i + 1, th, h, by rwa [show n + (i + 1) = n + 1 + i by omega]⟩
    · rintro ⟨i, th, h, hc⟩
      cases i with
      | zero => cases h; exact .inl hc
      | succ i => exact .inr ⟨i, th, h, by rwa [show n + 1 + i = n + (i + 1) by omega]⟩

theorem run_mem_enabledTurns {s : State} {t : Nat} :
    Choice.run t ∈ s.enabledTurns ↔ ∃ th, s.threads[t]? = some th ∧ th.halted = false := by
  unfold State.enabledTurns
  rw [mem_turnsFrom]
  constructor
  · rintro ⟨i, th, h, hc⟩
    rcases mem_turns.1 hc with ⟨hc, hh⟩ | ⟨p, -, -, hc⟩
    · cases hc; rw [Nat.zero_add]; exact ⟨th, h, hh⟩
    · cases hc
  · rintro ⟨th, h, hh⟩
    exact ⟨t, th, h, mem_turns.2 (.inl ⟨by rw [Nat.zero_add], hh⟩)⟩

theorem drain_mem_enabledTurns {s : State} {t a : Nat} : Choice.drain t a ∈ s.enabledTurns ↔
    ∃ th, s.threads[t]? = some th ∧ ∃ p ∈ th.wb, p.fresh = false ∧ p.addr = a := by
  unfold State.enabledTurns
  rw [mem_turnsFrom]
  constructor
  · rintro ⟨i, th, h, hc⟩
    rcases mem_turns.1 hc with ⟨hc, -⟩ | ⟨p, hp, hf, hc⟩
    · cases hc
    · cases hc; rw [Nat.zero_add]; exact ⟨th, h, p, hp, hf, rfl⟩
  · rintro ⟨th, h, p, hp, hf, rfl⟩
    exact ⟨t, th, h, mem_turns.2 (.inr ⟨p, hp, hf, by rw [Nat.zero_add]⟩)⟩

theorem merge_not_mem_enabledTurns {s : State} {ts : List Nat} : Choice.merge ts ∉ s.enabledTurns := by
  unfold State.enabledTurns
  rw [mem_turnsFrom]
  rintro ⟨i, th, -, hc⟩
  rcases mem_turns.1 hc with ⟨hc, -⟩ | ⟨p, -, -, hc⟩ <;> cases hc

/-- A turn that a thread enables serves itself. -/
theorem self_mem_serves {s : State} {c : Choice} (h : c ∈ s.enabledTurns) : c ∈ serves c := by
  cases c with
  | run t => exact List.mem_singleton_self _
  | drain t a => exact List.mem_singleton_self _
  | merge ts => exact absurd h merge_not_mem_enabledTurns

/-- Where one agent alone can act, its turn is the only one enabled. -/
theorem enabledTurns_of_onlyOneCanAct {s : State} {t : Nat} {th : Thread} (h : OnlyOneCanAct s t th) :
    s.enabledTurns = [.run t] := by
  have key : ∀ (l : List Thread) (n j : Nat), l[j]? = some th →
      (∀ (k : Nat) (th' : Thread), l[k]? = some th' → k ≠ j → th'.halted = true) →
      (∀ th' ∈ l, ∀ p ∈ th'.wb, p.fresh = true) → turnsFrom n l = [.run (n + j)] := by
    have none : ∀ (l : List Thread) (n : Nat), (∀ th' ∈ l, th'.halted = true) →
        (∀ th' ∈ l, ∀ p ∈ th'.wb, p.fresh = true) → turnsFrom n l = [] := by
      intro l n h1 h2
      apply List.eq_nil_iff_forall_not_mem.2
      intro c hc
      obtain ⟨i, th', hi, hc⟩ := mem_turnsFrom.1 hc
      have hm := List.mem_of_getElem? hi
      rcases mem_turns.1 hc with ⟨-, hh⟩ | ⟨p, hp, hf, -⟩
      · rw [h1 _ hm] at hh; cases hh
      · rw [h2 _ hm p hp] at hf; cases hf
    intro l
    induction l with
    | nil => intro n j h; simp at h
    | cons a l ih =>
      intro n j hj h1 h2
      have hw : a.wb.filter (fun p => !p.fresh) = [] := by
        apply List.filter_eq_nil_iff.2
        intro p hp
        simp [h2 a List.mem_cons_self p hp]
      cases j with
      | zero =>
        cases hj
        rw [turnsFrom, Thread.turns, hw, h.live, none l (n + 1) (fun th' hm => by
          obtain ⟨k, hk⟩ := List.getElem?_of_mem hm
          exact h1 (k + 1) th' hk (by omega)) fun th' hm => h2 th' (List.mem_cons_of_mem _ hm)]
        rfl
      | succ j =>
        have ha : a.halted = true := h1 0 a rfl (by omega)
        rw [turnsFrom, Thread.turns, hw, ha, ih (n + 1) j hj
          (fun k th' hk hne => h1 (k + 1) th' hk (by omega)) fun th' hm => h2 th' (List.mem_cons_of_mem _ hm)]
        simp [show n + 1 + j = n + (j + 1) by omega]
  have := key s.threads 0 t h.thread h.others h.fresh
  rwa [Nat.zero_add] at this

/-- Where one agent alone can act, the step is its turn (rules R31, R220). -/
theorem step_of_onlyOneCanAct {s : State} {t : Nat} {th : Thread} (h : OnlyOneCanAct s t th) :
    step s = { s with waits := [] }.turn (.run t) := by
  simp [step, State.nextChoice, h.agenda, enabledTurns_of_onlyOneCanAct h]

/-! Waiting (rule R54, D26). -/

/-- `c` waits in `ws`, and the turns before it and those it can still be passed over are at most `k`. -/
def WaitsWithin (ws : List Wait) (c : Choice) (k : Nat) : Prop :=
  ∃ pre n post, ws = pre ++ ⟨c, n⟩ :: post ∧ pre.length + n ≤ k

/-- The turn taken serves `c`: it is `c`, or a merged access of which `c` is a participant's turn. -/
def Served (s : State) (c : Choice) : Prop :=
  s.nextChoice.1 = c ∨ ∃ ts, s.nextChoice.1 = .merge ts ∧ (s.mergedAccess ts).isSome = true ∧ c ∈ serves (.merge ts)

theorem beginWaiting_turns (d : Nat) (cs : List Choice) : (beginWaiting d cs).map Wait.turn = cs := by
  induction cs generalizing d with
  | nil => rfl
  | cons c cs ih => simp [beginWaiting, ih]

theorem mem_survey {s : State} {w : Wait} (h : w ∈ s.survey) : w.turn ∈ s.enabledTurns := by
  rcases List.mem_append.1 h with h | h
  · simpa using (List.mem_filter.1 h).2
  · have := List.mem_map_of_mem (f := Wait.turn) h
    rw [beginWaiting_turns] at this
    exact (List.mem_filter.1 this).1

/-- Every enabled turn waits. -/
theorem exists_mem_survey {s : State} {c : Choice} (h : c ∈ s.enabledTurns) : ∃ w ∈ s.survey, w.turn = c := by
  unfold State.survey
  by_cases hw : waiting (s.waits.filter fun w => s.enabledTurns.contains w.turn) c = true
  · obtain ⟨w, hm, he⟩ := List.any_eq_true.1 hw
    exact ⟨w, List.mem_append_left _ hm, by simpa using he⟩
  · have : c ∈ (beginWaiting s.draws (s.enabledTurns.filter fun c =>
        !waiting (s.waits.filter fun w => s.enabledTurns.contains w.turn) c)).map Wait.turn := by
      rw [beginWaiting_turns]
      exact List.mem_filter.2 ⟨h, by simpa using hw⟩
    obtain ⟨w, hm, he⟩ := List.mem_map.1 this
    exact ⟨w, List.mem_append_right _ hm, he⟩

theorem waitsWithin_survey {s : State} {c : Choice} {k : Nat} (h : c ∈ s.enabledTurns)
    (hw : WaitsWithin s.waits c k) : WaitsWithin s.survey c k := by
  obtain ⟨pre, n, post, he, hk⟩ := hw
  have hc : s.enabledTurns.contains c = true := by simpa using h
  let kept := s.waits.filter fun w => s.enabledTurns.contains w.turn
  refine ⟨pre.filter fun w => s.enabledTurns.contains w.turn, n,
    (post.filter fun w => s.enabledTurns.contains w.turn) ++
      beginWaiting s.draws (s.enabledTurns.filter fun c => !waiting kept c), ?_, ?_⟩
  · have hk' : kept = (pre.filter fun w => s.enabledTurns.contains w.turn) ++
        ⟨c, n⟩ :: post.filter fun w => s.enabledTurns.contains w.turn := by
      simp only [kept, he, List.filter_append, List.filter_cons, hc, if_true]
    show kept ++ beginWaiting s.draws (s.enabledTurns.filter fun c => !waiting kept c) = _
    generalize beginWaiting s.draws (s.enabledTurns.filter fun c => !waiting kept c) = new
    rw [hk', List.append_assoc, List.cons_append]
  · have := List.length_filter_le (fun w : Wait => s.enabledTurns.contains w.turn) pre
    omega

/-- Passing over a turn that waits takes one off what it can still be passed over, or one from before it. -/
theorem waitsWithin_passedOver {ws : List Wait} {c d : Choice} {k : Nat} (hd : c ∉ serves d)
    (h : ∃ pre n post, ws = pre ++ ⟨c, n⟩ :: post ∧ pre.length + n ≤ k + 1 ∧
      (0 < n ∨ ∃ w ∈ pre, w.turn ∈ serves d)) : WaitsWithin (passedOver ws d) c k := by
  obtain ⟨pre, n, post, rfl, hk, hor⟩ := h
  have hc : (serves d).contains c = false := by simpa using hd
  refine ⟨_, n - 1, _, by
    unfold passedOver
    simp only [List.filter_append, List.filter_cons, hc, Bool.not_false, if_true, List.map_append, List.map_cons]
    rfl, ?_⟩
  rw [List.length_map]
  have hle := List.length_filter_le (fun w : Wait => !(serves d).contains w.turn) pre
  rcases hor with hn | ⟨w, hm, hs⟩
  · omega
  · have : (pre.filter fun w => !(serves d).contains w.turn).length < pre.length := by
      apply List.length_filter_lt_length_iff_exists.2
      exact ⟨w, hm, by simpa using hs⟩
    omega

/-- What the turn that is taken out of those waiting is: the first that is due, or, if none is due, a turn that is
enabled (rules R54, R186, R220). -/
theorem choose_cases {s : State} {ws : List Wait} {first : Choice} (hf : first ∈ s.enabledTurns)
    (hw : ∀ w ∈ ws, w.turn ∈ s.enabledTurns) :
    (∃ pre w post, ws = pre ++ w :: post ∧ w.left = 0 ∧ (∀ v ∈ pre, v.left ≠ 0) ∧ s.choose ws first = w.turn) ∨
    (∀ w ∈ ws, w.left ≠ 0) ∧ (s.choose ws first ∈ s.enabledTurns ∨
      ∃ ts, s.choose ws first = .merge ts ∧ (s.mergedAccess ts).isSome = true) := by
  unfold State.choose
  split
  · rename_i w hfind
    obtain ⟨h0, pre, post, rfl, hpre⟩ := List.find?_eq_some_iff_append.1 hfind
    exact .inl ⟨pre, w, post, rfl, by simpa using h0, fun v hv => by simpa using hpre v hv, rfl⟩
  · rename_i hfind
    refine .inr ⟨fun w hm => by simpa using List.find?_eq_none.1 hfind w hm, ?_⟩
    split
    · rename_i he
      cases hc : Config.schedule s.draws with
      | run t => rw [hc] at he; exact .inl (by simpa [State.enables] using he)
      | drain t a => rw [hc] at he; exact .inl (by simpa [State.enables] using he)
      | merge ts => rw [hc] at he; exact .inr ⟨ts, rfl, he⟩
    · exact .inl hf

/-- An enabled turn, where the agenda is empty, is served by the next turn or waits; and one that waits within
`k + 1` is served or waits within `k`; one that waits within 0 is served (rule R54, D26). -/
theorem wait_progress {s : State} {c : Choice} (ha : s.agenda = []) (h : c ∈ s.enabledTurns) :
    Served s c ∨
    (∃ k, WaitsWithin s.nextChoice.2.waits c k) ∧
    ∀ k, WaitsWithin s.waits c k → ∃ j, k = j + 1 ∧ WaitsWithin s.nextChoice.2.waits c j := by
  unfold Served State.nextChoice
  rw [ha]
  simp only
  split
  · rename_i he; rw [he] at h; cases h
  · rename_i d he
    rw [he] at h
    exact .inl (.inl (List.mem_singleton.1 h).symm)
  · rename_i first rest hne he
    have hf : first ∈ s.enabledTurns := by rw [he]; exact List.mem_cons_self
    have hch := choose_cases (ws := s.survey) hf fun w hm => mem_survey hm
    generalize hd : s.choose s.survey first = d at hch
    by_cases hserved : c ∈ serves d
    · left
      rcases hch with ⟨pre, w, post, hsv, -, -, hw⟩ | ⟨-, hm | ⟨ts, hts, hsome⟩⟩
      · left
        have : d ∈ s.enabledTurns := by rw [hw]; exact mem_survey (by rw [hsv]; simp)
        cases d with
        | run t => exact (List.mem_singleton.1 hserved).symm
        | drain t a => exact (List.mem_singleton.1 hserved).symm
        | merge ts => exact absurd this merge_not_mem_enabledTurns
      · left
        cases d with
        | run t => exact (List.mem_singleton.1 hserved).symm
        | drain t a => exact (List.mem_singleton.1 hserved).symm
        | merge ts => exact absurd hm merge_not_mem_enabledTurns
      · exact .inr ⟨ts, hts, hsome, hts ▸ hserved⟩
    · right
      have hstep : ∀ k, WaitsWithin s.survey c k → ∃ j, k = j + 1 ∧ WaitsWithin (passedOver s.survey d) c j := by
        rintro k ⟨pre, n, post, hsv, hk⟩
        have hor : 0 < n ∨ ∃ w ∈ pre, w.turn ∈ serves d := by
          rcases Nat.eq_zero_or_pos n with rfl | hn
          · right
            rcases hch with ⟨pre', w, post', hsv', h0, hpre', hw⟩ | ⟨hall, -⟩
            · rw [hsv] at hsv'
              rcases List.append_eq_append_iff.1 hsv' with ⟨as, hp, hq⟩ | ⟨as, hp, hq⟩
              · cases as with
                | nil =>
                  simp only [List.nil_append, List.cons.injEq] at hq
                  exfalso
                  apply hserved
                  have : d = c := by rw [hw, ← hq.1]
                  rw [this]; exact self_mem_serves h
                | cons v as =>
                  simp only [List.cons_append, List.cons.injEq] at hq
                  exact absurd (by rw [← hq.1]) (hpre' v (by rw [hp]; simp))
              · cases as with
                | nil =>
                  simp only [List.nil_append, List.cons.injEq] at hq
                  exfalso
                  apply hserved
                  have : d = c := by rw [hw, hq.1]
                  rw [this]; exact self_mem_serves h
                | cons v as =>
                  simp only [List.cons_append, List.cons.injEq] at hq
                  refine ⟨w, by rw [hp, hq.1]; simp, ?_⟩
                  rw [hw]
                  exact self_mem_serves (mem_survey (by rw [hsv, hp, hq.1]; simp))
            · exact absurd rfl (hall ⟨c, 0⟩ (by rw [hsv]; simp))
          · exact .inl hn
        have hpos : 1 ≤ k := by
          rcases hor with hn | ⟨w, hm, -⟩
          · omega
          · have := List.length_pos_of_mem hm; omega
        obtain ⟨j, rfl⟩ : ∃ j, k = j + 1 := ⟨k - 1, by omega⟩
        exact ⟨j, rfl, waitsWithin_passedOver hserved ⟨pre, n, post, hsv, hk, hor⟩⟩
      refine ⟨?_, fun k hk => hstep k (waitsWithin_survey h hk)⟩
      obtain ⟨w, hm, rfl⟩ := exists_mem_survey h
      obtain ⟨pre, post, hsv⟩ := List.append_of_mem hm
      obtain ⟨j, -, hj⟩ := hstep _ ⟨pre, w.left, post, hsv, Nat.le_refl _⟩
      exact ⟨j, hj⟩

end Sys2Proof.Machine
end

