-- ==== Sys2Proof/Tests/Slice0.lean ====
section
/-! SUPPORT. Tests. Expected values come from spec/95_test_vectors.md (the table or program is named), or were worked
out by hand from the rule named. The last part shows, for every statement with hypotheses, data that meet them. -/

namespace Sys2Proof.Tests

open Sys2Proof Sys2Proof.Machine

/-! WellFormed: an ill-formed term for each check. -/

theorem test_wellFormed_refuses_puts_without_flag : (Instr.puts 3).wellFormed = false := by decide

theorem test_wellFormed_refuses_putm_with_flag : (Instr.putm 0x80000003).wellFormed = false := by decide

theorem test_wellFormed_refuses_opb_of_a_basic_number : (Instr.opb 0x1F).wellFormed = false := by
  simp [Instr.wellFormed]

theorem test_wellFormed_refuses_opb_of_bloadx :
    (Instr.opb (BitVec.ofNat 32 Config.opxBloadx)).wellFormed = false := by
  have h := opxBloadx_bounds
  have h' := opxBsloadx_upper
  simp [Instr.wellFormed, Nat.mod_eq_of_lt (show Config.opxBloadx < 4294967296 by omega)]

theorem test_wellFormed_refuses_opb_of_bsloadx :
    (Instr.opb (BitVec.ofNat 32 Config.opxBsloadx)).wellFormed = false := by
  have h' := opxBsloadx_upper
  simp [Instr.wellFormed, Nat.mod_eq_of_lt (show Config.opxBsloadx < 4294967296 by omega)]

theorem test_wellFormed_admits_reserved_opb : (Instr.opb 0x104).wellFormed = true := by
  have h := opxBloadx_bounds
  have h' := opxBsloadx_upper
  have h1 : 0x104 ≠ Config.opxBloadx := by omega
  have h2 : 0x104 ≠ Config.opxBsloadx := by omega
  simp [Instr.wellFormed, h1, h2]

/-! Decoding: a word of every row, written out from the opcode map of 30_encoding.md (rules R73, R75) in the packing
of rule R71. -/

theorem test_decode_loads :
    decodeTableWord 40 0x0012345678 = some (.load 0x12345678) ∧
    decodeTableWord 40 0x0100000009 = some (.swap 9) ∧
    decodeTableWord 40 0x0200000003 = some (.bload 3) ∧
    decodeTableWord 40 0x0300000040 = some (.bsload 0x40) := by decide

theorem test_decode_binary :
    decodeTableWord 40 0x0400000007 = some (.add 7) ∧
    decodeTableWord 40 0x050FF00FF0 = some (.and 0x0FF00FF0) ∧
    decodeTableWord 40 0x06FFFFFFFF = some (.xor 0xFFFFFFFF) ∧
    decodeTableWord 40 0x070000FFFF = some (.or 0x0000FFFF) ∧
    decodeTableWord 40 0x0C00000007 = some (.rsub 7) ∧
    decodeTableWord 40 0x1400000007 = some (.sub 7) ∧
    decodeTableWord 40 0x1500000008 = some (.mul 8) ∧
    decodeTableWord 40 0x1600000010 = some (.shr 0x10) ∧
    decodeTableWord 40 0x1780000000 = some (.sar 0x80000000) := by decide

theorem test_decode_ports_and_stores :
    decodeTableWord 40 0x08000000FF = some (.push 0xFF) ∧
    decodeTableWord 40 0x0900000004 = some (.pop 4) ∧
    decodeTableWord 40 0x0A80000002 = some (.put 0x80000002) ∧
    decodeTableWord 40 0x0B80000003 = some (.puts 0x80000003) ∧
    decodeTableWord 40 0x0B00000003 = some (.putm 3) := by decide

theorem test_decode_jumps_and_comparisons :
    decodeTableWord 40 0x0D00000008 = some (.jeq 8) ∧
    decodeTableWord 40 0x0E00000001 = some (.jne 1) ∧
    decodeTableWord 40 0x0F80000001 = some (.jump 0x80000001) ∧
    decodeTableWord 40 0x107FFFFFFF = some (.ugt 0x7FFFFFFF) ∧
    decodeTableWord 40 0x1100000001 = some (.ult 1) ∧
    decodeTableWord 40 0x1280000000 = some (.igt 0x80000000) ∧
    decodeTableWord 40 0x1300000005 = some (.ilt 5) := by decide

theorem test_decode_custom :
    decodeTableWord 40 0x1800000000 = some (.custom0 0) ∧
    decodeTableWord 40 0x1900000001 = some (.custom1 1) ∧
    decodeTableWord 40 0x1A00000002 = some (.custom2 2) ∧
    decodeTableWord 40 0x1B00000003 = some (.custom3 3) ∧
    decodeTableWord 40 0x1C00000004 = some (.custom4 4) ∧
    decodeTableWord 40 0x1D00000005 = some (.custom5 5) ∧
    decodeTableWord 40 0x1E12345678 = some (.custom6 0x12345678) := by decide

theorem test_decode_opb_low :
    decodeTableWord 40 0x1F00000000 = some .opbLoad ∧ decodeTableWord 40 0x1F00000001 = some .opbShift ∧
    decodeTableWord 40 0x1F00000002 = some .opbBload ∧ decodeTableWord 40 0x1F00000003 = some .opbBsload ∧
    decodeTableWord 40 0x1F00000004 = some .opbAdd ∧ decodeTableWord 40 0x1F00000005 = some .opbAnd ∧
    decodeTableWord 40 0x1F00000006 = some .opbXor ∧ decodeTableWord 40 0x1F00000007 = some .opbOr ∧
    decodeTableWord 40 0x1F00000008 = some .opbPush ∧ decodeTableWord 40 0x1F00000009 = some .opbPop ∧
    decodeTableWord 40 0x1F0000000A = some .opbPut ∧ decodeTableWord 40 0x1F0000000B = some .opbPutm ∧
    decodeTableWord 40 0x1F0000000C = some .opbRsub ∧ decodeTableWord 40 0x1F0000000D = some .opbJeq ∧
    decodeTableWord 40 0x1F0000000E = some .opbJne ∧ decodeTableWord 40 0x1F0000000F = some .opbJump := by decide

theorem test_decode_opb_high :
    decodeTableWord 40 0x1F00000010 = some .opbUgt ∧ decodeTableWord 40 0x1F00000011 = some .opbUlt ∧
    decodeTableWord 40 0x1F00000012 = some .opbIgt ∧ decodeTableWord 40 0x1F00000013 = some .opbIlt ∧
    decodeTableWord 40 0x1F00000014 = some .opbSub ∧ decodeTableWord 40 0x1F00000015 = some .opbMul ∧
    decodeTableWord 40 0x1F00000016 = some .opbShr ∧ decodeTableWord 40 0x1F00000017 = some .opbSar ∧
    decodeTableWord 40 0x1F00000018 = some .opbCustom0 ∧ decodeTableWord 40 0x1F00000019 = some .opbCustom1 ∧
    decodeTableWord 40 0x1F0000001A = some .opbCustom2 ∧ decodeTableWord 40 0x1F0000001B = some .opbCustom3 ∧
    decodeTableWord 40 0x1F0000001C = some .opbCustom4 ∧ decodeTableWord 40 0x1F0000001D = some .opbCustom5 ∧
    decodeTableWord 40 0x1F0000001E = some .opbCustom6 ∧ decodeTableWord 40 0x1F0000001F = some .halt := by decide

theorem test_decode_opb_reserved :
    decodeTableWord 40 0x1F00000104 = some (.opb 0x104) ∧ decodeTableWord 40 0x1F00000028 = some (.opb 0x28) ∧
    decodeTableWord 40 0x1F80000004 = some (.opb 0x80000004) := by decide

theorem decode_opx {e : Word} (h : 0x20 ≤ e.toNat) : decode ⟨0x1F, e⟩ = decodeOpbExtended e := by
  show decodeOpb e = _
  unfold decodeOpb
  split <;> first | omega | rfl

theorem test_decode_opb_bloadx : decode ⟨0x1F, BitVec.ofNat 32 Config.opxBloadx⟩ = .opbBloadx := by
  have h := opxBloadx_bounds
  have h' := opxBsloadx_upper
  have hm : (BitVec.ofNat 32 Config.opxBloadx).toNat = Config.opxBloadx := by simp; omega
  rw [decode_opx (by omega), decodeOpbExtended, if_pos (by omega), if_pos hm]

theorem test_decode_opb_bsloadx : decode ⟨0x1F, BitVec.ofNat 32 Config.opxBsloadx⟩ = .opbBsloadx := by
  have h := opxBloadx_bounds
  have h' := opxBsloadx_upper
  have hm : (BitVec.ofNat 32 Config.opxBsloadx).toNat = Config.opxBsloadx := by simp; omega
  rw [decode_opx (by omega), decodeOpbExtended, if_pos (by omega), if_neg (by omega), if_pos hm]

theorem test_decode_rejects_a_wider_number :
    (decodePacked (2 ^ 37)).toOption = none ∧ (decodePacked (2 ^ 37 - 1)).toOption ≠ none := by decide

/-! A small machine: CODE_SIZE = 16, FIFOs of depth 2 on the ports 0 of both spaces, a device the spec does not
describe on the ports 1, and one custom code with a meaning. -/

/-- custom0 with operand 7 at acc = 5: acc <- 0x12, c <- 9, a store of 3 to cell 2, pc <- 10. -/
def customRow : CustomKey × CustomResult :=
  (⟨.plain, 0x18, 5, 7, some 0⟩, ⟨some 0x12, none, some 9, some (2, 3), .jump 10⟩)

/-- OPB 0x104 at acc = 5, b = 7: b <- acc; the pc stays. -/
def reservedRow : CustomKey × CustomResult :=
  (⟨.opb, 0x104, 5, 7, some 0⟩, ⟨none, some 5, none, none, .stay⟩)

/-- custom1 with operand 16 at acc = 5: a store to an address that does not exist. -/
def outsideRow : CustomKey × CustomResult :=
  (⟨.plain, 0x19, 5, 16, some 0⟩, ⟨none, none, none, some (16, 3), .next⟩)

/-- custom2 with operand 0 at acc = 5: acc <- 1, and the pc advances. -/
def plainRow : CustomKey × CustomResult :=
  (⟨.plain, 0x1A, 5, 0, some 0⟩, ⟨some 1, none, none, none, .next⟩)

def demoPlatform : Platform :=
  { codeSize := 16, outMap := [(0, 0), (1, 1)], ioMap := [(0, 0), (1, 1)], stickyImmediate := false, hasC := true,
    custom := [customRow, reservedRow, outsideRow, plainRow], bankCollisions := false }

def worker (pc acc b : Word) : Thread := { Thread.launch with pc := pc, acc := acc, b := b }

def Thread.pend (th : Thread) (wb : List Pending) : Thread := { th with wb := wb }

/-- The machine with these threads, this memory, this queue in the FIFO and these turns to take. -/
def demo (threads : List Thread) (mem : Memory) (queue : List Word) (agenda : List Choice) : State :=
  { threads := threads, mem := mem, devices := [.fifo 2 queue false, .other []], plat := demoPlatform
    cur := 0, readout := 0, agenda := agenda, draws := 0, waits := [] }

/-- One thread at address 4 with these registers and this queue. -/
def solo (acc b : Word) (queue : List Word) : State := demo [worker 4 acc b] [] queue []

def next? : Result → Option State
  | .next s => some s
  | .fault _ => none
  | .refused _ => none

def fault? : Result → Option Fault
  | .next _ => none
  | .fault f => some f
  | .refused _ => none

/-- acc, b and pc of the executing thread. -/
def regs? (r : Result) : Option (Word × Word × Word) := (next? r).map fun s => (s.thread.acc, s.thread.b, s.thread.pc)

/-- What the next step does with the word `w` of the table at address 4. -/
def ran (acc b : Word) (w : Nat) : Option (Word × Word × Word) := regs? (step ((solo acc b []).withFetchWord 40 w))

/-- What is pending after the word `w` has run. -/
def pend (acc b : Word) (w : Nat) : Option (List Pending) :=
  (next? (step ((solo acc b []).withFetchWord 40 w))).map fun s => s.thread.wb

/-- acc, pc and the FIFO after the word `w` has run with this queue. -/
def ported (acc b : Word) (queue : List Word) (w : Nat) : Option (Word × Word × Option Device) :=
  (next? (step ((solo acc b queue).withFetchWord 40 w))).map fun s => (s.thread.acc, s.thread.pc, s.devices[0]?)

/-- The fault the word `w` ends in. -/
def stopped (acc b : Word) (w : Nat) : Option Fault := fault? (step ((solo acc b []).withFetchWord 40 w))

/-! Table V-LOAD. -/

theorem test_load : ran 1 2 0x0012345678 = some (0x12345678, 2, 5) ∧ ran 1 9 0x1F00000000 = some (9, 9, 5) := by decide

theorem test_bload : ran 1 2 0x0200000003 = some (3, 1, 5) ∧ ran 1 2 0x1F00000002 = some (2, 1, 5) := by decide

theorem test_bsload :
    ran 3 0x50 0x0300000040 = some (0x40, 8, 5) ∧ ran 3 0x50 0x1F00000003 = some (0x50, 8, 5) ∧
    ran 31 0 0x0300000000 = some (0, 0x80000000, 5) := by decide

theorem test_bsload_of_32 : ran 32 0 0x0300000000 = some (0, Config.shl1High 32, 5) := rfl

theorem test_bloadx : regs? (exec .opbBloadx (solo 0xAA 0 [])) = some (0xAA, 0xAA, 5) := by decide

theorem test_bsloadx : regs? (exec .opbBsloadx (solo 4 0 [])) = some (4, 0x10, 5) := by decide

theorem test_shift :
    ran 0 7 0x1F00000001 = some (1, 7, 5) ∧ ran 31 7 0x1F00000001 = some (0x80000000, 7, 5) := by decide

theorem test_halt :
    ((next? (step ((solo 6 7 []).withFetchWord 40 0x1F0000001F))).map State.thread)
      = some { worker 4 6 7 with halted := true } := by decide

/-! Table V-BIN. -/

theorem test_logic :
    ran 0xF0F0F0F0 1 0x050FF00FF0 = some (0x00F000F0, 1, 5) ∧ ran 0xF0F0F0F0 1 0x06FFFFFFFF = some (0x0F0F0F0F, 1, 5) ∧
    ran 0xF0F0F0F0 1 0x070000FFFF = some (0xF0F0FFFF, 1, 5) ∧ ran 0x0F 0xFF 0x1F00000006 = some (0xF0, 0xFF, 5) := by
  decide

theorem test_opb_logic :
    ran 0x0C 0x0A 0x1F00000005 = some (0x08, 0x0A, 5) ∧ ran 0x0C 0x0A 0x1F00000007 = some (0x0E, 0x0A, 5) := by decide

theorem test_add :
    ran 5 0 0x0400000007 = some (12, 0, 5) ∧ ran 0xFFFFFFFF 0 0x0400000001 = some (0, 0, 5) ∧
    ran 5 7 0x1F00000004 = some (12, 7, 5) := by decide

theorem test_sub_and_rsub :
    ran 5 0 0x1400000007 = some (0xFFFFFFFE, 0, 5) ∧ ran 5 0 0x0C00000007 = some (2, 0, 5) ∧
    ran 3 10 0x1F0000000C = some (7, 10, 5) ∧ ran 3 10 0x1F00000014 = some (0xFFFFFFF9, 10, 5) := by decide

theorem test_mul :
    ran 0x12345678 0 0x1500000008 = some (0x91A2B3C0, 0, 5) ∧ ran 0xFFFFFFFF 0 0x15FFFFFFFF = some (1, 0, 5) ∧
    ran 6 7 0x1F00000015 = some (42, 7, 5) := by decide

theorem test_shr :
    ran 0xDEADBEEF 0 0x1600000010 = some (0x0DEADBEE, 0, 5) ∧ ran 0x12345678 0 0x1600000003 = some (0x1B217CDA, 0, 5) ∧
    ran 0x80000000 0x80000000 0x1F00000016 = some (1, 0x80000000, 5) := by decide +kernel

theorem test_sar :
    ran 0xDEADBEEF 0 0x1700000010 = some (0xFDEADBEE, 0, 5) ∧ ran 0x80000000 0 0x1700000000 = some (0xFFFFFFFF, 0, 5) ∧
    ran 0xFFFFFFF0 4 0x1F00000017 = some (0xFFFFFFFC, 4, 5) := by decide +kernel

/-! Table V-PUT and the memory-model vectors. -/

theorem test_put :
    pend 21 0 0x0A00000002 = some [⟨2, 21, true⟩] ∧ pend 21 5 0x1F0000000A = some [⟨5, 21, true⟩] ∧
    stopped 21 0 0x0A00000010 = some .badAddress ∧ stopped 21 0 0x0A80000002 = some .badAddress := by decide

theorem test_puts :
    pend 3 0 0x0B80000003 = some [⟨3, 8, true⟩] ∧ pend 31 0 0x0B80000003 = some [⟨3, 0x80000000, true⟩] ∧
    stopped 3 0 0x0B80000010 = some .badAddress := by decide

theorem test_putm :
    pend 0x3F800000 0 0x0B00000005 = some [⟨5, 0xBF800000, true⟩] ∧ pend 1 6 0x1F0000000B = some [⟨6, 0x80000001, true⟩] ∧
    stopped 1 0x80000006 0x1F0000000B = some .badAddress := by decide

/-- The state after `k` steps from `s`. -/
def after (k : Nat) (s : State) : Option State := next? (Sys2Proof.core.run k s)

/-- VM1: PUT to the next instruction. -/
theorem test_vm1 :
    (after 2 (demo [worker 1 21 0] [(1, ⟨10, 2⟩), (2, ⟨4, 0⟩)] [] [])).map (fun s => (s.thread, s.mem.read 2))
      = some (worker 3 42 0, ⟨4, 21⟩) := by decide

/-- VM2 and VM3: a writeback is fresh until the next fetch, then a background step may perform it. -/
theorem test_vm3 :
    (after 3 (demo [worker 1 21 0] [(1, ⟨10, 9⟩), (9, ⟨4, 7⟩)] [] [.run 0, .drain 0 9, .run 0])).map
      (fun s => (s.thread.wb, s.mem.read 9)) = some ([⟨9, 21, false⟩], ⟨4, 7⟩) ∧
    (after 3 (demo [worker 1 21 0] [(1, ⟨10, 9⟩), (9, ⟨4, 7⟩)] [] [.run 0, .run 0, .drain 0 9])).map
      (fun s => (s.thread.wb, s.mem.read 9)) = some ([], ⟨4, 21⟩) := by decide

/-- VM4: the second PUT to one address performs the first. -/
theorem test_vm4 :
    (after 4 (demo [worker 1 0 0] [(1, ⟨0, 1⟩), (2, ⟨10, 8⟩), (3, ⟨0, 2⟩), (4, ⟨10, 8⟩)] []
      [.run 0, .run 0, .run 0, .run 0])).map (fun s => (s.thread.wb, s.mem.read 8))
      = some ([⟨8, 2, true⟩], ⟨0, 1⟩) := by decide

/-- Rules R41, R48, R54: with two threads and the tightening, addresses of one parity collide. -/
theorem test_bank_collision :
    [11, 10].map (fun x => (next? (exec (.put x)
      { demo [Thread.pend (worker 4 1 0) [⟨9, 5, false⟩], worker 8 0 0] [] [] [] with
        plat := { demoPlatform with bankCollisions := true } })).map fun s => (s.thread.wb, s.mem.read 9))
      = [some ([⟨11, 1, true⟩], ⟨0, 5⟩), some ([⟨9, 5, false⟩, ⟨10, 1, true⟩], ⟨0, 0⟩)] := by decide

/-- E10 and VM6: SWAP after PUT exchanges; SWAP with nothing pending reads. -/
theorem test_swap :
    (after 2 (demo [worker 1 5 0] [(1, ⟨10, 2⟩), (2, ⟨1, 9⟩)] [] [])).map (fun s => (s.thread, s.mem.read 2))
      = some (worker 3 9 0, ⟨1, 5⟩) ∧
    (after 1 (demo [worker 2 5 0] [(2, ⟨1, 9⟩)] [] [])).map (fun s => (s.thread, s.mem.read 2))
      = some (worker 3 9 0, ⟨1, 9⟩) := by decide

/-! Table V-JMP. -/

theorem test_jump :
    ran 1 0 0x0F00000008 = some (1, 0, 8) ∧ ran 1 7 0x1F0000000F = some (1, 7, 7) ∧
    ran 1 0 0x0F00000010 = some (1, 0, 16) := by decide

theorem test_jeq :
    ran 0 0 0x0D00000008 = some (0, 0, 8) ∧ ran 1 0 0x0D00000008 = some (1, 0, 5) ∧
    ran 0 9 0x1F0000000D = some (0, 9, 9) := by decide

theorem test_jne :
    ran 0x80000000 0 0x0E00000001 = some (0x80000000, 0, 1) ∧ ran 0 0 0x0E00000010 = some (0, 0, 5) ∧
    ran 4 9 0x1F0000000E = some (4, 9, 9) := by decide

/-- VG1: the getter peeks a HALT and does not execute it. VG5: outside code memory it faults. -/
theorem test_getter :
    (after 1 (demo [worker 0x80000003 2 0] [(3, ⟨31, 31⟩)] [] [])).map State.thread = some (worker 2 0x1F 0) ∧
    fault? (step (demo [worker 0x80000010 2 0] [] [] [])) = some .badAddress := by decide

/-- VG2: the getter forwards and performs the thread's own pending write. -/
theorem test_getter_forwards :
    (after 1 (demo [Thread.pend (worker 0x80000005 4 0) [⟨5, 66, true⟩]] [] [] [.run 0])).map
      (fun s => (s.thread, s.mem.read 5)) = some (worker 4 66 0, ⟨0, 66⟩) := by decide

/-- Rule R22: a carry out of bit 30 does not set the getter flag; the next fetch faults. -/
theorem test_overrun :
    (next? ((demo [worker 0x7FFFFFFF 1 0] [] [] []) |> exec (.load 3))).map (fun s => (fault? (step s), s.thread.pc))
      = some (some .badAddress, 0x80000000) := by decide

/-! Table V-CMP. -/

theorem test_unsigned_comparisons :
    ran 0xFFFFFFFF 0 0x1000000001 = some (1, 0, 5) ∧ ran 0xFFFFFFFF 0 0x1100000001 = some (0, 0, 5) ∧
    ran 5 0 0x1000000005 = some (0, 0, 5) ∧ ran 5 0 0x1100000005 = some (0, 0, 5) := by decide

theorem test_signed_comparisons :
    ran 0x80000000 0 0x127FFFFFFF = some (0, 0, 5) ∧ ran 0x80000000 0 0x137FFFFFFF = some (1, 0, 5) ∧
    ran 0x7FFFFFFF 0 0x1280000000 = some (1, 0, 5) ∧ ran 0xFFFFFFF0 0 0x1F00000013 = some (1, 0, 5) := by decide

theorem test_opb_comparisons :
    ran 2 1 0x1F00000010 = some (1, 1, 5) ∧ ran 2 1 0x1F00000011 = some (0, 1, 5) ∧
    ran 2 0xFFFFFFFF 0x1F00000012 = some (1, 0xFFFFFFFF, 5) := by decide

/-! Table V-IO. -/

theorem test_push :
    ported 0 0 [] 0x0800000007 = some (0, 5, some (.fifo 2 [7] false)) ∧
    ported 0 0 [1, 2] 0x0800000007 = some (0, 4, some (.fifo 2 [1, 2] false)) ∧
    stopped 3 0 0x0800000007 = some .noDevice := by decide

theorem test_opb_push : ported 0 9 [] 0x1F00000008 = some (0, 5, some (.fifo 2 [9] false)) := by decide

theorem test_pop :
    ported 0 0 [7] 0x0900000000 = some (1, 5, some (.fifo 2 [7] false)) ∧
    ported 1 0 [7, 8] 0x0900000000 = some (7, 5, some (.fifo 2 [8] false)) ∧
    ported 1 0 [] 0x0900000000 = some (1, 4, some (.fifo 2 [] false)) ∧
    stopped 1 0 0x0900000004 = some .noDevice := by decide

theorem test_opb_pop : ported 1 0 [3] 0x1F00000009 = some (3, 5, some (.fifo 2 [] false)) := by decide

/-- VF9 to VF12: the special command. -/
theorem test_special_command :
    fifoPop false 2 [5] false 0x80000001 = ⟨.fifo 2 [] true, some 5⟩ ∧
    fifoPop false 2 [6] true 0 = ⟨.fifo 2 [] true, some 6⟩ ∧
    fifoPop true 2 [5] false 0x80000000 = ⟨.fifo 2 [] true, some 5⟩ ∧
    fifoPop false 2 [5] false 0x80000000 = ⟨.fifo 2 [5] true, some 1⟩ := by decide

/-- Two threads at PUSH 1 and PUSH 2 (program P9), or at two POPs (program P10). -/
def pair (op : BitVec 5) (acc : Word) (queue : List Word) (agenda : List Choice) : State :=
  demo [worker 1 acc 0, worker 5 acc 0] [(1, ⟨op, if op = 9 then 0 else 1⟩), (5, ⟨op, if op = 9 then 0 else 2⟩)] queue
    agenda

/-- VF15: the three outcomes. VF16: the race. -/
theorem test_merge :
    (after 2 (pair 8 0 [] [.run 0, .run 1])).map (fun s => s.devices[0]?) = some (some (.fifo 2 [1, 2] false)) ∧
    (after 2 (pair 8 0 [] [.run 1, .run 0])).map (fun s => s.devices[0]?) = some (some (.fifo 2 [2, 1] false)) ∧
    (after 1 (pair 8 0 [] [.merge [0, 1]])).map (fun s => (s.devices[0]?, s.threads.map Thread.pc))
      = some (some (.fifo 2 [3] false), [2, 6]) ∧
    fault? (step (pair 9 1 [] [.merge [0, 1]])) = some .portRace := by decide

/-- Two threads that PUSH to port 0, each with a writeback pending to the address it stands at: at the addresses
`a` and `b`. -/
def pendingPair (a b : Word) (agenda : List Choice) : State :=
  demo [Thread.pend (worker a 0 0) [⟨a.toNat, 4, true⟩], Thread.pend (worker b 0 0) [⟨b.toNat, 8, false⟩]]
    [(1, ⟨8, 1⟩), (5, ⟨8, 2⟩)] [] agenda

/-- A PUSH at PUSH/OUT port 0 and a POP at POP/IO port 0 (VF17). -/
def mixedPair (agenda : List Choice) : State :=
  demo [worker 1 0 0, worker 5 1 0] [(1, ⟨8, 1⟩), (5, ⟨9, 0⟩)] [] agenda

/-- Rules R47, R54: in a merged turn each participant's own write to the address it fetches is performed; at one
address the one of the participant that fetches last stays. -/
theorem test_merge_performs_writebacks :
    (after 1 (pendingPair 1 5 [.merge [0, 1]])).map
      (fun s => (s.mem.read 1, s.mem.read 5, s.threads.map Thread.wb, s.devices[0]?))
      = some (⟨8, 4⟩, ⟨8, 8⟩, [[], []], some (.fifo 2 [12] false)) ∧
    (after 1 (pendingPair 1 1 [.merge [0, 1]])).map (fun s => s.mem.read 1) = some ⟨8, 8⟩ ∧
    (after 1 (pendingPair 1 1 [.merge [1, 0]])).map (fun s => s.mem.read 1) = some ⟨8, 4⟩ := by decide

/-- VF17: ports of one number in the two spaces never merge. -/
theorem test_port_spaces_never_merge : step (mixedPair [.merge [0, 1]]) = .next (mixedPair []) := rfl

/-- Rules R54, R220, D26: with an empty agenda the only enabled turn is taken, be it a background step; a turn that
has waited out its patience is taken whatever the free choice is; and the turns it passes over wait. -/
theorem test_fair_schedule :
    (after 1 (demo [Thread.pend { worker 8 3 4 with halted := true } [⟨9, 5, false⟩]] [] [] [])).map
      (fun s => (s.thread.wb, s.mem.read 9)) = some ([], ⟨0, 5⟩) ∧
    (after 1 { pair 8 0 [] [] with waits := [⟨.run 1, 0⟩] }).map (fun s => s.threads.map Thread.pc) = some [1, 6] ∧
    (after 1 { pair 8 0 [] [] with waits := [⟨.run 1, 0⟩, ⟨.run 0, 4⟩] }).map State.waits
      = some [⟨.run 0, 3⟩] := by decide

/-! Custom codes (rules R80, R81, R200), with the rows of the small machine. -/

theorem test_custom :
    (next? (exec (.custom0 7) (solo 5 1 []))).map State.thread
      = some { worker 10 0x12 1 with c := 9, wb := [⟨2, 3, true⟩] } ∧
    fault? (exec (.custom0 8) (solo 5 1 [])) = some .reservedOpcode ∧
    fault? (exec .opbCustom6 (solo 5 1 [])) = some .reservedOpcode := by decide

theorem test_reserved_opb :
    stopped 1 2 0x1F00000028 = some .reservedOpcode ∧ ran 5 7 0x1F00000104 = some (5, 5, 4) := by decide

/-! E12, with NCPU = 8. -/

theorem test_jump_latency :
    jumpLatency 8 10 11 = 1 ∧ jumpLatency 8 10 27 = 1 ∧ jumpLatency 8 10 2 = 8 ∧ jumpLatency 8 10 12 = 2 ∧
    jumpLatency 8 10 9 = 7 := by decide

/-! Witnesses: for every statement with hypotheses, data that meet them, clause by clause at the boundaries. -/

/-- Two threads: the first at a PUT to the next address with nothing pending, the second with an old writeback. -/
def duo (agenda : List Choice) : State :=
  demo [worker 1 21 6, Thread.pend (worker 8 3 4) [⟨9, 5, false⟩]]
    [(1, ⟨10, 2⟩), (2, ⟨1, 7⟩), (8, ⟨4, 1⟩), (9, ⟨2, 1⟩)] [6] agenda

theorem duo_inv (agenda : List Choice) : (duo agenda).Inv where
  running := show 0 < 2 by decide
  sizeLower := show 1 ≤ 16 by decide
  sizeUpper := show 16 ≤ 2 ^ 31 by decide
  canonical := show Memory.wf [(1, ⟨10, 2⟩), (2, ⟨1, 7⟩), (8, ⟨4, 1⟩), (9, ⟨2, 1⟩)] = true by decide
  inside := by simp [duo, demo, demoPlatform]
  pending := by simp [duo, demo, demoPlatform, State.pendingOk, worker, Thread.launch, Thread.pend]
  devices := by simp [duo, demo, Device.ok]

theorem witness_DecodeEncodeRoundTrip :
    (Instr.puts 0x80000000).wellFormed = true ∧ (Instr.putm 0x7FFFFFFF).wellFormed = true ∧
    (Instr.load 0).wellFormed = true ∧ (Instr.opb 0x104).wellFormed = true ∧ Instr.opbBloadx.wellFormed = true :=
  ⟨rfl, rfl, rfl, test_wellFormed_admits_reserved_opb, rfl⟩

theorem witness_OpbDecoding : 0x20 ≤ (0x20 : Word).toNat ∧ 0x20 ≤ (0xFFFFFFFF : Word).toNat := by decide

theorem witness_PlainDecoding : (0x80000000 : Word).msb = true ∧ (0x7FFFFFFF : Word).msb = false := by decide

/-- Thread 0 can run, the other thread is halted, and the only writeback is fresh; nothing is on the agenda. -/
def lone : State :=
  demo [Thread.pend (worker 1 21 6) [⟨9, 5, true⟩], { worker 8 3 4 with halted := true }] [(1, ⟨10, 2⟩)] [] []

/-- Thread 1 of `duo` is next, in normal mode, at an address that exists; and thread 0 of `lone`. -/
theorem witness_StepRunsTheDecodedInstruction :
    NextUp (duo [.run 1, .run 0]) 1 (Thread.pend (worker 8 3 4) [⟨9, 5, false⟩]) [.run 0] ∧
    Thread.getter (Thread.pend (worker 8 3 4) [⟨9, 5, false⟩]) = false ∧
    (duo [.run 1, .run 0]).badFetch (Thread.pend (worker 8 3 4) [⟨9, 5, false⟩]) = false ∧
    OnlyOneCanAct lone 0 (Thread.pend (worker 1 21 6) [⟨9, 5, true⟩]) ∧
    Thread.getter (Thread.pend (worker 1 21 6) [⟨9, 5, true⟩]) = false ∧
    lone.badFetch (Thread.pend (worker 1 21 6) [⟨9, 5, true⟩]) = false :=
  ⟨⟨rfl, rfl, rfl⟩, by decide, by decide,
    { agenda := rfl
      thread := rfl
      live := rfl
      others := fun k th' h hk => by
        match k with
        | 0 => exact absurd rfl hk
        | 1 => cases h; rfl
        | _ + 2 => cases h
      fresh := by simp [lone, demo, Thread.pend, worker, Thread.launch] }, by decide, by decide⟩

/-- Both reasons: an address equal to CODE_SIZE, and a carry. -/
theorem witness_FetchOutsideMemoryFaults :
    (NextUp (demo [worker 16 0 0] [] [] [.run 0]) 0 (worker 16 0 0) [] ∧
      (demo [worker 16 0 0] [] [] [.run 0]).plat.codeSize ≤ (worker 16 0 0).pc.toNat % 2 ^ 31) ∧
    NextUp (demo [{ worker 0 0 0 with overrun := true }] [] [] [.run 0]) 0 { worker 0 0 0 with overrun := true } [] :=
  ⟨⟨⟨rfl, rfl, rfl⟩, by decide⟩, ⟨rfl, rfl, rfl⟩⟩

/-- An increment, one with a carry out of bit 30, and HALT, which keeps the pc; and jumps that are not taken, at the
last 31-bit address and at the last address that exists. -/
theorem witness_OnlyFlowControlAssignsPc :
    mayJump (.add 1) = false ∧ mayJump .halt = false ∧ (solo 5 6 []).Running ∧
    (∃ t, exec (.add 1) (solo 5 6 []) = .next t) ∧ (∃ t, exec .halt (solo 5 6 []) = .next t) ∧
    (demo [worker 0x7FFFFFFF 1 0] [] [] []).thread.addr = 2 ^ 31 - 1 ∧
    (demo [worker 15 0 0] [] [] []).thread.addr + 1 = (demo [worker 15 0 0] [] [] []).plat.codeSize ∧
    (∃ t, exec (.add 1) (demo [worker 0x7FFFFFFF 1 0] [] [] []) = .next t) ∧
    (∃ t, exec (.jeq 3) (demo [worker 0x7FFFFFFF 1 0] [] [] []) = .next t) ∧
    (∃ t, exec .opbJeq (demo [worker 15 1 0] [] [] []) = .next t) ∧
    (demo [worker 15 1 0] [] [] []).thread.acc ≠ 0 ∧
    (∃ t, exec (.jne 3) (demo [worker 0x7FFFFFFF 0 0] [] [] []) = .next t) ∧
    (∃ t, exec .opbJne (demo [worker 15 0 0] [] [] []) = .next t) ∧
    (demo [worker 15 0 0] [] [] []).thread.acc = 0 :=
  ⟨rfl, rfl, show 0 < 1 by decide, ⟨_, rfl⟩, ⟨_, rfl⟩, by decide, by decide, ⟨_, rfl⟩, ⟨_, rfl⟩, ⟨_, rfl⟩, by decide,
    ⟨_, rfl⟩, ⟨_, rfl⟩, rfl⟩

/-- A getter step at the last address, and one at CODE_SIZE. -/
theorem witness_GetterStepPeeks :
    (NextUp (demo [worker 0x8000000F 4 0] [] [] [.run 0]) 0 (worker 0x8000000F 4 0) [] ∧
      (worker 0x8000000F 4 0).getter = true ∧
      (demo [worker 0x8000000F 4 0] [] [] [.run 0]).badFetch (worker 0x8000000F 4 0) = false ∧
      (demo [worker 0x8000000F 4 0] [] [] [.run 0]).mem.wf = true) ∧
    NextUp (demo [worker 0x80000010 4 0] [] [] [.run 0]) 0 (worker 0x80000010 4 0) [] ∧
    (worker 0x80000010 4 0).getter = true ∧
    (demo [worker 0x80000010 4 0] [] [] [.run 0]).plat.codeSize ≤ (worker 0x80000010 4 0).pc.toNat % 2 ^ 31 :=
  ⟨⟨⟨rfl, rfl, rfl⟩, by decide, by decide, by decide⟩, ⟨rfl, rfl, rfl⟩, by decide, by decide⟩

theorem witness_FetchWordIsRunNext :
    (duo []).mem.wf = true ∧ decodeTableWord 40 0x0400000007 = some (.add 7) ∧ State.reset.mem.wf = true := by decide

/-- The premise of every statement about registers: a machine whose executing thread exists; and both sides of
`1 << Acc`, of the jumps' condition and of the comparisons. -/
theorem witness_Running :
    (solo 5 6 []).Running ∧ (duo []).Running ∧ (solo 31 0 []).thread.acc.toNat < 32 ∧
    ¬(solo 32 0 []).thread.acc.toNat < 32 ∧ (solo 0 0 []).Running ∧ (solo 0 0 []).thread.acc = 0 :=
  ⟨show 0 < 1 by decide, show 0 < 2 by decide, by decide, by decide, show 0 < 1 by decide, rfl⟩

theorem witness_JumpAssignsPc :
    (∃ u, exec (.jump 16) (solo 5 6 []) = .next u) ∧ (∃ u, exec .opbJump (solo 5 6 []) = .next u) ∧
    (∃ u, exec (.jeq 16) (solo 0 6 []) = .next u) ∧ (∃ u, exec .opbJeq (solo 0 6 []) = .next u) ∧
    (∃ u, exec (.jne 16) (solo 5 6 []) = .next u) ∧ (∃ u, exec .opbJne (solo 5 6 []) = .next u) ∧
    (solo 5 6 []).thread.acc ≠ 0 :=
  ⟨⟨_, rfl⟩, ⟨_, rfl⟩, ⟨_, rfl⟩, ⟨_, rfl⟩, ⟨_, rfl⟩, ⟨_, rfl⟩, by decide⟩

/-- A halted thread with an old writeback beside a thread that runs. -/
def halting : State :=
  demo [worker 1 21 6, Thread.pend { worker 8 3 4 with halted := true } [⟨9, 5, false⟩]] [(1, ⟨10, 2⟩)] [] [.run 1, .run 0]

theorem witness_HaltStopsTheThread :
    (∃ u, step halting = .next u) ∧
    halting.threads[1]? = some (Thread.pend { worker 8 3 4 with halted := true } [⟨9, 5, false⟩]) ∧
    halting.mem.wf = true :=
  ⟨⟨_, rfl⟩, rfl, by decide⟩

theorem witness_ReversedBits : (31 : Nat) ≤ 31 ∧ (0 : Nat) ≤ 31 ∧ (solo 5 6 []).Running :=
  ⟨by decide, by decide, show 0 < 1 by decide⟩

/-- The last target that exists and the first that does not, for each store; a store with a collision and one
without, with pending entries to different addresses. -/
def storing (acc b : Word) : State :=
  demo [Thread.pend (worker 4 acc b) [⟨2, 8, false⟩, ⟨15, 9, false⟩]] [] [] []

theorem witness_Stores :
    (storing 5 15).Running ∧ (15 : Word).toNat < (storing 5 15).plat.codeSize ∧
    (storing 5 15).plat.codeSize ≤ (16 : Word).toNat ∧
    ((0x8000000F : Word) ^^^ 0x80000000).toNat < (storing 5 15).plat.codeSize ∧
    (storing 5 15).plat.codeSize ≤ ((0x80000010 : Word) ^^^ 0x80000000).toNat ∧
    (storing 5 15).collision 15 = true ∧ (storing 5 15).collision 14 = false ∧ (storing 5 15).mem.wf = true ∧
    (storing 5 15).thread.wb.Pairwise (fun p q => p.addr ≠ q.addr) :=
  ⟨show 0 < 1 by decide, by decide, by decide, by decide, by decide, by decide, by decide, by decide, by decide⟩

theorem solo_inv (acc b : Word) : (solo acc b []).Inv where
  running := show 0 < 1 by decide
  sizeLower := show 1 ≤ 16 by decide
  sizeUpper := show 16 ≤ 2 ^ 31 by decide
  canonical := rfl
  inside := by simp [solo, demo]
  pending := by simp [solo, demo, State.pendingOk, worker, Thread.launch]
  devices := by simp [solo, demo, Device.ok]

/-- Every form that stores: the five of the PUT family and a custom instruction. -/
theorem witness_OwnWriteIsForwarded :
    (duo []).Inv ∧ 14 ≠ (15 : Word).toNat ∧
    (storeSpec (duo []) (.put 15) = some (15, 21) ∧ ∃ t, exec (.put 15) (duo []) = .next t) ∧
    (storeSpec (duo []) .opbPut = some (6, 21) ∧ ∃ t, exec .opbPut (duo []) = .next t) ∧
    (storeSpec (duo []) (.puts 0x8000000F) = some (15, 0x200000) ∧ ∃ t, exec (.puts 0x8000000F) (duo []) = .next t) ∧
    (storeSpec (duo []) (.putm 15) = some (15, 0x80000015) ∧ ∃ t, exec (.putm 15) (duo []) = .next t) ∧
    (storeSpec (duo []) .opbPutm = some (6, 0x80000015) ∧ ∃ t, exec .opbPutm (duo []) = .next t) ∧
    (solo 5 7 []).Inv ∧ storeSpec (solo 5 7 []) (.custom0 7) = some (2, 3) ∧
      ∃ t, exec (.custom0 7) (solo 5 7 []) = .next t :=
  ⟨duo_inv _, by decide, ⟨rfl, _, rfl⟩, ⟨rfl, _, rfl⟩, ⟨rfl, _, rfl⟩, ⟨rfl, _, rfl⟩, ⟨rfl, _, rfl⟩, solo_inv _ _, rfl,
    _, rfl⟩

/-- A writeback that is not fresh, and a state in which the only one is fresh. -/
theorem witness_BackgroundStepPerformsOneWriteback :
    ((duo [.drain 1 9]).Inv ∧ (duo [.drain 1 9]).threads[1]? = some (Thread.pend (worker 8 3 4) [⟨9, 5, false⟩])) ∧
    (demo [Thread.pend (worker 8 3 4) [⟨9, 5, true⟩]] [] [] [.drain 0 9]).Inv :=
  ⟨⟨duo_inv _, rfl⟩,
    { running := show 0 < 1 by decide
      sizeLower := show 1 ≤ 16 by decide
      sizeUpper := show 16 ≤ 2 ^ 31 by decide
      canonical := rfl
      inside := by simp [demo]
      pending := by simp [demo, demoPlatform, State.pendingOk, worker, Thread.launch, Thread.pend]
      devices := by simp [demo, Device.ok] }⟩

/-- A SWAP with its own write pending, and one with nothing pending. -/
def swapping (wb : List Pending) : State :=
  demo [Thread.pend (worker 2 5 0) wb] [(2, ⟨1, 9⟩)] [] [.run 0]

theorem witness_SwapStepReadsOldOperand :
    (NextUp (swapping [⟨2, 5, true⟩]) 0 (Thread.pend (worker 2 5 0) [⟨2, 5, true⟩]) [] ∧
      (Thread.pend (worker 2 5 0) [⟨2, 5, true⟩]).pendingValue 2 = some 5) ∧
    (NextUp (swapping []) 0 (worker 2 5 0) [] ∧ (worker 2 5 0).pendingValue 2 = none) ∧
    (worker 2 5 0).getter = false ∧ (swapping []).badFetch (worker 2 5 0) = false ∧ (swapping []).mem.wf = true ∧
    ((swapping []).mem.read (worker 2 5 0).addr).op = 0x01 :=
  ⟨⟨⟨rfl, rfl, rfl⟩, by decide⟩, ⟨⟨rfl, rfl, rfl⟩, by decide⟩, by decide, by decide, by decide, by decide⟩

/-- Between PUT and SWAP the other thread steps and a background step happens; and with nothing between. -/
theorem witness_AtomicSwapIdiom :
    ((duo [.run 0, .run 1, .drain 1 9, .run 0]).Inv ∧
      NextUp (duo [.run 0, .run 1, .drain 1 9, .run 0]) 0 (worker 1 21 6) ([.run 1, .drain 1 9] ++ .run 0 :: []) ∧
      (∀ c ∈ [Choice.run 1, .drain 1 9], spares 0 c = true) ∧
      ∃ m, Sys2Proof.core.run 3 (duo [.run 0, .run 1, .drain 1 9, .run 0]) = .next m) ∧
    (worker 1 21 6).getter = false ∧ (duo []).badFetch (worker 1 21 6) = false ∧
    ((duo []).mem.read (worker 1 21 6).addr).op = 0x0A ∧
    (duo []).memRead (worker 1 21 6) (worker 1 21 6).addr = (worker 1 21 6).pc + 1 ∧
    ((duo []).mem.read ((worker 1 21 6).pc + 1).toNat).op = 0x01 ∧
    ∃ m, Sys2Proof.core.run 1 (duo [.run 0, .run 0]) = .next m :=
  ⟨⟨duo_inv _, ⟨rfl, rfl, rfl⟩, by decide, ⟨_, rfl⟩⟩, by decide, by decide, by decide, by decide, by decide, ⟨_, rfl⟩⟩

/-- A FIFO of depth 2 with room for one, and a full one. -/
theorem witness_PushToFifo :
    (solo 0 9 [1]).Running ∧ (solo 0 9 [1]).plat.outMap.lookup (solo 0 9 [1]).thread.acc = some 0 ∧
    (solo 0 9 [1]).devices[0]? = some (.fifo 2 [1] false) ∧ [(1 : Word)].length ≠ 2 ∧
    (solo 0 9 [1, 2]).devices[0]? = some (.fifo 2 [1, 2] false) ∧ (solo 0 9 []).thread.b = 9 :=
  ⟨show 0 < 1 by decide, by decide, by decide, by decide, by decide, by decide⟩

/-- A status query and a readout request, each with an empty queue and with one word in it. -/
theorem witness_PopFromFifo :
    (solo 0 0 []).Running ∧ (solo 0 0 []).plat.ioMap.lookup 0 = some 0 ∧
    (solo 0 0 []).devices[0]? = some (.fifo 2 [] false) ∧ (solo 1 0 [3]).devices[0]? = some (.fifo 2 [3] false) ∧
    (solo 0 0 []).thread.acc.getLsbD 0 = false ∧ (solo 1 0 [3]).thread.acc.getLsbD 0 = true ∧
    (solo 1 0 [3]).thread.b = 0 :=
  ⟨show 0 < 1 by decide, by decide, by decide, by decide, by decide, by decide, by decide⟩

/-- A PUSH to a full FIFO and a readout of an empty one. -/
theorem witness_RetryChangesNoRegister :
    (∃ t, (solo 0 9 [1, 2]).portAccess .pushOut (solo 0 9 [1, 2]).thread.acc 7 = some (none, t)) ∧
    (∃ t, (solo 0 9 [1, 2]).portAccess .pushOut (solo 0 9 [1, 2]).thread.acc (solo 0 9 [1, 2]).thread.b
      = some (none, t)) ∧
    (∃ t, (solo 1 0 []).portAccess .popIo 0 (solo 1 0 []).thread.acc = some (none, t)) ∧
    ∃ t, (solo 1 0 []).portAccess .popIo (solo 1 0 []).thread.b (solo 1 0 []).thread.acc = some (none, t) :=
  ⟨⟨_, rfl⟩, ⟨_, rfl⟩, ⟨_, rfl⟩, ⟨_, rfl⟩⟩

/-- Port 1 is the last that is mapped and port 2 the first that is not; and a port mapped to a device that is not
there. -/
theorem witness_UnmappedPortFaults :
    ((solo 1 1 []).plat.outMap.lookup (solo 1 1 []).thread.acc = some 1 ∧
      (solo 1 1 []).plat.ioMap.lookup 1 = some 1 ∧ (solo 1 1 []).thread.b = 1 ∧
      ({ solo 1 1 [] with devices := [.fifo 2 [] false] } : State).devices[1]? = none) ∧
    (solo 2 2 []).plat.outMap.lookup (solo 2 2 []).thread.acc = none ∧ (solo 2 2 []).plat.ioMap.lookup 2 = none ∧
    (solo 2 2 []).plat.ioMap.lookup (solo 2 2 []).thread.b = none ∧ (solo 2 2 []).plat.ioMap.lookup 1 ≠ none := by
  decide

theorem witness_OtherDeviceAnswersFreely :
    (solo 1 1 []).Running ∧ (solo 1 1 []).devices[1]? = some (.other []) ∧
    (solo 1 1 []).plat.outMap.lookup (solo 1 1 []).thread.acc = some 1 ∧
    (solo 1 1 []).plat.ioMap.lookup 1 = some 1 ∧ (solo 1 1 []).thread.b = 1 :=
  ⟨show 0 < 1 by decide, by decide, by decide, by decide, by decide⟩

/-- Room, a full FIFO, a port without a device in both ways, a device of another kind, and participants with a
writeback pending to the address they fetch, at two addresses and at one. -/
theorem witness_MergedPushSendsTheOr :
    (pair 8 0 [7] [.merge [0, 1]]).agenda = [.merge [0, 1]] ∧ [0, 1].Nodup ∧ 2 ≤ [0, 1].length ∧
    ([0, 1].map (pair 8 0 [7] []).poised = [1, 2].map (fun v => some ⟨.pushOut, 0, v⟩) ∧
      (pair 8 0 [7] []).plat.outMap.lookup 0 = some 0 ∧
      (pair 8 0 [7] []).devices[0]? = some (.fifo 2 [7] false) ∧ [(7 : Word)].length ≠ 2 ∧
      (pair 8 0 [7, 8] []).devices[0]? = some (.fifo 2 [7, 8] false)) ∧
    ([0, 1].map (pair 8 5 [] []).poised = [1, 2].map (fun v => some ⟨.pushOut, 5, v⟩) ∧
      (pair 8 5 [] []).plat.outMap.lookup 5 = none) ∧
    ([0, 1].map ({ pair 8 0 [] [] with devices := [] } : State).poised
        = [1, 2].map (fun v => some ⟨.pushOut, 0, v⟩) ∧
      ({ pair 8 0 [] [] with devices := [] } : State).devices[0]? = none) ∧
    ([0, 1].map (pair 8 1 [] []).poised = [1, 2].map (fun v => some ⟨.pushOut, 1, v⟩) ∧
      (pair 8 1 [] []).plat.outMap.lookup 1 = some 1 ∧ (pair 8 1 [] []).devices[1]? = some (.other [])) ∧
    ([0, 1].map (pendingPair 1 5 []).poised = [4, 8].map (fun v => some ⟨.pushOut, 0, v⟩) ∧
      [0, 1].map (pendingPair 1 1 []).poised = [4, 8].map (fun v => some ⟨.pushOut, 0, v⟩) ∧
      (pendingPair 1 5 []).mem.wf = true ∧
      (pendingPair 1 5 []).threads.map (fun th => th.pendingValue th.addr) = [some 4, some 8] ∧
      (pendingPair 1 5 []).threads.map Thread.addr = [1, 5] ∧ (pendingPair 1 1 []).threads.map Thread.addr = [1, 1] ∧
      [0, 1] = [] ++ 0 :: [1] ∧ [0, 1] = [0] ++ 1 :: []) := by decide

/-- Two threads at POPs of one port, and three; threads at ports of one number in two spaces; one thread alone, and
one thread twice. -/
theorem witness_MergedPopRaces :
    ((pair 9 1 [] [.merge [0, 1]]).agenda = [.merge [0, 1]] ∧ [0, 1].Nodup ∧ 2 ≤ [0, 1].length ∧
      [0, 1].map (pair 9 1 [] []).poised = [1, 1].map (fun v => some ⟨.popIo, 0, v⟩)) ∧
    [2, 0, 1].Nodup ∧ 2 ≤ [2, 0, 1].length ∧
      [2, 0, 1].map (demo [worker 1 3 0, worker 1 4 0, worker 1 5 0] [(1, ⟨9, 0⟩)] [] []).poised
        = [5, 3, 4].map (fun v => some ⟨.popIo, 0, v⟩) ∧
    (∀ (space : PortSpace) (port : Word) (values : List Word),
      [0, 1].map (mixedPair [.merge [0, 1]]).poised ≠ values.map (fun v => some ⟨space, port, v⟩)) ∧
    [0].length < 2 ∧ ¬[0, 0].Nodup :=
  ⟨by decide, by decide, by decide, by decide, fun space port values h => by
    have hp : [0, 1].map (mixedPair [.merge [0, 1]]).poised = [some ⟨.pushOut, 0, 1⟩, some ⟨.popIo, 0, 1⟩] := by decide
    rw [hp] at h
    match values with
    | [] => cases h
    | [_] => cases h
    | [_, _] => cases space <;> simp at h
    | _ :: _ :: _ :: _ => simp at h, by decide, by decide⟩

theorem customUse_reserved : customUse (.opb 0x104) = some (.opb, 0x104, none) := if_pos test_wellFormed_admits_reserved_opb

/-- The ends of the custom codes; a plain form, an OPB form and a reserved OPB operand without a meaning. -/
theorem witness_CustomWithoutMeaningFaults :
    (0x18 ≤ (0x18 : BitVec 5).toNat ∧ (0x1E : BitVec 5).toNat ≤ 0x1E) ∧
    (customUse (.custom0 8) = some (.plain, 0x18, some 8) ∧
      (solo 5 7 []).plat.custom.lookup (customAsk (solo 5 7 []) .plain 0x18 (some 8)) = none) ∧
    (customUse .opbCustom6 = some (.opb, 0x1E, none) ∧
      (solo 5 7 []).plat.custom.lookup (customAsk (solo 5 7 []) .opb 0x1E none) = none) ∧
    customUse (.opb 0x104) = some (.opb, 0x104, none) ∧
      (solo 6 7 []).plat.custom.lookup (customAsk (solo 6 7 []) .opb 0x104 none) = none :=
  ⟨by decide, ⟨rfl, rfl⟩, ⟨rfl, rfl⟩, customUse_reserved, rfl⟩

/-- A result without a store, one with a store to an address that exists, and one with a store outside; and results
whose effect on the pc is to stay, to jump and to do `next`. -/
theorem witness_CustomDoesWhatCustomSays :
    (solo 5 7 []).Running ∧
    (customUse (.opb 0x104) = some (.opb, 0x104, none) ∧
      (solo 5 7 []).plat.custom.lookup (customAsk (solo 5 7 []) .opb 0x104 none) = some reservedRow.2 ∧
      reservedRow.2.store = none ∧ reservedRow.2.pc = .stay ∧ ∃ t, exec (.opb 0x104) (solo 5 7 []) = .next t) ∧
    (customUse (.custom0 7) = some (.plain, 0x18, some 7) ∧
      (solo 5 7 []).plat.custom.lookup (customAsk (solo 5 7 []) .plain 0x18 (some 7)) = some customRow.2 ∧
      customRow.2.store = some (2, 3) ∧ (2 : Word).toNat < (solo 5 7 []).plat.codeSize ∧
      customRow.2.pc = .jump 10 ∧ ∃ t, exec (.custom0 7) (solo 5 7 []) = .next t) ∧
    (customUse (.custom2 0) = some (.plain, 0x1A, some 0) ∧
      (solo 5 7 []).plat.custom.lookup (customAsk (solo 5 7 []) .plain 0x1A (some 0)) = some plainRow.2 ∧
      plainRow.2.pc = .next ∧ ∃ t, exec (.custom2 0) (solo 5 7 []) = .next t) ∧
    customUse (.custom1 16) = some (.plain, 0x19, some 16) ∧
      (solo 5 7 []).plat.custom.lookup (customAsk (solo 5 7 []) .plain 0x19 (some 16)) = some outsideRow.2 ∧
      outsideRow.2.store = some (16, 3) ∧ (solo 5 7 []).plat.codeSize ≤ (16 : Word).toNat :=
  ⟨show 0 < 1 by decide, ⟨customUse_reserved, rfl, rfl, rfl, _, rfl⟩, ⟨rfl, rfl, rfl, by decide, rfl, _, rfl⟩,
    ⟨rfl, rfl, rfl, _, rfl⟩, rfl, rfl, rfl, by decide⟩

/-- A store, a background step and a merged access: steps of a machine that meets the invariant. -/
theorem witness_StepKeepsInvariant :
    (∀ agenda, (duo agenda).Inv) ∧ (∃ t, step (duo [.run 0]) = .next t) ∧ (∃ t, step (duo [.run 1]) = .next t) ∧
    ∃ t, step (duo [.drain 1 9]) = .next t :=
  ⟨duo_inv, ⟨_, rfl⟩, ⟨_, rfl⟩, ⟨_, rfl⟩⟩

theorem witness_ParametersNeverChange :
    (∃ t, step (solo 0 9 [1]) = .next t) ∧ (solo 0 9 [1]).devices[0]? = some (.fifo 2 [1] false) :=
  ⟨⟨_, rfl⟩, rfl⟩

theorem witness_OnlyLoadsToBChangeB :
    mayWriteB (.load 3) = false ∧ mayWriteB .halt = false ∧ ∃ t, exec (.load 3) (solo 5 6 []) = .next t :=
  ⟨rfl, rfl, ⟨_, rfl⟩⟩

theorem witness_OnlyCustomChangesC :
    (∀ e, Instr.opbBload ≠ .opb e) ∧ customUse .opbBload = none ∧ ∃ t, exec .opbBload (solo 5 6 []) = .next t :=
  ⟨fun e => by simp, rfl, ⟨_, rfl⟩⟩

theorem witness_AThreadTouchesOnlyItself : (∃ u, (duo []).runThread 1 = .next u) ∧ 0 ≠ 1 := ⟨⟨_, rfl⟩, by decide⟩

theorem witness_FinalStatesStay :
    (demo [{ worker 9 1 2 with halted := true }] [] [] []).final = true ∧
    (demo [{ worker 9 1 2 with halted := true }] [] [] []).agenda = [] ∧
    (demo [{ worker 9 1 2 with halted := true }] [] [] [.run 0]).final = true ∧
    (demo [{ worker 9 1 2 with halted := true }] [] [] [.run 0]).agenda = [.run 0] := by decide

theorem witness_JumpLatencyIsOneToALap :
    1 ≤ 1 ∧ 1 ≤ 8 ∧ (solo 5 6 []).threads.length = 1 ∧ (duo []).threads.length = 2 := by decide

/-- A thread at each of the four I/O instructions, and threads at none: at a PUT, in getter mode, halted. -/
theorem witness_WhereAThreadStands :
    (pair 8 6 [] []).poised 1 = some ⟨.pushOut, 6, 2⟩ ∧ (pair 9 6 [] []).poised 1 = some ⟨.popIo, 0, 6⟩ ∧
    (demo [worker 1 3 4] [(1, ⟨0x1F, 8⟩)] [] []).poised 0 = some ⟨.pushOut, 3, 4⟩ ∧
    (demo [worker 1 3 4] [(1, ⟨0x1F, 9⟩)] [] []).poised 0 = some ⟨.popIo, 4, 3⟩ ∧ (duo []).poised 0 = none ∧
    (demo [worker 0x80000001 3 4] [(1, ⟨8, 9⟩)] [] []).poised 0 = none ∧
    (demo [{ worker 1 3 4 with halted := true }] [(1, ⟨8, 9⟩)] [] []).poised 0 = none := by decide

/-- A thread that jumps to itself for ever, nothing on the agenda. -/
def looping : State := { demo [worker 1 0 0] [(1, ⟨0x0F, 1⟩)] [] [] with readout := 1 }

/-- A halted thread's last writeback is performed, and the machine stands in a final state from then on. -/
def settling : Nat → State
  | 0 => demo [Thread.pend { worker 8 3 4 with halted := true } [⟨9, 5, false⟩]] [] [] []
  | _ + 1 => demo [{ worker 8 3 4 with halted := true }] [(9, ⟨0, 5⟩)] [] []

/-- An endless run in which a thread can always act, and one with a writeback pending at first. -/
theorem witness_ScheduleIsFair :
    (looping.Inv ∧ (∀ _k : Nat, step looping = .next looping) ∧ looping.threads[0]? = some (worker 1 0 0) ∧
      (worker 1 0 0).halted = false) ∧
    (settling 0).Inv ∧ (∀ k, step (settling k) = .next (settling (k + 1))) ∧
      (settling 0).threads[0]? = some (Thread.pend { worker 8 3 4 with halted := true } [⟨9, 5, false⟩]) :=
  ⟨⟨{ running := show 0 < 1 by decide
      sizeLower := show 1 ≤ 16 by decide
      sizeUpper := show 16 ≤ 2 ^ 31 by decide
      canonical := show Memory.wf [(1, ⟨0x0F, 1⟩)] = true by decide
      inside := by simp [looping, demo, demoPlatform]
      pending := by simp [looping, demo, State.pendingOk, worker, Thread.launch]
      devices := by simp [looping, demo, Device.ok] }, fun _ => rfl, rfl, rfl⟩,
    { running := show 0 < 1 by decide
      sizeLower := show 1 ≤ 16 by decide
      sizeUpper := show 16 ≤ 2 ^ 31 by decide
      canonical := rfl
      inside := by simp [settling, demo]
      pending := by simp [settling, demo, demoPlatform, State.pendingOk, worker, Thread.launch, Thread.pend]
      devices := by simp [settling, demo, Device.ok] },
    fun k => by cases k <;> rfl, rfl⟩

end Sys2Proof.Tests
end

section
/-! SUPPORT. The value functions `rev` and `shl1` against rules R7 and R108, and O23. -/

namespace Sys2Proof.Machine

/-- Bit reversal is its own inverse (rule R7). -/
@[simp] theorem rev_rev (v : Word) : rev (rev v) = v := BitVec.reverse_reverse_eq

/-- Shifting one left is the power of two that rule R7 names; from 32 on both are 0. -/
theorem one_shiftLeft_eq_two_pow (n : Nat) : 1#32 <<< n = BitVec.ofNat 32 (2 ^ n) :=
  BitVec.eq_of_toNat_eq (by simp [Nat.shiftLeft_eq])

/-- The model's `shl1` meets its specification (rules R7, R108). -/
theorem shl1_eq_shl1Spec (a : Word) : shl1 a = shl1Spec a := by
  unfold shl1Spec
  split
  case isTrue h => rw [shl1_of_lt h, one_shiftLeft_eq_two_pow]
  case isFalse h => rw [shl1_of_ge (Nat.le_of_not_lt h)]

/-- Settles O23: the bits by `getLsbD_rev`, the involution by `rev_rev`, the shift by `shl1_eq_shl1Spec`. -/
theorem revReversesBits : Obligations.RevReversesBits := by
  refine ⟨fun v i hi => ?_, rev_rev, shl1_eq_shl1Spec⟩
  have hlt : i < 32 := by omega
  rw [getLsbD_rev, decide_eq_true hlt, Bool.true_and]

end Sys2Proof.Machine
end

section
/-! SUPPORT. What no step changes, and O53: the parameters, the number of threads and of devices, the depth of each
FIFO and its force bit once set (rules R6, R183, R220). The relation is a preorder; each operation of the model
stays within it, and a step is a composition of operations. -/

namespace Sys2Proof.Machine

/-- `d'` is `d` at a later time: where `d` is a FIFO, `d'` is one of the same depth, and its force bit is set if
that of `d` is (rules R180, R183). -/
def Device.Succeeds (d' d : Device) : Prop :=
  ∀ (depth : Nat) (queue : List Word) (force : Bool), d = .fifo depth queue force →
    ∃ queue' force', d' = .fifo depth queue' force' ∧ (force = true → force' = true)

theorem Device.Succeeds.refl (d : Device) : d.Succeeds d :=
  fun _ queue force h => ⟨queue, force, h, id⟩

theorem Device.Succeeds.trans {d d' d'' : Device} (h' : d''.Succeeds d') (h : d'.Succeeds d) :
    d''.Succeeds d := by
  intro depth queue force hd
  obtain ⟨queue', force', hd', hf⟩ := h depth queue force hd
  obtain ⟨queue'', force'', hd'', hf'⟩ := h' depth queue' force' hd'
  exact ⟨queue'', force'', hd'', hf' ∘ hf⟩

/-- All a FIFO's write side can leave (rule R181). -/
theorem fifoPush_device (depth : Nat) (queue : List Word) (force : Bool) (v : Word) :
    ∃ queue', (fifoPush depth queue force v).device = .fifo depth queue' force := by
  unfold fifoPush
  split
  · exact ⟨queue, rfl⟩
  · exact ⟨queue ++ [v], rfl⟩

/-- All a FIFO's read side can leave: only a special command changes the force bit, and it sets it
(rules R182, R183). -/
theorem fifoPop_device (sticky : Bool) (depth : Nat) (queue : List Word) (force : Bool) (v : Word) :
    ∃ queue', (fifoPop sticky depth queue force v).device = .fifo depth queue' (force || v.msb) := by
  unfold fifoPop
  split
  · cases queue with
    | nil => exact ⟨[], rfl⟩
    | cons r rest => exact ⟨rest, rfl⟩
  · exact ⟨queue, rfl⟩

/-- An access leaves a FIFO a FIFO of its depth and clears no force bit. -/
theorem access_succeeds (sticky : Bool) (id : Nat) (space : PortSpace) (v : Word) (d : Device) :
    (d.access sticky id space v).device.Succeeds d := by
  rintro depth queue force rfl
  cases space with
  | pushOut =>
    obtain ⟨queue', h⟩ := fifoPush_device depth queue force v
    exact ⟨queue', force, h, fun hf => hf⟩
  | popIo =>
    obtain ⟨queue', h⟩ := fifoPop_device sticky depth queue force v
    exact ⟨queue', force || v.msb, h, fun hf => by simp [hf]⟩

/-- What every step keeps from `s` to `t` (rules R6, R183, R220). -/
structure KeepsParameters (s t : State) : Prop where
  plat : t.plat = s.plat
  threadCount : t.threads.length = s.threads.length
  deviceCount : t.devices.length = s.devices.length
  device : ∀ (id : Nat) (d : Device), s.devices[id]? = some d →
    ∃ d' : Device, t.devices[id]? = some d' ∧ d'.Succeeds d

/-- A change that reaches no device. -/
theorem KeepsParameters.of_devices_eq {s t : State} (hp : t.plat = s.plat)
    (ht : t.threads.length = s.threads.length) (hd : t.devices = s.devices) : KeepsParameters s t where
  plat := hp
  threadCount := ht
  deviceCount := by rw [hd]
  device id d h := ⟨d, by rw [hd, h], .refl d⟩

theorem KeepsParameters.refl (s : State) : KeepsParameters s s := .of_devices_eq rfl rfl rfl

theorem KeepsParameters.trans {s t u : State} (h : KeepsParameters s t) (h' : KeepsParameters t u) :
    KeepsParameters s u where
  plat := h'.plat.trans h.plat
  threadCount := h'.threadCount.trans h.threadCount
  deviceCount := h'.deviceCount.trans h.deviceCount
  device id d hd := by
    obtain ⟨d', hd', hs⟩ := h.device id d hd
    obtain ⟨d'', hd'', hs'⟩ := h'.device id d' hd'
    exact ⟨d'', hd'', hs'.trans hs⟩

/-! The operations. -/

theorem mapThread_keepsParameters (s : State) (t : Nat) (f : Thread → Thread) :
    KeepsParameters s (s.mapThread t f) :=
  .of_devices_eq rfl (by simp) rfl

theorem upd_keepsParameters (s : State) (f : Thread → Thread) : KeepsParameters s (s.upd f) :=
  mapThread_keepsParameters s s.cur f

theorem fetch_keepsParameters (s : State) (t : Nat) (th : Thread) : KeepsParameters s (s.fetch t th) :=
  .of_devices_eq rfl (by simp) rfl

theorem drain_keepsParameters (s : State) (t a : Nat) : KeepsParameters s (s.drain t a) := by
  obtain h | ⟨th, p, -, -, -, -, h⟩ := drain_cases s t a
  · rw [h]; exact .refl s
  · rw [h]; exact .of_devices_eq rfl (by simp) rfl

theorem memWrite_keepsParameters {s s' : State} {a : Nat} {v : Word} (h : s.memWrite a v = some s') :
    KeepsParameters s s' := by
  obtain ⟨-, ⟨-, rfl⟩ | ⟨-, rfl⟩⟩ := memWrite_cases h
  · exact upd_keepsParameters s _
  · exact .of_devices_eq rfl (by simp) rfl

/-- The one operation that changes a device. -/
theorem portAccess_keepsParameters {s s' : State} {space : PortSpace} {port v : Word} {r : Option Word}
    (h : s.portAccess space port v = some (r, s')) : KeepsParameters s s' := by
  obtain ⟨id, d, -, hd, -, rfl⟩ := portAccess_cases h
  refine ⟨rfl, rfl, by simp, fun k dk hk => ?_⟩
  by_cases hne : id = k
  · subst hne
    obtain rfl : d = dk := Option.some.inj (hd.symm.trans hk)
    obtain ⟨hlt, -⟩ := List.getElem?_eq_some_iff.1 hd
    exact ⟨_, List.getElem?_set_self hlt, access_succeeds _ id space v d⟩
  · exact ⟨dk, by rw [List.getElem?_set_ne hne, hk], .refl dk⟩

/-- An operation done for each of a list of threads. -/
theorem KeepsParameters.foldl {f : State → Nat → State} (hf : ∀ s t, KeepsParameters s (f s t))
    (s : State) (ts : List Nat) : KeepsParameters s (ts.foldl f s) := by
  induction ts generalizing s with
  | nil => exact .refl s
  | cons t ts ih => exact (hf s t).trans (ih (f s t))

theorem fetchAll_keepsParameters (s : State) (ts : List Nat) : KeepsParameters s (s.fetchAll ts) := by
  refine .foldl (fun s t => ?_) s ts
  split
  · exact fetch_keepsParameters s t _
  · exact .refl s

/-! The turns. -/

theorem exec_keepsParameters {i : Instr} {s t : State} (h : exec i s = .next t) : KeepsParameters s t := by
  obtain ⟨s', f, hr, -, rfl, -⟩ := exec_effect h
  have hs : KeepsParameters s s' := by
    cases hr with
    | none => exact .refl s
    | write a v hw => exact memWrite_keepsParameters hw
    | port space port v r hp => exact portAccess_keepsParameters hp
  exact hs.trans (upd_keepsParameters s' f)

theorem runThread_keepsParameters {s u : State} {t : Nat} (h : s.runThread t = .next u) :
    KeepsParameters s u := by
  obtain hidle | ⟨th, -, -, ⟨-, hfault⟩ | ⟨-, -, hpeek⟩ | ⟨-, -, hexec⟩⟩ := runThread_cases s t
  · cases hidle.symm.trans h
    exact .refl s
  · cases hfault.symm.trans h
  · cases hpeek.symm.trans h
    exact (fetch_keepsParameters s t th).trans (upd_keepsParameters _ _)
  · exact (fetch_keepsParameters s t th).trans (exec_keepsParameters (hexec.symm.trans h))

theorem mergedPush_keepsParameters {s t : State} {ts : List Nat} {port v : Word}
    (h : s.mergedPush ts port v = .next t) : KeepsParameters s t := by
  obtain ⟨r, s', hp, rfl⟩ := mergedPush_next h
  have hs : KeepsParameters s s' := (fetchAll_keepsParameters s ts).trans (portAccess_keepsParameters hp)
  cases r with
  | none => exact hs
  | some _ => exact hs.trans (.foldl (fun s t => mapThread_keepsParameters s t Thread.advance) s' ts)

theorem runMerge_keepsParameters {s t : State} {ts : List Nat} (h : s.runMerge ts = .next t) :
    KeepsParameters s t := by
  obtain ⟨-, hidle⟩ | ⟨r, -, ⟨-, hrace⟩ | ⟨-, hpush⟩⟩ := runMerge_cases s ts
  · cases hidle.symm.trans h
    exact .refl s
  · cases hrace.symm.trans h
  · exact mergedPush_keepsParameters (hpush.symm.trans h)

theorem turn_keepsParameters {s t : State} {c : Choice} (h : s.turn c = .next t) : KeepsParameters s t := by
  cases c with
  | run k => exact runThread_keepsParameters h
  | drain k a =>
    cases h
    exact drain_keepsParameters s k a
  | merge ts => exact runMerge_keepsParameters h

theorem nextChoice_keepsParameters (s : State) : KeepsParameters s s.nextChoice.2 := by
  obtain ⟨ag, dr, ws, h⟩ := nextChoice_state s
  rw [h]
  exact .of_devices_eq rfl rfl rfl

theorem step_keepsParameters {s t : State} (h : step s = .next t) : KeepsParameters s t :=
  (nextChoice_keepsParameters s).trans (turn_keepsParameters h)

/-- Settles O53: every step keeps the parameters, read off for one FIFO. -/
theorem parametersNeverChange : Obligations.ParametersNeverChange := by
  intro s t h
  obtain ⟨hplat, hthreads, hdevices, hdevice⟩ := step_keepsParameters h
  refine ⟨hplat, hthreads, hdevices, fun id depth queue force hd => ?_⟩
  obtain ⟨d', hd', hs⟩ := hdevice id _ hd
  obtain ⟨queue', force', rfl, hf⟩ := hs depth queue force rfl
  exact ⟨queue', force', hd', hf⟩

end Sys2Proof.Machine
end

section
/-! SUPPORT. The invariant of a machine, and O48, O49, O51 with it (rules R25, R46, R48, R54, R102, R180). Each
operation of the model keeps the invariant and every opcode; a step is a composition of operations. HALT is the one
instruction that keeps it only after a fetch, which leaves no writeback of the thread fresh. -/

namespace Sys2Proof.Machine

/-! The pending writebacks of one thread. -/

theorem pendingOk_congr {s t : State} (hp : t.plat = s.plat) (hl : t.threads.length = s.threads.length)
    (th : Thread) : t.pendingOk th ↔ s.pendingOk th := by
  simp only [State.pendingOk, hp, shareBank_congr hp hl]

/-- Registers do not matter, and a thread may halt once nothing it has pending is fresh (rule R102). -/
theorem pendingOk_of_wb_eq {s : State} {th th' : Thread} (h : s.pendingOk th) (hw : th'.wb = th.wb)
    (hh : th'.halted = th.halted ∨ ∀ p ∈ th.wb, p.fresh = false) : s.pendingOk th' := by
  obtain ⟨hin, hpair, hhalt⟩ := h
  unfold State.pendingOk
  rw [hw]
  refine ⟨hin, hpair, fun h' => ?_⟩
  obtain hsame | hold := hh
  · exact hhalt (hsame.symm.trans h')
  · exact hold

theorem pendingOk_of_sublist {s : State} {th : Thread} {wb : List Pending} (h : s.pendingOk th)
    (hsub : wb.Sublist th.wb) : s.pendingOk { th with wb := wb } := by
  obtain ⟨hin, hpair, hhalt⟩ := h
  exact ⟨fun p hp => hin p (hsub.subset hp), hpair.sublist hsub, fun hh p hp => hhalt hh p (hsub.subset hp)⟩

/-- After its fetch a thread has nothing pending that is fresh (rule R54). -/
theorem fresh_fetched {th : Thread} {a : Nat} {p : Pending} (hp : p ∈ (th.fetched a).wb) : p.fresh = false := by
  obtain ⟨q, -, rfl⟩ := List.mem_map.1 hp
  rfl

theorem pendingOk_fetched {s : State} {th : Thread} (h : s.pendingOk th) (a : Nat) :
    s.pendingOk (th.fetched a) := by
  obtain ⟨hin, hpair, -⟩ := h
  refine ⟨fun p hp => ?_, ?_, fun _ p hp => fresh_fetched hp⟩
  · obtain ⟨q, hq, rfl⟩ := List.mem_map.1 hp
    exact hin q (List.mem_filter.1 hq).1
  · rw [fetched_wb, List.pairwise_map]
    exact hpair.sublist List.filter_sublist

/-- A thread that runs may queue a write to an address that exists and collides with none pending (rule R48). -/
theorem pendingOk_queue {s : State} {th : Thread} {a : Nat} {v : Word} (h : s.pendingOk th)
    (hlive : th.halted = false) (ha : a < s.plat.codeSize) (hfree : ∀ p ∈ th.wb, s.shareBank a p.addr = false) :
    s.pendingOk (th.queue a v) := by
  obtain ⟨hin, hpair, -⟩ := h
  refine ⟨fun p hp => ?_, ?_, fun hh => ?_⟩
  · rw [queue_wb, List.mem_append, List.mem_singleton] at hp
    obtain hp | rfl := hp
    · exact hin p hp
    · exact ha
  · rw [queue_wb, List.pairwise_append]
    refine ⟨hpair, List.pairwise_singleton _ _, fun p hp q hq => ?_⟩
    cases List.mem_singleton.1 hq
    rw [shareBank_comm]
    exact hfree p hp
  · rw [queue_halted, hlive] at hh
    cases hh

/-! What every operation keeps. -/

/-- From a machine with the invariant: the invariant holds after, and every opcode is what it was (rule R25). -/
def KeepsInv (s t : State) : Prop := s.Inv → t.Inv ∧ ∀ a, (t.mem.read a).op = (s.mem.read a).op

theorem KeepsInv.refl (s : State) : KeepsInv s s := fun h => ⟨h, fun _ => rfl⟩

theorem KeepsInv.trans {s t u : State} (h : KeepsInv s t) (h' : KeepsInv t u) : KeepsInv s u := by
  intro hs
  obtain ⟨ht, hop⟩ := h hs
  obtain ⟨hu, hop'⟩ := h' ht
  exact ⟨hu, fun a => (hop' a).trans (hop a)⟩

/-- An operation done for each of a list of threads. -/
theorem KeepsInv.foldl {f : State → Nat → State} (hf : ∀ s t, KeepsInv s (f s t)) (s : State) (ts : List Nat) :
    KeepsInv s (ts.foldl f s) := by
  induction ts generalizing s with
  | nil => exact .refl s
  | cons t ts ih => exact (hf s t).trans (ih (f s t))

/-- The invariant says nothing of the schedule. -/
theorem schedule_keepsInv (s : State) (ag : List Choice) (dr : Nat) (ws : List Wait) :
    KeepsInv s { s with agenda := ag, draws := dr, waits := ws } :=
  fun h => ⟨{ h with }, fun _ => rfl⟩

/-- Any thread there is may become the executing one. -/
theorem select_keepsInv (s : State) {t : Nat} (ht : t < s.threads.length) (r : Word) :
    KeepsInv s { s with cur := t, readout := r } :=
  fun h => ⟨{ h with running := ht }, fun _ => rfl⟩

theorem mapThread_keepsInv {s : State} {t : Nat} {f : Thread → Thread}
    (hf : ∀ th, s.threads[t]? = some th → s.pendingOk th → s.pendingOk (f th)) :
    KeepsInv s (s.mapThread t f) := by
  refine fun h => ⟨{ h with running := (running_mapThread s t f).2 h.running, pending := fun th' hth' => ?_ },
    fun _ => rfl⟩
  obtain ⟨k, hk⟩ := List.getElem?_of_mem hth'
  rw [mapThread_getElem?] at hk
  obtain ⟨th, hth, rfl⟩ := Option.map_eq_some_iff.1 hk
  have hok := h.pending th (List.mem_of_getElem? hth)
  refine (pendingOk_congr (mapThread_plat s t f) (by simp) _).2 ?_
  split
  case isTrue htk => exact hf th (htk ▸ hth) hok
  case isFalse => exact hok

/-- Performing writebacks whose targets exist (rules R25, R46). -/
theorem performAll_keepsInv {s : State} {wb : List Pending} (hin : ∀ p ∈ wb, p.addr < s.plat.codeSize) :
    KeepsInv s { s with mem := performAll s.mem wb } := by
  refine fun h => ⟨{ h with canonical := wf_performAll h.canonical wb, inside := fun e he => ?_ },
    fun a => op_performAll h.canonical wb a⟩
  obtain ⟨p, hp, hep⟩ | he := mem_performAll he
  · rw [hep]
    exact hin p hp
  · exact h.inside e he

theorem writeOperand_keepsInv {s : State} {a : Nat} (v : Word) (ha : a < s.plat.codeSize) :
    KeepsInv s { s with mem := s.mem.writeOperand a v } :=
  performAll_keepsInv (wb := [⟨a, v, false⟩]) fun p hp => by
    cases List.mem_singleton.1 hp
    exact ha

theorem setDevice_keepsInv {s : State} (id : Nat) {d : Device} (hd : s.Inv → d.ok) :
    KeepsInv s { s with devices := s.devices.set id d } := by
  refine fun h => ⟨{ h with devices := fun d' hd' => ?_ }, fun _ => rfl⟩
  obtain hmem | rfl := List.mem_or_eq_of_mem_set hd'
  · exact h.devices d' hmem
  · exact hd h

/-! The operations of the model. -/

/-- The thread that fetches performs its own writeback to the address fetched, which exists (rules R46, R54). -/
theorem fetch_keepsInv {s : State} {t : Nat} {th : Thread} (hth : s.threads[t]? = some th) :
    KeepsInv s (s.fetch t th) := by
  intro h
  have hmem : KeepsInv s { s with mem := (s.fetch t th).mem } := by
    rw [fetch_mem]
    split
    · next v hv =>
      obtain ⟨p, hp, hpa, -⟩ := pendingValue_eq_some hv
      obtain ⟨hin, -, -⟩ := h.pending th (List.mem_of_getElem? hth)
      exact writeOperand_keepsInv v (hpa ▸ hin p hp)
    · exact .refl s
  have hsel := select_keepsInv { s with mem := (s.fetch t th).mem } (List.getElem?_eq_some_iff.1 hth).1
    (s.mem.read th.addr).x
  exact (hmem.trans hsel).trans (mapThread_keepsInv fun th' _ hok => pendingOk_fetched hok th'.addr) h

theorem drain_keepsInv (s : State) (t a : Nat) : KeepsInv s (s.drain t a) := by
  obtain heq | ⟨th, p, hth, hp, rfl, -, heq⟩ := drain_cases s t a
  · rw [heq]
    exact .refl s
  · rw [heq]
    intro h
    obtain ⟨hin, -, -⟩ := h.pending th (List.mem_of_getElem? hth)
    exact (writeOperand_keepsInv p.value (hin p hp)).trans
      (mapThread_keepsInv fun th' _ hok => pendingOk_of_sublist hok List.eraseP_sublist) h

/-- A thread that runs may write: on a collision what it had pending is performed first (rule R48). -/
theorem memWrite_keepsInv {s s' : State} {a : Nat} {v : Word} (hlive : s.thread.halted = false)
    (h : s.memWrite a v = some s') : KeepsInv s s' := by
  have hcur : ∀ th, s.threads[s.cur]? = some th → s.thread = th := thread_of_getElem? s
  obtain ⟨ha, ⟨hfree, rfl⟩ | ⟨-, rfl⟩⟩ := memWrite_cases h
  · refine mapThread_keepsInv fun th hth hok => ?_
    obtain rfl := hcur th hth
    exact pendingOk_queue hok hlive ha hfree
  · intro hs
    obtain ⟨hin, -, -⟩ := hs.pending s.thread (List.mem_of_getElem? (thread_eq_getElem s hs.running))
    refine (performAll_keepsInv hin).trans (mapThread_keepsInv fun th hth hok => ?_) hs
    obtain rfl := hcur th hth
    exact pendingOk_queue (pendingOk_of_sublist hok (List.nil_sublist _)) hlive ha fun p hp => by cases hp

theorem portAccess_keepsInv {s s' : State} {space : PortSpace} {port v : Word} {r : Option Word}
    (h : s.portAccess space port v = some (r, s')) : KeepsInv s s' := by
  obtain ⟨id, d, -, hd, -, rfl⟩ := portAccess_cases h
  exact setDevice_keepsInv id fun hs => access_ok _ id space v (hs.devices d (List.mem_of_getElem? hd))

theorem reach_keepsInv {s s' : State} (hlive : s.thread.halted = false) (h : Reach s s') : KeepsInv s s' := by
  cases h with
  | none => exact .refl s
  | write a v hw => exact memWrite_keepsInv hlive hw
  | port space port v r hp => exact portAccess_keepsInv hp

/-- An update of registers alone; it may set the halted flag where nothing pending is fresh (rule R102). -/
theorem updRegisters_keepsInv {s : State} {f : Thread → Thread} (hf : RegistersOnly f)
    (hh : (∀ th, (f th).halted = th.halted) ∨ ∀ p ∈ s.thread.wb, p.fresh = false) : KeepsInv s (s.upd f) := by
  refine mapThread_keepsInv fun th hth hok => pendingOk_of_wb_eq hok (hf.wb th) ?_
  obtain rfl := thread_of_getElem? s th hth
  exact hh.imp (fun hsame => hsame _) id

/-! The turns. -/

/-- What executing an instruction keeps, by a thread that runs and has just fetched. -/
theorem exec_keepsInv {i : Instr} {s t : State} (h : exec i s = .next t) (hlive : s.thread.halted = false)
    (hold : ∀ p ∈ s.thread.wb, p.fresh = false) : KeepsInv s t := by
  obtain ⟨s', f, hr, hf, rfl, hh⟩ := exec_effect h
  refine (reach_keepsInv hlive hr).trans (updRegisters_keepsInv hf (hh.imp id ?_))
  rintro rfl
  exact hold

theorem runThread_keepsInv {s u : State} {t : Nat} (h : s.runThread t = .next u) : KeepsInv s u := by
  obtain hidle | ⟨th, hth, hlive, ⟨-, hfault⟩ | ⟨-, -, hpeek⟩ | ⟨-, -, hexec⟩⟩ := runThread_cases s t
  · cases hidle.symm.trans h
    exact .refl s
  · cases hfault.symm.trans h
  · cases hpeek.symm.trans h
    exact (fetch_keepsInv hth).trans
      (updRegisters_keepsInv (registersOnly_of (fun _ => rfl) fun _ => rfl) (.inl fun _ => rfl))
  · have hfetched := thread_fetch hth
    exact (fetch_keepsInv hth).trans (exec_keepsInv (hexec.symm.trans h) (by rw [hfetched]; exact hlive)
      fun p hp => fresh_fetched (hfetched ▸ hp))

theorem fetchAll_keepsInv (s : State) (ts : List Nat) : KeepsInv s (s.fetchAll ts) := by
  refine .foldl (fun s t => ?_) s ts
  split
  · next hth => exact fetch_keepsInv hth
  · exact .refl s

theorem advanceThread_keepsInv (s : State) (t : Nat) : KeepsInv s (s.mapThread t Thread.advance) :=
  mapThread_keepsInv fun th _ hok => pendingOk_of_wb_eq hok (threadAdvance_wb th) (.inl (threadAdvance_halted th))

theorem mergedPush_keepsInv {s t : State} {ts : List Nat} {port v : Word}
    (h : s.mergedPush ts port v = .next t) : KeepsInv s t := by
  obtain ⟨r, s', hp, rfl⟩ := mergedPush_next h
  have hs : KeepsInv s s' := (fetchAll_keepsInv s ts).trans (portAccess_keepsInv hp)
  cases r with
  | none => exact hs
  | some _ => exact hs.trans (.foldl advanceThread_keepsInv s' ts)

theorem runMerge_keepsInv {s t : State} {ts : List Nat} (h : s.runMerge ts = .next t) : KeepsInv s t := by
  obtain ⟨-, hidle⟩ | ⟨r, -, ⟨-, hrace⟩ | ⟨-, hpush⟩⟩ := runMerge_cases s ts
  · cases hidle.symm.trans h
    exact .refl s
  · cases hrace.symm.trans h
  · exact mergedPush_keepsInv (hpush.symm.trans h)

theorem turn_keepsInv {s t : State} {c : Choice} (h : s.turn c = .next t) : KeepsInv s t := by
  cases c with
  | run k => exact runThread_keepsInv h
  | drain k a =>
    cases h
    exact drain_keepsInv s k a
  | merge ts => exact runMerge_keepsInv h

theorem nextChoice_keepsInv (s : State) : KeepsInv s s.nextChoice.2 := by
  obtain ⟨ag, dr, ws, h⟩ := nextChoice_state s
  rw [h]
  exact schedule_keepsInv s ag dr ws

theorem step_keepsInv {s t : State} (h : step s = .next t) : KeepsInv s t :=
  (nextChoice_keepsInv s).trans (turn_keepsInv h)

/-- Settles O48: the invariant is one half of what every step keeps. -/
theorem stepKeepsInvariant : Obligations.StepKeepsInvariant :=
  fun _ _ hs h => (step_keepsInv h hs).1

/-- Settles O51: the opcodes are the other half. -/
theorem opcodesAreConstant : Obligations.OpcodesAreConstant :=
  fun _ _ hs h => (step_keepsInv h hs).2

/-! The launch state. -/

/-- Settles O49: one thread with nothing pending, an empty memory and no device meet every clause. -/
theorem resetKeepsInvariant : Obligations.ResetKeepsInvariant where
  running := show 0 < 1 by decide
  sizeLower := show 1 ≤ 2 ^ 31 by decide
  sizeUpper := show 2 ^ 31 ≤ 2 ^ 31 by decide
  canonical := wf_nil
  inside e he := by cases he
  pending th hth := by
    cases List.mem_singleton.1 hth
    exact ⟨fun p hp => (by cases hp), .nil, fun _ p hp => (by cases hp)⟩
  devices d hd := by cases hd

/-- Settles O50: each clause read off the one launch thread, the empty list of devices and the empty memory. -/
theorem resetLeavesNothingPending : Obligations.ResetLeavesNothingPending := by
  refine ⟨fun th hth => ?_, fun d hd => (by cases hd), read_nil⟩
  cases List.mem_singleton.1 hth
  exact ⟨rfl, rfl, rfl, rfl, rfl, rfl⟩

end Sys2Proof.Machine
end

section
/-! SUPPORT. The thread whose turn it is, and O6, O56: its step executes the instruction fetched, and no step of its
own reaches another thread's record (rules R30, R31, R220). -/

namespace Sys2Proof.Machine

/-- In normal mode a thread that runs executes what it fetched, where its fetch is not bad (rule R31). -/
theorem runThread_of_normal {s : State} {t : Nat} {th : Thread} (hth : s.threads[t]? = some th)
    (hlive : th.halted = false) (hgood : s.badFetch th = false) (hnormal : th.getter = false) :
    s.runThread t = exec (decode (s.fetchedWord th)) (s.fetch t th) := by
  simp [State.runThread, State.stepThread, hth, hlive, hgood, hnormal]

/-- Settles O6: the turn is thread `t`'s by the agenda or as the only one enabled, and `runThread_of_normal` says
what it is; the fetch does not see the schedule. -/
theorem stepRunsTheDecodedInstruction : Obligations.StepRunsTheDecodedInstruction := by
  intro s t th hnormal hgood
  refine ⟨fun rest hnext => ?_, fun honly => ?_⟩
  · rw [step_of_agenda hnext.agenda]
    exact runThread_of_normal (s := { s with agenda := rest }) hnext.thread hnext.live hgood hnormal
  · rw [step_of_onlyOneCanAct honly]
    exact runThread_of_normal (s := { s with waits := [] }) honly.thread honly.live hgood hnormal

theorem upd_others (s : State) (f : Thread → Thread) {k : Nat} (hk : k ≠ s.cur) :
    (s.upd f).threads[k]? = s.threads[k]? :=
  (sameRest_upd s f).others k hk

theorem fetch_others (s : State) (t : Nat) (th : Thread) {k : Nat} (hk : k ≠ t) :
    (s.fetch t th).threads[k]? = s.threads[k]? := by
  simp [hk.symm]

theorem exec_others {i : Instr} {s t : State} (h : exec i s = .next t) {k : Nat} (hk : k ≠ s.cur) :
    t.threads[k]? = s.threads[k]? := by
  obtain ⟨s', f, hr, -, rfl, -⟩ := exec_effect h
  obtain ⟨-, hcur, -, -, -, -, -, hothers, -⟩ := hr.core
  rw [upd_others s' f (hcur ▸ hk), hothers k hk]

/-- Settles O56: the fetch, the getter step and the instruction each leave the other threads alone. -/
theorem aThreadTouchesOnlyItself : Obligations.AThreadTouchesOnlyItself := by
  intro s u t h k hk
  obtain hidle | ⟨th, -, -, ⟨-, hfault⟩ | ⟨-, -, hpeek⟩ | ⟨-, -, hexec⟩⟩ := runThread_cases s t
  · cases hidle.symm.trans h
    rfl
  · cases hfault.symm.trans h
  · cases hpeek.symm.trans h
    rw [upd_others _ _ hk, fetch_others s t th hk]
  · rw [exec_others (hexec.symm.trans h) hk, fetch_others s t th hk]

end Sys2Proof.Machine
end

section
/-! SUPPORT. What a basic instruction, one that does not go through CUSTOM, does to the registers of the executing
thread, said once over all of them; O8, O54 and O55 are read off (rules R22, R23, R24). -/

namespace Sys2Proof.Machine

/-- An instruction that does not go through CUSTOM, nor through the generic row OPB (rules R80, R81, R100). -/
structure Basic (i : Instr) : Prop where
  notOpb : ∀ e, i ≠ .opb e
  notCustom : customUse i = none

/-- What is not basic is among the instructions that may assign B and the pc (rules R22, R23). -/
theorem basic_or (i : Instr) : Basic i ∨ mayWriteB i = true ∧ mayJump i = true := by
  cases i
  case opb | custom0 | custom1 | custom2 | custom3 | custom4 | custom5 | custom6 | opbCustom0 | opbCustom1
      | opbCustom2 | opbCustom3 | opbCustom4 | opbCustom5 | opbCustom6 =>
    exact .inr ⟨rfl, rfl⟩
  all_goals exact .inl ⟨nofun, rfl⟩

theorem basic_of_mayWriteB {i : Instr} (h : mayWriteB i = false) : Basic i :=
  (basic_or i).resolve_right fun ⟨hb, _⟩ => by rw [h] at hb; cases hb

theorem basic_of_mayJump {i : Instr} (h : mayJump i = false) : Basic i :=
  (basic_or i).resolve_right fun ⟨_, hj⟩ => by rw [h] at hj; cases hj

/-- The updates of its thread's registers that a basic instruction may end with. -/
inductive Finish (i : Instr) : (Thread → Thread) → Prop where
  /-- new values for Acc and B, then `next` -/
  | next (acc b : Thread → Word) (hb : mayWriteB i = false → b = Thread.b) :
      Finish i fun th => { th with acc := acc th, b := b th }.advance
  /-- a retry (rule R177) -/
  | stay : Finish i id
  | halt : Finish i fun th => { th with halted := true }
  | branch (taken : Thread → Bool) (target : Thread → Word) (hj : mayJump i = true) :
      Finish i fun th => if taken th then th.jump (target th) else th.advance

theorem Finish.c_eq {i : Instr} {f : Thread → Thread} (h : Finish i f) (th : Thread) : (f th).c = th.c := by
  cases h with
  | next | stay | halt => rfl
  | branch => dsimp only; split <;> rfl

theorem Finish.b_eq {i : Instr} {f : Thread → Thread} (h : Finish i f) (hi : mayWriteB i = false) (th : Thread) :
    (f th).b = th.b := by
  cases h with
  | next acc b hb => rw [hb hi, threadAdvance_b]
  | stay | halt => rfl
  | branch => dsimp only; split <;> rfl

/-- `th'` stands where `th` does: the same pc, and the same companion bit of it (rule R22; log entry 5). -/
def SamePc (th th' : Thread) : Prop := th'.pc = th.pc ∧ th'.overrun = th.overrun

theorem Finish.pc_cases {i : Instr} {f : Thread → Thread} (h : Finish i f) (hi : mayJump i = false) (th : Thread) :
    SamePc th (f th) ∨ SamePc th.advance (f th) := by
  cases h with
  | next => exact .inr ⟨rfl, rfl⟩
  | stay | halt => exact .inl ⟨rfl, rfl⟩
  | branch taken target hj =>
    rw [hi] at hj
    cases hj

/-- The effect of a basic instruction `i`: a reach, then such an update of the executing thread. -/
def Finishes (i : Instr) (s t : State) : Prop := ∃ s' f, Reach s s' ∧ Finish i f ∧ t = s'.upd f

theorem finishes_registers {i : Instr} {acc b : Thread → Word} {s t : State}
    (hb : mayWriteB i = false → b = Thread.b) (h : registers acc b s = .next t) : Finishes i s t := by
  cases h
  exact ⟨s, _, .none, .next acc b hb, rfl⟩

/-- Acc written, then `next`: SWAP, the binary operations and the comparisons. -/
theorem finishes_acc {i : Instr} {acc : Thread → Word} {s t : State}
    (h : .next (s.upd fun th => { th with acc := acc th }.advance) = (.next t : Result)) : Finishes i s t := by
  cases h
  exact ⟨s, _, .none, .next acc Thread.b fun _ => rfl, rfl⟩

theorem finishes_branch {i : Instr} {taken : Thread → Bool} {target : Thread → Word} {s t : State}
    (hj : mayJump i = true)
    (h : .next (s.upd fun th => if taken th then th.jump (target th) else th.advance) = (.next t : Result)) :
    Finishes i s t := by
  cases h
  exact ⟨s, _, .none, .branch taken target hj, rfl⟩

theorem finishes_store {i : Instr} {target v : Word} {s t : State} (h : store target v s = .next t) :
    Finishes i s t := by
  obtain ⟨s', hm, rfl⟩ := store_next h
  exact ⟨s', _, .write _ _ hm, .next Thread.acc Thread.b fun _ => rfl, rfl⟩

theorem finishes_pushOut {i : Instr} {o : Operand} {s t : State} (h : pushOut o s = .next t) :
    Finishes i s t := by
  obtain ⟨r, s', hp, rfl⟩ := pushOut_next h
  cases r with
  | none => exact ⟨s', id, .port _ _ _ _ hp, .stay, (upd_id s').symm⟩
  | some _ => exact ⟨s', _, .port _ _ _ _ hp, .next Thread.acc Thread.b fun _ => rfl, rfl⟩

theorem finishes_popIo {i : Instr} {o : Operand} {s t : State} (h : popIo o s = .next t) : Finishes i s t := by
  obtain ⟨r, s', hp, rfl⟩ := popIo_next h
  cases r with
  | none => exact ⟨s', id, .port _ _ _ _ hp, .stay, (upd_id s').symm⟩
  | some v => exact ⟨s', _, .port _ _ _ _ hp, .next (fun _ => v) Thread.b fun _ => rfl, rfl⟩

/-- Every basic instruction, where it answers a next state, has such an effect. -/
theorem exec_finishes {i : Instr} {s t : State} (hi : Basic i) (h : exec i s = .next t) : Finishes i s t := by
  cases i
  case opb e => exact absurd rfl (hi.notOpb e)
  case custom0 | custom1 | custom2 | custom3 | custom4 | custom5 | custom6 | opbCustom0 | opbCustom1
      | opbCustom2 | opbCustom3 | opbCustom4 | opbCustom5 | opbCustom6 =>
    cases hi.notCustom
  case load | opbLoad | opbShift => exact finishes_registers (fun _ => rfl) h
  case bload | opbBload | bsload | opbBsload | opbBloadx | opbBsloadx => exact finishes_registers nofun h
  case halt =>
    cases h
    exact ⟨s, _, .none, .halt, rfl⟩
  case put | opbPut | puts | putm | opbPutm => exact finishes_store h
  case push | opbPush => exact finishes_pushOut h
  case pop | opbPop => exact finishes_popIo h
  case jump | opbJump | jeq | opbJeq | jne | opbJne => exact finishes_branch rfl h
  all_goals exact finishes_acc h

/-! A register that the update leaves alone is what it was in every thread. -/

/-- A reach changes no more of a thread than its pending writebacks. -/
theorem Reach.map_threads {α : Type} {g : Thread → α} (hg : ∀ th wb, g { th with wb := wb } = g th)
    {s s' : State} (h : Reach s s') : s'.threads.map g = s.threads.map g := by
  obtain ⟨-, -, -, -, -, -, hlen, -, hrec⟩ := h.core
  refine List.ext_getElem? fun k => ?_
  rw [List.getElem?_map, List.getElem?_map]
  cases hk : s.threads[k]? with
  | none => rw [List.getElem?_eq_none_iff.2 (hlen ▸ List.getElem?_eq_none_iff.1 hk)]
  | some th =>
    obtain ⟨wb, hwb⟩ := hrec k th hk
    rw [hwb, Option.map_some, Option.map_some, hg]

theorem map_threads_upd {α : Type} {g : Thread → α} {f : Thread → Thread} (hg : ∀ th, g (f th) = g th)
    (s : State) : (s.upd f).threads.map g = s.threads.map g := by
  refine List.ext_getElem? fun k => ?_
  rw [upd_threads, List.getElem?_map, List.getElem?_map, List.getElem?_modify]
  cases s.threads[k]? with
  | none => rfl
  | some th => simp only [Option.map_eq_map, Option.map_some]; split <;> simp only [hg]

/-- Settles O54: neither the reach nor the update changes B. -/
theorem onlyLoadsToBChangeB : Obligations.OnlyLoadsToBChangeB := by
  intro i s t hi h
  obtain ⟨s', f, hr, hf, rfl⟩ := exec_finishes (basic_of_mayWriteB hi) h
  rw [map_threads_upd (hf.b_eq hi), hr.map_threads fun _ _ => rfl]

/-! The pc (rule R22). -/

/-- A reach leaves the registers of the executing thread alone. -/
theorem Reach.thread {s s' : State} (h : Reach s s') (hs : s.Running) :
    s'.Running ∧ ∃ wb, s'.thread = { s.thread with wb := wb } := by
  obtain ⟨-, hcur, -, -, -, -, hlen, -, hrec⟩ := h.core
  obtain ⟨wb, hwb⟩ := hrec s.cur s.thread (thread_eq_getElem s hs)
  refine ⟨?_, wb, thread_of_getElem? s' _ (hcur ▸ hwb)⟩
  unfold State.Running
  rw [hcur, hlen]
  exact hs

theorem didNext_of_samePc {s t : State} (hp : t.plat = s.plat) (h : SamePc s.thread.advance t.thread) :
    DidNext s t := by
  obtain ⟨hpc, hov⟩ := h
  refine ⟨hpc, ?_⟩
  rw [badFetch_iff, hov, hpc, hp, threadAdvance_overrun, decide_eq_true_eq, threadAdvance_pc]

theorem keptPc_of_samePc {s t : State} (hp : t.plat = s.plat) (h : SamePc s.thread t.thread) : KeptPc s t := by
  obtain ⟨hpc, hov⟩ := h
  refine ⟨hpc, ?_⟩
  unfold State.badFetch Thread.addr
  rw [hpc, hov, hp]

theorem exec_keptPc_or_didNext {i : Instr} {s t : State} (hs : s.Running) (hi : mayJump i = false)
    (h : exec i s = .next t) : KeptPc s t ∨ DidNext s t := by
  obtain ⟨s', f, hr, hf, rfl⟩ := exec_finishes (basic_of_mayJump hi) h
  obtain ⟨hplat, -⟩ := hr.core
  obtain ⟨hs', wb, hwb⟩ := hr.thread hs
  have hpc := hf.pc_cases hi s'.thread
  rw [← thread_upd s' f hs', hwb] at hpc
  exact hpc.imp (keptPc_of_samePc hplat) (didNext_of_samePc hplat)

/-- A jump that is not taken does `next` (rules R151, R152, R155). -/
theorem branch_didNext {taken : Word → Bool} {o : Operand} {s t : State} (hs : s.Running)
    (h : branch taken o s = .next t) (hno : taken s.thread.acc = false) : DidNext s t := by
  cases h
  refine didNext_of_samePc rfl ?_
  rw [thread_upd s _ hs, hno]
  exact ⟨rfl, rfl⟩

/-- Settles O8: the first clause by what a basic instruction ends with, the other two by the branch not taken. -/
theorem onlyFlowControlAssignsPc : Obligations.OnlyFlowControlAssignsPc := by
  refine fun i s t hs h => ⟨fun hi => exec_keptPc_or_didNext hs hi h, fun hjeq hne => ?_, fun hjne heq => ?_⟩
  · have hno : accIsZero s.thread.acc = false := beq_false_of_ne hne
    obtain rfl | ⟨x, rfl⟩ := hjeq
    · exact branch_didNext (o := .regB) hs h hno
    · exact branch_didNext (o := .imm x) hs h hno
  · have hno : (!accIsZero s.thread.acc) = false := by rw [heq]; rfl
    obtain rfl | ⟨x, rfl⟩ := hjne
    · exact branch_didNext (taken := fun acc => !accIsZero acc) (o := .regB) hs h hno
    · exact branch_didNext (taken := fun acc => !accIsZero acc) (o := .imm x) hs h hno

/-! No basic instruction reads C (rule R24): it answers the same with another value there. -/

/-- `s` with the value `v` in the executing thread's C. -/
def State.withC (s : State) (v : Word) : State := s.upd fun th => { th with c := v }

/-- A meaning that answers the same but for C, whatever value the executing thread's C holds. -/
def CFree (m : State → Result) : Prop :=
  ∀ (s t : State) (v : Word), m s = .next t → m (s.withC v) = .next (t.withC v)

/-- What does not look at C reads the same from the executing thread. -/
theorem thread_withC {α : Type} {g : Thread → α} (hg : ∀ th v, g { th with c := v } = g th) (s : State)
    (v : Word) : g (s.withC v).thread = g s.thread := by
  unfold State.thread State.withC
  rw [upd_threads, upd_cur, List.getElem?_modify_eq]
  cases s.threads[s.cur]? with
  | none => rfl
  | some th => exact hg th v

theorem acc_withC (s : State) (v : Word) : (s.withC v).thread.acc = s.thread.acc :=
  thread_withC (fun _ _ => rfl) s v

theorem xb_withC (s : State) (v : Word) (o : Operand) : (s.withC v).xb o = s.xb o :=
  thread_withC (g := (Thread.xb · o)) (fun _ _ => by cases o <;> rfl) s v

/-- An update that hands C through commutes with the change of C. -/
theorem upd_withC {f f' : Thread → Thread} {v : Word} (hf : ∀ th, f' { th with c := v } = { f th with c := v })
    (s : State) : (s.withC v).upd f' = (s.upd f).withC v := by
  have hcomp : (f' ∘ fun th => { th with c := v }) = (fun th => { th with c := v }) ∘ f := funext hf
  simp only [State.withC, State.upd, State.mapThread, List.modify_modify_eq, hcomp]

theorem memWrite_withC {s s' : State} {a : Nat} {w : Word} (h : s.memWrite a w = some s') (v : Word) :
    (s.withC v).memWrite a w = some (s'.withC v) := by
  have hwb : (s.withC v).thread.wb = s.thread.wb := thread_withC (fun _ _ => rfl) s v
  have hcol : (s.withC v).collides a = s.collides a :=
    funext fun a' => shareBank_congr (s := s) (t := s.withC v) rfl (by simp [State.withC]) a a'
  obtain ⟨ha, hcases⟩ := memWrite_cases h
  unfold State.memWrite
  rw [hwb, hcol, if_pos (show a < (s.withC v).plat.codeSize from ha)]
  obtain ⟨hfree, rfl⟩ | ⟨⟨p, hp, hpa⟩, rfl⟩ := hcases
  · rw [if_neg (by simpa [collides_eq_shareBank] using hfree)]
    exact congrArg some (upd_withC (fun _ => rfl) s)
  · rw [if_pos (List.any_eq_true.2 ⟨p, hp, hpa⟩)]
    exact congrArg some (upd_withC (fun _ => rfl) { s with mem := performAll s.mem s.thread.wb })

theorem portAccess_withC {s s' : State} {space : PortSpace} {port w : Word} {r : Option Word}
    (h : s.portAccess space port w = some (r, s')) (v : Word) :
    (s.withC v).portAccess space port w = some (r, s'.withC v) := by
  obtain ⟨id, d, hid, hd, rfl, rfl⟩ := portAccess_cases h
  have hid' : deviceOn (s.withC v).plat space port = some id := hid
  have hd' : (s.withC v).devices[id]? = some d := hd
  simp only [State.portAccess, hid', hd']
  rfl

/-- An update of the executing thread, made from the state, that neither reads nor writes C. -/
theorem cFree_upd {f : State → Thread → Thread}
    (hf : ∀ s th v, f (s.withC v) { th with c := v } = { f s th with c := v }) :
    CFree fun s => .next (s.upd (f s)) := by
  intro s t v h
  cases h
  exact congrArg _ (upd_withC (fun th => hf s th v) s)

theorem cFree_branch {taken : Thread → Bool} {target : Thread → Word}
    (htaken : ∀ th v, taken { th with c := v } = taken th)
    (htarget : ∀ th v, target { th with c := v } = target th) :
    CFree fun s => .next (s.upd fun th => if taken th then th.jump (target th) else th.advance) :=
  cFree_upd fun _ th v => by rw [htaken, htarget]; split <;> rfl

/-- A store whose target and value do not depend on C. -/
theorem cFree_store {target value : State → Word} (htarget : ∀ s v, target (s.withC v) = target s)
    (hvalue : ∀ s v, value (s.withC v) = value s) : CFree fun s => store (target s) (value s) s := by
  intro s t v h
  obtain ⟨s', hm, rfl⟩ := store_next h
  have hm' := memWrite_withC hm v
  simp only [store, htarget, hvalue, hm']
  exact congrArg _ (upd_withC (fun _ => rfl) s')

theorem cFree_pushOut (o : Operand) : CFree (pushOut o) := by
  intro s t v h
  obtain ⟨r, s', hp, rfl⟩ := pushOut_next h
  have hp' := portAccess_withC hp v
  simp only [pushOut, acc_withC, xb_withC, hp']
  cases r with
  | none => rfl
  | some _ => exact congrArg _ (upd_withC (fun _ => rfl) s')

theorem cFree_popIo (o : Operand) : CFree (popIo o) := by
  intro s t v h
  obtain ⟨r, s', hp, rfl⟩ := popIo_next h
  have hp' := portAccess_withC hp v
  simp only [popIo, acc_withC, xb_withC, hp']
  cases r with
  | none => rfl
  | some _ => exact congrArg _ (upd_withC (fun _ => rfl) s')

theorem exec_cFree {i : Instr} (hi : Basic i) : CFree (exec i) := by
  cases i
  case opb e => exact absurd rfl (hi.notOpb e)
  case custom0 | custom1 | custom2 | custom3 | custom4 | custom5 | custom6 | opbCustom0 | opbCustom1
      | opbCustom2 | opbCustom3 | opbCustom4 | opbCustom5 | opbCustom6 =>
    cases hi.notCustom
  case put | opbPut => exact cFree_store (fun s v => xb_withC s v _) acc_withC
  case puts => exact cFree_store (fun _ _ => rfl) fun s v => congrArg shl1 (acc_withC s v)
  case putm | opbPutm =>
    exact cFree_store (fun s v => xb_withC s v _) fun s v => congrArg (· ^^^ flagBit) (acc_withC s v)
  case push x => exact cFree_pushOut (.imm x)
  case opbPush => exact cFree_pushOut .regB
  case pop x => exact cFree_popIo (.imm x)
  case opbPop => exact cFree_popIo .regB
  case jump | opbJump | jeq | opbJeq | jne | opbJne => exact cFree_branch (fun _ _ => rfl) fun _ _ => rfl
  all_goals exact cFree_upd fun _ _ _ => rfl

/-- Settles O55: neither the reach nor the update changes C, and the whole instruction commutes with a change of
C. -/
theorem onlyCustomChangesC : Obligations.OnlyCustomChangesC := by
  intro i s t ho hc h
  have hi : Basic i := ⟨ho, hc⟩
  refine ⟨?_, fun v => exec_cFree hi s t v h⟩
  obtain ⟨s', f, hr, hf, rfl⟩ := exec_finishes hi h
  rw [map_threads_upd hf.c_eq, hr.map_threads fun _ _ => rfl]

end Sys2Proof.Machine
end

section
/-! SUPPORT. Writebacks that are performed, and O52: what performing a thread's writebacks leaves in memory, when an
instruction does it, and that no step changes an operand but to a value that was pending to it (rules R30, R46, R47,
R48). -/

namespace Sys2Proof.Machine

/-! What performing writebacks leaves in memory. -/

/-- An address to which writebacks are performed holds the value of one of them (rule R47). -/
theorem read_performAll_of_addr {m : Memory} (hm : m.wf = true) {wb : List Pending} {a : Nat}
    (h : ∃ p ∈ wb, p.addr = a) : ∃ p ∈ wb, p.addr = a ∧ ((performAll m wb).read a).x = p.value := by
  induction wb generalizing m with
  | nil =>
    obtain ⟨p, hp, -⟩ := h
    cases hp
  | cons q wb ih =>
    by_cases hlater : ∃ p ∈ wb, p.addr = a
    · obtain ⟨p, hp, hpa, hv⟩ := ih (wf_writeOperand hm q.addr q.value) hlater
      exact ⟨p, List.mem_cons_of_mem _ hp, hpa, hv⟩
    · have hother : ∀ p ∈ wb, p.addr ≠ a := fun p hp hpa => hlater ⟨p, hp, hpa⟩
      obtain ⟨p, hp, hpa⟩ := h
      obtain rfl : p = q := (List.mem_cons.1 hp).resolve_right fun hp => hother p hp hpa
      subst hpa
      refine ⟨p, List.mem_cons_self, rfl, ?_⟩
      rw [performAll_cons, read_performAll_other _ hother, read_writeOperand_same hm]

/-- What executing an instruction does to memory and to what its thread has pending: nothing is performed and nothing
is lost, or everything is performed (rules R46, R48). -/
def ReachesMemory (s t : State) : Prop :=
  t.mem = s.mem ∧ (∀ p ∈ s.thread.wb, p ∈ t.thread.wb) ∨ t.mem = performAll s.mem s.thread.wb

theorem Reach.reachesMemory {s s' : State} (h : Reach s s') (hs : s.Running) : ReachesMemory s s' := by
  cases h with
  | none => exact .inl ⟨rfl, fun _ hp => hp⟩
  | port space port v r h =>
    obtain ⟨id, d, -, -, -, rfl⟩ := portAccess_cases h
    exact .inl ⟨rfl, fun _ hp => hp⟩
  | write a v h =>
    obtain ⟨-, ⟨-, rfl⟩ | ⟨-, rfl⟩⟩ := memWrite_cases h
    · refine .inl ⟨rfl, fun p hp => ?_⟩
      rw [thread_upd s _ hs, queue_wb]
      exact List.mem_append_left _ hp
    · exact .inr rfl

theorem exec_reachesMemory {i : Instr} {s t : State} (h : exec i s = .next t) (hs : s.Running) :
    ReachesMemory s t := by
  obtain ⟨s', f, hr, hf, rfl, -⟩ := exec_effect h
  obtain ⟨hs', -⟩ := hr.thread hs
  have hreach := hr.reachesMemory hs
  unfold ReachesMemory
  rwa [thread_upd s' f hs', hf.wb]

/-! What is pending, and what every operation performs of it. -/

/-- Some thread has a writeback of `v` to `a` pending. -/
def State.Pends (s : State) (a : Nat) (v : Word) : Prop := ∃ th ∈ s.threads, ∃ p ∈ th.wb, p.addr = a ∧ p.value = v

/-- From `s` to `t`, every address keeps its contents or takes a value that was pending to it. -/
def Performs (s t : State) : Prop := ∀ a, t.mem.read a = s.mem.read a ∨ s.Pends a (t.mem.read a).x

/-- From a canonical memory: the memory stays canonical, it changes by pending values alone, and nothing new is
pending. -/
def OnlyPerforms (s t : State) : Prop :=
  s.mem.wf = true → t.mem.wf = true ∧ Performs s t ∧ ∀ a v, t.Pends a v → s.Pends a v

theorem Performs.of_mem_eq {s t : State} (h : t.mem = s.mem) : Performs s t := fun _ => .inl (by rw [h])

/-- Where nothing new is pending in between, what is performed later was pending before. -/
theorem Performs.trans {s t u : State} (h : Performs s t) (hp : ∀ a v, t.Pends a v → s.Pends a v)
    (h' : Performs t u) : Performs s u := by
  intro a
  obtain hkept | hnew := h' a
  · rw [hkept]
    exact h a
  · exact .inr (hp a _ hnew)

theorem OnlyPerforms.refl (s : State) : OnlyPerforms s s := fun hm => ⟨hm, .of_mem_eq rfl, fun _ _ => id⟩

theorem OnlyPerforms.trans {s t u : State} (h : OnlyPerforms s t) (h' : OnlyPerforms t u) : OnlyPerforms s u := by
  intro hm
  obtain ⟨ht, hperf, hpend⟩ := h hm
  obtain ⟨hu, hperf', hpend'⟩ := h' ht
  exact ⟨hu, hperf.trans hpend hperf', fun a v => hpend a v ∘ hpend' a v⟩

theorem OnlyPerforms.performs {s t : State} (h : OnlyPerforms s t) (hm : s.mem.wf = true) : Performs s t := by
  obtain ⟨-, hperf, -⟩ := h hm
  exact hperf

/-- An operation done for each of a list of threads. -/
theorem OnlyPerforms.foldl {f : State → Nat → State} (hf : ∀ s t, OnlyPerforms s (f s t)) (s : State)
    (ts : List Nat) : OnlyPerforms s (ts.foldl f s) := by
  induction ts generalizing s with
  | nil => exact .refl s
  | cons t ts ih => exact (hf s t).trans (ih (f s t))

/-- A change that reaches neither the memory nor a thread. -/
theorem OnlyPerforms.of_threads_eq {s t : State} (hm : t.mem = s.mem) (ht : t.threads = s.threads) :
    OnlyPerforms s t := by
  refine fun hwf => ⟨hm ▸ hwf, .of_mem_eq hm, fun a v h => ?_⟩
  unfold State.Pends at h ⊢
  rwa [← ht]

/-- One pending writeback performed, but not yet taken off its thread's list. -/
theorem writeOperand_onlyPerforms {s : State} {a : Nat} {v : Word} (h : s.Pends a v) :
    OnlyPerforms s { s with mem := s.mem.writeOperand a v } := by
  refine fun hm => ⟨wf_writeOperand hm a v, fun a' => ?_, fun _ _ => id⟩
  by_cases ha : a' = a
  · subst ha
    right
    rw [read_writeOperand_same hm]
    exact h
  · exact .inl (read_writeOperand_other s.mem v ha)

/-- A change of one thread that gives it nothing new to write. -/
theorem mapThread_onlyPerforms (s : State) (t : Nat) {f : Thread → Thread}
    (hf : ∀ th, ∀ p ∈ (f th).wb, ∃ q ∈ th.wb, q.addr = p.addr ∧ q.value = p.value) :
    OnlyPerforms s (s.mapThread t f) := by
  refine fun hm => ⟨hm, .of_mem_eq rfl, ?_⟩
  rintro a v ⟨th', hth', p, hp, rfl, rfl⟩
  obtain ⟨k, hk⟩ := List.getElem?_of_mem hth'
  rw [mapThread_getElem?] at hk
  obtain ⟨th, hth, rfl⟩ := Option.map_eq_some_iff.1 hk
  refine ⟨th, List.mem_of_getElem? hth, ?_⟩
  split at hp
  · exact hf th p hp
  · exact ⟨p, hp, rfl, rfl⟩

/-! The operations of the model. -/

theorem fetch_onlyPerforms {s : State} {t : Nat} {th : Thread} (hth : s.threads[t]? = some th) :
    OnlyPerforms s (s.fetch t th) := by
  have hmem : OnlyPerforms s { s with mem := (s.fetch t th).mem } := by
    rw [fetch_mem]
    split
    · next v hv => exact writeOperand_onlyPerforms ⟨th, List.mem_of_getElem? hth, pendingValue_eq_some hv⟩
    · exact .refl s
  have hread : OnlyPerforms { s with mem := (s.fetch t th).mem }
      { s with mem := (s.fetch t th).mem, cur := t, readout := (s.mem.read th.addr).x } := .of_threads_eq rfl rfl
  refine (hmem.trans hread).trans (mapThread_onlyPerforms _ t (f := fun th => th.fetched th.addr) ?_)
  intro th p hp
  obtain ⟨q, hq, rfl⟩ := List.mem_map.1 hp
  exact ⟨q, (List.mem_filter.1 hq).1, rfl, rfl⟩

theorem drain_onlyPerforms (s : State) (t a : Nat) : OnlyPerforms s (s.drain t a) := by
  obtain heq | ⟨th, p, hth, hp, hpa, -, heq⟩ := drain_cases s t a
  · rw [heq]
    exact .refl s
  · rw [heq]
    have hpend : s.Pends a p.value := ⟨th, List.mem_of_getElem? hth, p, hp, hpa, rfl⟩
    exact (writeOperand_onlyPerforms hpend).trans
      (mapThread_onlyPerforms _ t fun _ q hq => ⟨q, List.eraseP_subset hq, rfl, rfl⟩)

theorem portAccess_onlyPerforms {s s' : State} {space : PortSpace} {port v : Word} {r : Option Word}
    (h : s.portAccess space port v = some (r, s')) : OnlyPerforms s s' := by
  obtain ⟨id, d, -, -, -, rfl⟩ := portAccess_cases h
  exact .of_threads_eq rfl rfl

theorem fetchAll_onlyPerforms (s : State) (ts : List Nat) : OnlyPerforms s (s.fetchAll ts) := by
  refine .foldl (fun s t => ?_) s ts
  split
  · next hth => exact fetch_onlyPerforms hth
  · exact .refl s

/-- An instruction may queue a new writeback, but performs only what its thread had pending (rules R46, R48). -/
theorem exec_performs {i : Instr} {s t : State} (h : exec i s = .next t) (hs : s.Running) (hm : s.mem.wf = true) :
    Performs s t := by
  obtain ⟨hkept, -⟩ | hall := exec_reachesMemory h hs
  · exact .of_mem_eq hkept
  · intro a
    rw [hall]
    by_cases ha : ∃ p ∈ s.thread.wb, p.addr = a
    · obtain ⟨p, hp, hpa, hv⟩ := read_performAll_of_addr hm ha
      exact .inr ⟨s.thread, List.mem_of_getElem? (thread_eq_getElem s hs), p, hp, hpa, hv.symm⟩
    · exact .inl (read_performAll_other s.mem fun p hp hpa => ha ⟨p, hp, hpa⟩)

/-! The turns. -/

theorem runThread_performs {s u : State} {t : Nat} (h : s.runThread t = .next u) (hm : s.mem.wf = true) :
    Performs s u := by
  obtain hidle | ⟨th, hth, -, ⟨-, hfault⟩ | ⟨-, -, hpeek⟩ | ⟨-, -, hexec⟩⟩ := runThread_cases s t
  · cases hidle.symm.trans h
    exact .of_mem_eq rfl
  · cases hfault.symm.trans h
  · cases hpeek.symm.trans h
    obtain ⟨-, hperf, hpend⟩ := fetch_onlyPerforms hth hm
    exact hperf.trans hpend (.of_mem_eq rfl)
  · obtain ⟨hm', hperf, hpend⟩ := fetch_onlyPerforms hth hm
    exact hperf.trans hpend (exec_performs (hexec.symm.trans h) (running_fetch hth) hm')

theorem mergedPush_onlyPerforms {s t : State} {ts : List Nat} {port v : Word}
    (h : s.mergedPush ts port v = .next t) : OnlyPerforms s t := by
  obtain ⟨r, s', hp, rfl⟩ := mergedPush_next h
  have hs : OnlyPerforms s s' := (fetchAll_onlyPerforms s ts).trans (portAccess_onlyPerforms hp)
  cases r with
  | none => exact hs
  | some _ =>
    exact hs.trans (.foldl (fun s t => mapThread_onlyPerforms s t (f := Thread.advance) fun _ p hp =>
      ⟨p, hp, rfl, rfl⟩) s' ts)

theorem runMerge_onlyPerforms {s t : State} {ts : List Nat} (h : s.runMerge ts = .next t) : OnlyPerforms s t := by
  obtain ⟨-, hidle⟩ | ⟨r, -, ⟨-, hrace⟩ | ⟨-, hpush⟩⟩ := runMerge_cases s ts
  · cases hidle.symm.trans h
    exact .refl s
  · cases hrace.symm.trans h
  · exact mergedPush_onlyPerforms (hpush.symm.trans h)

theorem turn_performs {s t : State} {c : Choice} (h : s.turn c = .next t) (hm : s.mem.wf = true) :
    Performs s t := by
  cases c with
  | run k => exact runThread_performs h hm
  | drain k a =>
    cases h
    exact (drain_onlyPerforms s k a).performs hm
  | merge ts => exact (runMerge_onlyPerforms h).performs hm

theorem step_performs {s t : State} (h : step s = .next t) (hm : s.mem.wf = true) : Performs s t := by
  obtain ⟨ag, dr, ws, hnext⟩ := nextChoice_state s
  unfold step at h
  rw [hnext] at h
  exact turn_performs (s := { s with agenda := ag, draws := dr, waits := ws }) h hm

/-- Settles O52: every turn is made of fetches, background steps and at most one instruction, which performs only
what its thread had pending. -/
theorem memoryChangesOnlyByWritebacks : Obligations.MemoryChangesOnlyByWritebacks := by
  intro s t hs h a
  obtain hkept | ⟨th, hth, p, hp, hpa, hv⟩ := step_performs h hs.canonical a
  · exact .inl hkept
  · exact .inr ⟨th, hth, p, hp, hpa, hv.symm⟩

end Sys2Proof.Machine
end

section
/-! SUPPORT. A thread reads its own stores, and O33: what queueing a writeback does to the thread's reads, and that
every store is one (rules R44, R46, R48, R49, R200). -/

namespace Sys2Proof.Machine

/-! Reading by forwarding (rule R44). -/

/-- The one writeback a thread has pending to an address is what it reads there. -/
theorem pendingValue_of_mem {s : State} {th : Thread} (h : s.pendingOk th) {p : Pending} (hp : p ∈ th.wb) :
    th.pendingValue p.addr = some p.value := by
  cases hv : th.pendingValue p.addr with
  | none => exact absurd rfl (pendingValue_eq_none.1 hv p hp)
  | some v =>
    obtain ⟨q, hq, hqa, rfl⟩ := pendingValue_eq_some hv
    rw [pending_unique h hq hp hqa]

theorem pendingValue_queue_same {th : Thread} {a : Nat} (h : th.pendingValue a = none) (v : Word) :
    (th.queue a v).pendingValue a = some v := by
  have hnone : th.wb.find? (fun p => p.addr == a) = none := Option.map_eq_none_iff.1 h
  simp [Thread.pendingValue, List.find?_append, hnone]

theorem pendingValue_queue_other (th : Thread) {a a' : Nat} (h : a' ≠ a) (v : Word) :
    (th.queue a v).pendingValue a' = th.pendingValue a' := by
  simp [Thread.pendingValue, List.find?_append, h.symm]

/-- Performing all a thread has pending brings the memory to what the thread read before (rules R44, R47). -/
theorem read_performAll_eq_memRead {s : State} {th : Thread} (h : s.pendingOk th) (hm : s.mem.wf = true) (a : Nat) :
    ((performAll s.mem th.wb).read a).x = s.memRead th a := by
  cases hv : th.pendingValue a with
  | none => rw [memRead_of_none hv, read_performAll_other s.mem (pendingValue_eq_none.1 hv)]
  | some v =>
    obtain ⟨p, hp, hpa, -⟩ := pendingValue_eq_some hv
    obtain ⟨q, hq, rfl, hqv⟩ := read_performAll_of_addr hm ⟨p, hp, hpa⟩
    rw [hqv, memRead_of_pending (pendingValue_of_mem h hq)]

/-- What a thread reads depends on the memory and on its own pending writebacks alone. -/
theorem memRead_congr {s t : State} {th th' : Thread} (hm : t.mem = s.mem) (hw : th'.wb = th.wb) (a : Nat) :
    t.memRead th' a = s.memRead th a := by
  unfold State.memRead Thread.pendingValue
  rw [hm, hw]

/-- Queueing a writeback changes what the thread reads at its target and nowhere else, with and without a collision
(rules R44, R48, R49). -/
theorem memWrite_memRead {s s' : State} {a : Nat} {v : Word} (hs : s.Inv) (h : s.memWrite a v = some s') :
    s'.memRead s'.thread a = v ∧ ∀ a', a' ≠ a → s'.memRead s'.thread a' = s.memRead s.thread a' := by
  have hok : s.pendingOk s.thread := hs.pending _ (List.mem_of_getElem? (thread_eq_getElem s hs.running))
  obtain ⟨-, ⟨hfree, rfl⟩ | ⟨-, rfl⟩⟩ := memWrite_cases h
  · have hnone : s.thread.pendingValue a = none := by
      refine pendingValue_eq_none.2 fun p hp hpa => ?_
      have hself := hfree p hp
      rw [hpa, shareBank_self] at hself
      cases hself
    rw [thread_upd s _ hs.running]
    refine ⟨memRead_of_pending (pendingValue_queue_same hnone v), fun a' ha => ?_⟩
    unfold State.memRead
    rw [pendingValue_queue_other _ ha, upd_mem]
  · have hrun : State.Running { s with mem := performAll s.mem s.thread.wb } := hs.running
    rw [thread_upd _ _ hrun]
    refine ⟨memRead_of_pending (pendingValue_queue_same rfl v), fun a' ha => ?_⟩
    rw [← read_performAll_eq_memRead hok hs.canonical]
    exact memRead_of_none (by rw [pendingValue_queue_other _ ha]; rfl)

/-! Every store queues one writeback (rules R46, R140 to R142, R200). -/

/-- From `s` to `t` the value `v` is queued for address `a`, and after it registers alone change. -/
def QueuesOne (s t : State) (a : Nat) (v : Word) : Prop :=
  ∃ s' f, s.memWrite a v = some s' ∧ RegistersOnly f ∧ t = s'.upd f

theorem store_queuesOne {target v : Word} {s t : State} (h : store target v s = .next t) :
    QueuesOne s t target.toNat v := by
  obtain ⟨s', hm, rfl⟩ := store_next h
  exact ⟨s', _, hm, registersOnly_advance, rfl⟩

theorem customOp_queuesOne {code target v : Word} {o : Operand} {s t : State} (h : customOp code o s = .next t)
    (hst : (s.plat.custom.lookup (s.customKey code o)).bind CustomResult.store = some (target, v)) :
    QueuesOne s t target.toNat v := by
  obtain ⟨r, s', hr, hs, rfl⟩ := customOp_next h
  rw [hr, Option.bind_some] at hst
  obtain ⟨hno, -⟩ | ⟨target', v', hst', hm⟩ := hs
  · rw [hno] at hst
    cases hst
  · rw [hst'] at hst
    cases hst
    exact ⟨s', _, hm, registersOnly_custom s.plat.hasC r, rfl⟩

/-- The generic OPB of a well-formed operand is the custom operation it numbers (rules R81, R100). -/
theorem execOpb_of_wellFormed {e : Word} (h : (Instr.opb e).wellFormed = true) (s : State) :
    execOpb e s = customOp e .regB s := by
  simp only [Instr.wellFormed, Bool.and_eq_true, decide_eq_true_eq, bne_iff_ne] at h
  obtain ⟨⟨hlow, hbloadx⟩, hbsloadx⟩ := h
  unfold execOpb
  split
  case h_33 =>
    unfold opbExtended
    rw [if_neg hbloadx, if_neg hbsloadx, ite_self]
  all_goals omega

theorem exec_queuesOne {i : Instr} {s t : State} {target v : Word} (hi : storeSpec s i = some (target, v))
    (h : exec i s = .next t) : QueuesOne s t target.toNat v := by
  cases i
  case put | opbPut | putm | opbPutm =>
    cases hi
    exact store_queuesOne h
  case puts x =>
    cases hi
    rw [← shl1_eq_shl1Spec]
    exact store_queuesOne h
  case custom0 x | custom1 x | custom2 x | custom3 x | custom4 x | custom5 x | custom6 x =>
    exact customOp_queuesOne (o := .imm x) h hi
  case opbCustom0 | opbCustom1 | opbCustom2 | opbCustom3 | opbCustom4 | opbCustom5 | opbCustom6 =>
    exact customOp_queuesOne (o := .regB) h hi
  case opb e =>
    have hwf : (Instr.opb e).wellFormed = true := by
      by_contra hno
      have hnone : storeSpec s (.opb e) = none := by rw [storeSpec, customUse, if_neg hno, putSpec]
      rw [hnone] at hi
      cases hi
    rw [storeSpec, customUse, if_pos hwf] at hi
    exact customOp_queuesOne (o := .regB) ((execOpb_of_wellFormed hwf s).symm.trans h) hi
  all_goals cases hi

/-- Settles O33: the store queues one writeback, and what it does to registers after that is no matter to a read. -/
theorem ownWriteIsForwarded : Obligations.OwnWriteIsForwarded := by
  intro i s t target v hs hi h
  obtain ⟨s', f, hm, hf, rfl⟩ := exec_queuesOne hi h
  obtain ⟨hs', -⟩ := (Reach.write _ _ hm).thread hs.running
  have hread : ∀ a, (s'.upd f).memRead (s'.upd f).thread a = s'.memRead s'.thread a := by
    rw [thread_upd s' f hs']
    exact memRead_congr rfl (hf.wb _)
  simp only [hread]
  exact memWrite_memRead hs hm

end Sys2Proof.Machine
end

section
/-! SUPPORT. The fetch that faults and the background step, and O7, O34: what each does exactly (rules R22, R47, R50,
R54, R57). -/

namespace Sys2Proof.Machine

theorem runThread_of_badFetch {s : State} {t : Nat} {th : Thread} (hth : s.threads[t]? = some th)
    (hlive : th.halted = false) (hbad : s.badFetch th = true) : s.runThread t = .fault .badAddress := by
  simp [State.runThread, State.stepThread, hth, hlive, hbad]

/-- Settles O7: both reasons make the fetch bad, and a bad fetch is the fault. -/
theorem fetchOutsideMemoryFaults : Obligations.FetchOutsideMemoryFaults := by
  intro s t th rest hnext hbad
  rw [step_of_agenda hnext.agenda]
  exact runThread_of_badFetch (s := { s with agenda := rest }) hnext.thread hnext.live (badFetch_iff.2 hbad.symm)

/-! The background step (rule R54). -/

/-- Erasing depends on the test's answers on the list alone. -/
theorem eraseP_congr {α : Type} {f g : α → Bool} {l : List α} (h : ∀ x ∈ l, f x = g x) : l.eraseP f = l.eraseP g := by
  induction l with
  | nil => rfl
  | cons x l ih =>
    obtain ⟨hx, hl⟩ := List.forall_mem_cons.1 h
    rw [List.eraseP_cons, List.eraseP_cons, hx, ih hl]

/-- The background step looks for the one writeback to the address, where that one is not fresh (rules R48, R54). -/
theorem drainable_eq_beq {s : State} {th : Thread} (h : s.pendingOk th) {p q : Pending} (hp : p ∈ th.wb)
    (hf : p.fresh = false) (hq : q ∈ th.wb) : (q.addr == p.addr && !q.fresh) = (q == p) := by
  by_cases heq : q = p
  · simp [heq, hf]
  · have hne : q.addr ≠ p.addr := fun ha => heq (pending_unique h hq hp ha)
    rw [beq_false_of_ne hne, beq_false_of_ne heq, Bool.false_and]

theorem find?_drainable {s : State} {th : Thread} {p : Pending} (hok : s.pendingOk th) (hp : p ∈ th.wb)
    (hf : p.fresh = false) : (th.wb.find? fun q => q.addr == p.addr && !q.fresh) = some p := by
  cases hfind : th.wb.find? fun q => q.addr == p.addr && !q.fresh with
  | none => simpa [hf] using List.find?_eq_none.1 hfind p hp
  | some q =>
    have hq := List.mem_of_find?_eq_some hfind
    have hdrainable := List.find?_some hfind
    rw [drainable_eq_beq hok hp hf hq] at hdrainable
    rw [eq_of_beq hdrainable]

theorem eraseP_drainable {s : State} {th : Thread} {p : Pending} (hok : s.pendingOk th) (hp : p ∈ th.wb)
    (hf : p.fresh = false) : (th.wb.eraseP fun q => q.addr == p.addr && !q.fresh) = th.wb.erase p := by
  rw [List.erase_eq_eraseP']
  exact eraseP_congr fun q hq => drainable_eq_beq hok hp hf hq

/-- A background step that finds a writeback performs it and takes it off its thread's list (rules R47, R54). -/
theorem drain_of_pending {s : State} {t : Nat} {th : Thread} {p : Pending} (hok : s.pendingOk th)
    (hth : s.threads[t]? = some th) (hp : p ∈ th.wb) (hf : p.fresh = false) :
    s.drain t p.addr = { s with mem := s.mem.writeOperand p.addr p.value }.mapThread t fun th =>
      { th with wb := th.wb.eraseP fun q => q.addr == p.addr && !q.fresh } := by
  simp [State.drain, hth, find?_drainable hok hp hf]

theorem drain_thread_of_pending {s : State} {t : Nat} {th : Thread} {p : Pending} (hok : s.pendingOk th)
    (hth : s.threads[t]? = some th) (hp : p ∈ th.wb) (hf : p.fresh = false) :
    (s.drain t p.addr).threads[t]? = some { th with wb := th.wb.erase p } := by
  rw [drain_of_pending hok hth hp hf]
  simp [hth, eraseP_drainable hok hp hf]

theorem drain_mem_of_pending {s : State} {t : Nat} {th : Thread} {p : Pending} (hok : s.pendingOk th)
    (hth : s.threads[t]? = some th) (hp : p ∈ th.wb) (hf : p.fresh = false) :
    (s.drain t p.addr).mem = s.mem.writeOperand p.addr p.value := by
  rw [drain_of_pending hok hth hp hf, mapThread_mem]

theorem drain_others (s : State) (t a : Nat) {k : Nat} (hk : k ≠ t) :
    (s.drain t a).threads[k]? = s.threads[k]? := by
  obtain heq | ⟨th, p, -, -, -, -, heq⟩ := drain_cases s t a
  · rw [heq]
  · rw [heq]
    simp [hk.symm]

theorem drain_devices (s : State) (t a : Nat) : (s.drain t a).devices = s.devices := by
  obtain heq | ⟨th, p, -, -, -, -, heq⟩ := drain_cases s t a
  · rw [heq]
  · rw [heq, mapThread_devices]

/-- A background step without such a writeback is idle (rule R54). -/
theorem drain_of_none {s : State} {t a : Nat}
    (h : ∀ (th : Thread) (p : Pending), s.threads[t]? = some th → p ∈ th.wb → p.addr = a → p.fresh = true) :
    s.drain t a = s := by
  obtain hidle | ⟨th, p, hth, hp, hpa, hf, -⟩ := drain_cases s t a
  · exact hidle
  · rw [h th p hth hp hpa] at hf
    cases hf

/-- Settles O34: the first clause by `drain_of_pending`, the second by `drain_of_none`. -/
theorem backgroundStepPerformsOneWriteback : Obligations.BackgroundStepPerformsOneWriteback := by
  intro s t a rest hs hag
  rw [step_of_agenda hag]
  refine ⟨?_, fun hfresh => congrArg Host.Outcome.next (drain_of_none (s := { s with agenda := rest }) hfresh)⟩
  rintro th p hth hp rfl hf
  have hok := hs.pending th (List.mem_of_getElem? hth)
  have hmem := drain_mem_of_pending (s := { s with agenda := rest }) hok hth hp hf
  refine ⟨_, rfl, ?_, ?_, drain_thread_of_pending (s := { s with agenda := rest }) hok hth hp hf,
    fun k hk => drain_others _ t p.addr hk, drain_devices _ t p.addr, (drain_keepsParameters _ t p.addr).plat⟩
  · rw [hmem]
    exact read_writeOperand_same hs.canonical p.addr p.value
  · intro a' ha
    rw [hmem]
    exact read_writeOperand_other s.mem p.value ha

end Sys2Proof.Machine
end

section
/-! SUPPORT. Fairness, and O60: a turn that stays enabled is served, a thread that can act stays so until it acts, and
a writeback stays pending until it is performed (rules R47, R54, R220, D26). -/

namespace Sys2Proof.Machine

/-! What a step leaves of the schedule. -/

/-- What no turn touches. -/
structure SameSchedule (s t : State) : Prop where
  agenda : t.agenda = s.agenda
  waits : t.waits = s.waits

theorem exec_sameSchedule {i : Instr} {s t : State} (h : exec i s = .next t) : SameSchedule s t := by
  obtain ⟨s', f, hr, -, rfl, -⟩ := exec_effect h
  obtain ⟨-, -, hagenda, -, hwaits, -⟩ := hr.core
  exact ⟨hagenda, hwaits⟩

/-- What a merged access that is answered leaves alone: the schedule, and the threads that take no part. -/
theorem mergedPush_frame {s u : State} {ts : List Nat} {port v : Word} (h : s.mergedPush ts port v = .next u) :
    SameSchedule s u ∧ ∀ k, k ∉ ts → u.threads[k]? = s.threads[k]? := by
  obtain ⟨r, s', hp, rfl⟩ := mergedPush_next h
  obtain ⟨id, d, -, -, -, rfl⟩ := portAccess_cases hp
  obtain ⟨-, -, hagenda, -, hwaits, hothers⟩ := fetchAll_frame s ts
  cases r with
  | none => exact ⟨⟨hagenda, hwaits⟩, hothers⟩
  | some _ =>
    obtain ⟨-, -, -, hagenda', -, hwaits', hothers'⟩ := advanceAll_frame
      { s.fetchAll ts with devices := _ } ts
    exact ⟨⟨hagenda'.trans hagenda, hwaits'.trans hwaits⟩, fun k hk => (hothers' k hk).trans (hothers k hk)⟩

/-- All a merged turn leaves alone: it is idle, or a merged access is made. -/
theorem runMerge_frame {s u : State} {ts : List Nat} (h : s.runMerge ts = .next u) :
    SameSchedule s u ∧ ∀ k, (k ∈ ts → s.mergedAccess ts = none) → u.threads[k]? = s.threads[k]? := by
  obtain ⟨-, hidle⟩ | ⟨r, hr, ⟨-, hrace⟩ | ⟨-, hpush⟩⟩ := runMerge_cases s ts
  · cases hidle.symm.trans h
    exact ⟨⟨rfl, rfl⟩, fun _ _ => rfl⟩
  · cases hrace.symm.trans h
  · obtain ⟨hsched, hothers⟩ := mergedPush_frame (hpush.symm.trans h)
    refine ⟨hsched, fun k hk => hothers k fun hmem => ?_⟩
    rw [hk hmem] at hr
    cases hr

theorem runThread_sameSchedule {s u : State} {t : Nat} (h : s.runThread t = .next u) : SameSchedule s u := by
  obtain hidle | ⟨th, -, -, ⟨-, hfault⟩ | ⟨-, -, hpeek⟩ | ⟨-, -, hexec⟩⟩ := runThread_cases s t
  · cases hidle.symm.trans h
    exact ⟨rfl, rfl⟩
  · cases hfault.symm.trans h
  · cases hpeek.symm.trans h
    exact ⟨rfl, rfl⟩
  · have hsched := exec_sameSchedule (hexec.symm.trans h)
    exact ⟨hsched.agenda, hsched.waits⟩

theorem turn_sameSchedule {s u : State} {c : Choice} (h : s.turn c = .next u) : SameSchedule s u := by
  cases c with
  | run t => exact runThread_sameSchedule h
  | drain t a =>
    cases h
    obtain heq | ⟨th, p, -, -, -, -, heq⟩ := drain_cases s t a
    · rw [heq]
      exact ⟨rfl, rfl⟩
    · rw [heq]
      exact ⟨rfl, rfl⟩
  | merge ts =>
    obtain ⟨hsched, -⟩ := runMerge_frame h
    exact hsched

theorem nextChoice_agenda (s : State) : s.nextChoice.2.agenda = s.agenda.tail := by
  unfold State.nextChoice
  split
  case h_1 hag => rw [hag, List.tail_cons]
  case h_2 hag =>
    have htail : s.agenda.tail = [] := by rw [hag, List.tail_nil]
    rw [htail]
    split <;> exact hag

theorem step_agenda {s u : State} (h : step s = .next u) : u.agenda = s.agenda.tail :=
  (turn_sameSchedule h).agenda.trans (nextChoice_agenda s)

theorem step_waits {s u : State} (h : step s = .next u) : u.waits = s.nextChoice.2.waits :=
  (turn_sameSchedule h).waits

/-- A step is its turn taken in a state that differs in the schedule alone. -/
theorem step_turn {s u : State} (h : step s = .next u) :
    ∃ s' : State, s'.turn s.nextChoice.1 = .next u ∧ s'.threads = s.threads ∧ (s.Inv → s'.Inv) ∧
      ∀ ts, s'.mergedAccess ts = s.mergedAccess ts := by
  obtain ⟨ag, dr, ws, hnext⟩ := nextChoice_state s
  refine ⟨s.nextChoice.2, h, ?_, fun hs => (nextChoice_keepsInv s hs).1, fun ts => ?_⟩
  · rw [hnext]
  · rw [hnext]
    exact mergedAccess_schedule s ag dr ws ts

/-! A turn that stays enabled is served (rule R54, D26). -/

/-- An endless run of steps. -/
def EndlessRun (f : Nat → State) : Prop := ∀ k, step (f k) = .next (f (k + 1))

theorem EndlessRun.inv {f : Nat → State} (hrun : EndlessRun f) (h0 : (f 0).Inv) (k : Nat) : (f k).Inv := by
  induction k with
  | zero => exact h0
  | succ k ih => exact stepKeepsInvariant _ _ ih (hrun k)

/-- Each step takes one turn off the agenda, and none adds one: it runs out. -/
theorem EndlessRun.agenda_runs_out {f : Nat → State} (hrun : EndlessRun f) (m : Nat) :
    ∃ n, m ≤ n ∧ ∀ k, n ≤ k → (f k).agenda = [] := by
  have hdrop : ∀ j, (f (m + j)).agenda = (f m).agenda.drop j := by
    intro j
    induction j with
    | zero => rfl
    | succ j ih => rw [← Nat.add_assoc, step_agenda (hrun (m + j)), ih, List.tail_drop]
  refine ⟨m + (f m).agenda.length, Nat.le_add_right _ _, fun k hk => ?_⟩
  obtain ⟨j, rfl⟩ := Nat.exists_eq_add_of_le hk
  rw [Nat.add_assoc, hdrop]
  exact List.drop_eq_nil_of_le (Nat.le_add_right _ _)

/-- Once the agenda has run out, a turn that is enabled and not served waits, and is nearer its turn at every step. -/
theorem EndlessRun.eventually_served {f : Nat → State} (hrun : EndlessRun f) {c : Choice} {m : Nat}
    (hen : ∀ k, m ≤ k → c ∈ (f k).enabledTurns) : ∃ k, m ≤ k ∧ Served (f k) c := by
  by_contra hno
  obtain ⟨n, hmn, hempty⟩ := hrun.agenda_runs_out m
  have hprogress : ∀ k, n ≤ k → (∃ b, WaitsWithin (f (k + 1)).waits c b) ∧
      ∀ b, WaitsWithin (f k).waits c b → ∃ j, b = j + 1 ∧ WaitsWithin (f (k + 1)).waits c j := by
    intro k hk
    rw [step_waits (hrun k)]
    exact (wait_progress (hempty k hk) (hen k (hmn.trans hk))).resolve_left fun h => hno ⟨k, hmn.trans hk, h⟩
  have hnever : ∀ b k, n ≤ k → ¬ WaitsWithin (f k).waits c b := by
    intro b
    induction b with
    | zero =>
      intro k hk h
      obtain ⟨-, hnearer⟩ := hprogress k hk
      obtain ⟨j, hj, -⟩ := hnearer 0 h
      omega
    | succ b ih =>
      intro k hk h
      obtain ⟨-, hnearer⟩ := hprogress k hk
      obtain ⟨j, hj, hw⟩ := hnearer (b + 1) h
      cases hj
      exact ih (k + 1) (by omega) hw
  obtain ⟨⟨b, hb⟩, -⟩ := hprogress n le_rfl
  exact hnever b (n + 1) (Nat.le_succ n) hb

/-! A thread that can act stays so until it acts (rule R102). -/

theorem acts_of_served {s : State} {t : Nat} (h : Served s (.run t)) : s.acts t := by
  obtain hrun | ⟨ts, hts, hsome, hmem⟩ := h
  · exact .inl hrun
  · refine .inr ⟨ts, hts, ?_, hsome⟩
    obtain ⟨k, hk, hkt⟩ := List.mem_map.1 hmem
    cases hkt
    exact hk

/-- A turn in which thread `t` makes no step leaves its halted flag alone. -/
theorem turn_halted {s u : State} {c : Choice} {t : Nat} {th : Thread} (h : s.turn c = .next u)
    (hth : s.threads[t]? = some th) (hrun : c ≠ .run t)
    (hmerge : ∀ ts, c = .merge ts → t ∈ ts → s.mergedAccess ts = none) :
    ∃ th', u.threads[t]? = some th' ∧ th'.halted = th.halted := by
  cases c with
  | run k =>
    have hk : t ≠ k := fun he => hrun (he ▸ rfl)
    exact ⟨th, (aThreadTouchesOnlyItself s u k h t hk).trans hth, rfl⟩
  | drain k a =>
    cases h
    obtain heq | ⟨-, p, -, -, -, -, heq⟩ := drain_cases s k a
    · rw [heq]
      exact ⟨th, hth, rfl⟩
    · rw [heq, mapThread_getElem?, hth]
      refine ⟨_, rfl, ?_⟩
      split <;> rfl
  | merge ts =>
    obtain ⟨-, hothers⟩ := runMerge_frame h
    exact ⟨th, (hothers t (hmerge ts rfl)).trans hth, rfl⟩

theorem step_halted {s u : State} {t : Nat} {th : Thread} (h : step s = .next u) (hth : s.threads[t]? = some th)
    (hno : ¬ s.acts t) : ∃ th', u.threads[t]? = some th' ∧ th'.halted = th.halted := by
  obtain ⟨s', hturn, hthreads, -, hmerged⟩ := step_turn h
  refine turn_halted hturn (hthreads ▸ hth) (fun hrun => hno (.inl hrun)) fun ts hts hmem => ?_
  by_contra hsome
  refine hno (.inr ⟨ts, hts, hmem, ?_⟩)
  rw [← hmerged, Option.isSome_iff_ne_none]
  exact hsome

/-- A thread that is not halted makes a step, sooner or later. -/
theorem EndlessRun.eventually_acts {f : Nat → State} (hrun : EndlessRun f) {m t : Nat} {th : Thread}
    (hth : (f m).threads[t]? = some th) (hlive : th.halted = false) : ∃ k, m ≤ k ∧ (f k).acts t := by
  by_contra hno
  have hstays : ∀ k, m ≤ k → ∃ th', (f k).threads[t]? = some th' ∧ th'.halted = false := by
    intro k hk
    induction k, hk using Nat.le_induction with
    | base => exact ⟨th, hth, hlive⟩
    | succ k hk ih =>
      obtain ⟨th', hth', hlive'⟩ := ih
      obtain ⟨th'', hth'', hsame⟩ := step_halted (hrun k) hth' fun hacts => hno ⟨k, hk, hacts⟩
      exact ⟨th'', hth'', hsame.trans hlive'⟩
  obtain ⟨k, hk, hserved⟩ := hrun.eventually_served fun k hk => run_mem_enabledTurns.2 (hstays k hk)
  exact hno ⟨k, hk, acts_of_served hserved⟩

/-! A writeback stays pending until it is performed (rules R47, R54). -/

/-- Thread `t` has the writeback `p` pending. -/
def State.HasPending (s : State) (t : Nat) (p : Pending) : Prop := ∃ th, s.threads[t]? = some th ∧ p ∈ th.wb

/-- Where a fetch does not perform a writeback, it stays as it is; where it does, none stays to that address. -/
theorem fetch_keeps_or_performs {s : State} {t : Nat} {th : Thread} {p : Pending} (hs : s.Inv)
    (hth : s.threads[t]? = some th) (hp : p ∈ th.wb) (hf : p.fresh = false) :
    p ∈ (th.fetched th.addr).wb ∨
    (∀ q ∈ (th.fetched th.addr).wb, q.addr ≠ p.addr) ∧ ((s.fetch t th).mem.read p.addr).x = p.value := by
  by_cases ha : p.addr = th.addr
  · have hv := pendingValue_of_mem (hs.pending th (List.mem_of_getElem? hth)) hp
    rw [ha] at hv ⊢
    refine .inr ⟨pendingValue_eq_none.1 (pendingValue_fetched th th.addr), ?_⟩
    rw [fetch_mem, hv]
    dsimp only
    rw [read_writeOperand_same hs.canonical]
  · have hsame : { p with fresh := false } = p := by rw [← hf]
    exact .inl (List.mem_map.2 ⟨p, List.mem_filter.2 ⟨hp, by simpa using ha⟩, hsame⟩)

theorem exec_keeps_or_performs {i : Instr} {s u : State} {p : Pending} (hs : s.Inv) (h : exec i s = .next u)
    (hp : p ∈ s.thread.wb) : p ∈ u.thread.wb ∨ (u.mem.read p.addr).x = p.value := by
  obtain ⟨-, hkept⟩ | hall := exec_reachesMemory h hs.running
  · exact .inl (hkept p hp)
  · have hok := hs.pending s.thread (List.mem_of_getElem? (thread_eq_getElem s hs.running))
    right
    rw [hall, read_performAll_eq_memRead hok hs.canonical, memRead_of_pending (pendingValue_of_mem hok hp)]

theorem exec_read_of_nonePending {i : Instr} {s u : State} {a : Nat} (hs : s.Running) (h : exec i s = .next u)
    (hno : ∀ p ∈ s.thread.wb, p.addr ≠ a) : u.mem.read a = s.mem.read a := by
  obtain ⟨hmem, -⟩ | hall := exec_reachesMemory h hs
  · rw [hmem]
  · rw [hall, read_performAll_other s.mem hno]

/-- An instruction keeps its thread the executing one. -/
theorem exec_thread {i : Instr} {s u : State} (hs : s.Running) (h : exec i s = .next u) :
    u.threads[s.cur]? = some u.thread := by
  obtain ⟨s', f, hr, -, rfl, -⟩ := exec_effect h
  obtain ⟨hs', -⟩ := hr.thread hs
  obtain ⟨-, hcur, -⟩ := hr.core
  rw [← hcur]
  exact thread_eq_getElem _ ((running_upd s' f).2 hs')

theorem runThread_keeps_or_performs {s u : State} {t : Nat} {p : Pending} (hs : s.Inv)
    (h : s.runThread t = .next u) (hp : s.HasPending t p) (hf : p.fresh = false) :
    u.HasPending t p ∨ (u.mem.read p.addr).x = p.value := by
  obtain hidle | ⟨th, hth, -, ⟨-, hfault⟩ | ⟨-, -, hpeek⟩ | ⟨-, -, hexec⟩⟩ := runThread_cases s t
  · cases hidle.symm.trans h
    exact .inl hp
  · cases hfault.symm.trans h
  all_goals
    obtain ⟨th₁, hth₁, hp⟩ := hp
    obtain rfl : th₁ = th := Option.some.inj (hth₁.symm.trans hth)
    have hfetch := fetch_keeps_or_performs hs hth hp hf
    have hthread := thread_fetch hth
  · cases hpeek.symm.trans h
    exact hfetch.imp (fun hkept =>
      ⟨(th₁.fetched th₁.addr).peeked (s.memRead th₁ th₁.addr), by simp [hth], hkept⟩) And.right
  · have hexec := hexec.symm.trans h
    have hs' : (s.fetch t th₁).Inv := (fetch_keepsInv hth hs).1
    obtain hkept | ⟨hnone, hv⟩ := hfetch
    · obtain hkept | hv := exec_keeps_or_performs hs' hexec (hthread ▸ hkept)
      · exact .inl ⟨_, exec_thread hs'.running hexec, hkept⟩
      · exact .inr hv
    · right
      rw [exec_read_of_nonePending hs'.running hexec (hthread ▸ hnone), hv]

theorem drain_keeps_or_performs {s : State} {t a : Nat} {p : Pending} (hs : s.Inv) (hp : s.HasPending t p)
    (hf : p.fresh = false) : (s.drain t a).HasPending t p ∨ ((s.drain t a).mem.read p.addr).x = p.value := by
  obtain ⟨th, hth, hp⟩ := hp
  by_cases ha : a = p.addr
  · subst ha
    right
    rw [drain_mem_of_pending (hs.pending th (List.mem_of_getElem? hth)) hth hp hf,
      read_writeOperand_same hs.canonical]
  · left
    obtain heq | ⟨-, q, -, -, -, -, heq⟩ := drain_cases s t a
    · rw [heq]
      exact ⟨th, hth, hp⟩
    · refine ⟨{ th with wb := th.wb.eraseP fun q => q.addr == a && !q.fresh }, by rw [heq]; simp [hth], ?_⟩
      exact (List.mem_eraseP_of_neg (by simp [Ne.symm ha])).2 hp

/-- A turn but a merged one keeps a writeback that is not fresh pending, or leaves its value at its address. -/
theorem turn_keeps_or_performs {s u : State} {c : Choice} {t : Nat} {p : Pending} (hs : s.Inv)
    (h : s.turn c = .next u) (hp : s.HasPending t p) (hf : p.fresh = false) :
    u.HasPending t p ∨ (u.mem.read p.addr).x = p.value ∨ ∃ ts, c = .merge ts := by
  cases c with
  | run k =>
    by_cases hk : k = t
    · subst hk
      exact (runThread_keeps_or_performs hs h hp hf).imp id .inl
    · left
      unfold State.HasPending
      rwa [aThreadTouchesOnlyItself s u k h t (Ne.symm hk)]
  | drain k a =>
    cases h
    by_cases hk : k = t
    · subst hk
      exact (drain_keeps_or_performs hs hp hf).imp id .inl
    · left
      unfold State.HasPending
      rwa [drain_others s k a (Ne.symm hk)]
  | merge ts => exact .inr (.inr ⟨ts, rfl⟩)

/-- The step from `s` to `u` takes the writeback `p` off thread `t`'s list and leaves its value at its address, where
no merged access lets another participant write there in the same turn (log entry 13). -/
def StepPerforms (s u : State) (t : Nat) (p : Pending) : Prop :=
  ∃ th₁ th₂, s.threads[t]? = some th₁ ∧ p ∈ th₁.wb ∧ u.threads[t]? = some th₂ ∧ p ∉ th₂.wb ∧
    ((u.mem.read p.addr).x = p.value ∨ ∃ ts, s.nextChoice.1 = .merge ts)

theorem step_keeps_or_performs {s u : State} {t : Nat} {p : Pending} (hs : s.Inv) (h : step s = .next u)
    (hp : s.HasPending t p) (hf : p.fresh = false) : u.HasPending t p ∨ StepPerforms s u t p := by
  obtain ⟨th, hth, hpth⟩ := hp
  obtain ⟨s', hturn, hthreads, hinv, -⟩ := step_turn h
  have hp' : s'.HasPending t p := ⟨th, hthreads ▸ hth, hpth⟩
  have hlt : t < u.threads.length := (step_keepsParameters h).threadCount ▸ (List.getElem?_eq_some_iff.1 hth).1
  have hu : u.threads[t]? = some u.threads[t] := List.getElem?_eq_getElem hlt
  by_cases hkept : p ∈ u.threads[t].wb
  · exact .inl ⟨_, hu, hkept⟩
  · refine .inr ⟨th, _, hth, hpth, hu, hkept, ?_⟩
    refine (turn_keeps_or_performs (hinv hs) hturn hp' hf).resolve_left ?_
    rintro ⟨th', hth', hmem⟩
    obtain rfl : u.threads[t] = th' := Option.some.inj (hu.symm.trans hth')
    exact hkept hmem

/-- No writeback stands twice on a thread's list (rules R48, R54). -/
theorem pending_nodup {s : State} {th : Thread} (h : s.pendingOk th) : th.wb.Nodup := by
  obtain ⟨-, hpair, -⟩ := h
  refine hpair.imp fun {p q} hpq heq => ?_
  rw [heq, shareBank_self] at hpq
  cases hpq

/-- The background step of a pending writeback's own turn performs it. -/
theorem step_performs_of_drain {s u : State} {t : Nat} {p : Pending} (hs : s.Inv) (h : step s = .next u)
    (hp : s.HasPending t p) (hf : p.fresh = false) (hc : s.nextChoice.1 = .drain t p.addr) :
    StepPerforms s u t p := by
  obtain ⟨th, hth, hpth⟩ := hp
  obtain ⟨s', hturn, hthreads, hinv, -⟩ := step_turn h
  rw [hc] at hturn
  cases hturn
  have hth' : s'.threads[t]? = some th := hthreads ▸ hth
  have hok := (hinv hs).pending th (List.mem_of_getElem? hth')
  refine ⟨th, _, hth, hpth, drain_thread_of_pending hok hth' hpth hf, (pending_nodup hok).not_mem_erase, .inl ?_⟩
  rw [drain_mem_of_pending hok hth' hpth hf, read_writeOperand_same (hinv hs).canonical]

/-- A background step is served by itself alone. -/
theorem nextChoice_of_served_drain {s : State} {t a : Nat} (h : Served s (.drain t a)) :
    s.nextChoice.1 = .drain t a := by
  obtain hself | ⟨ts, -, -, hmem⟩ := h
  · exact hself
  · obtain ⟨k, -, hk⟩ := List.mem_map.1 hmem
    cases hk

/-- A writeback that is not fresh is performed, sooner or later. -/
theorem EndlessRun.eventually_performs {f : Nat → State} (hrun : EndlessRun f) (h0 : (f 0).Inv) {m t : Nat}
    {p : Pending} (hp : (f m).HasPending t p) (hf : p.fresh = false) :
    ∃ k, m ≤ k ∧ StepPerforms (f k) (f (k + 1)) t p := by
  by_contra hno
  have hstays : ∀ k, m ≤ k → (f k).HasPending t p := by
    intro k hk
    induction k, hk using Nat.le_induction with
    | base => exact hp
    | succ k hk ih =>
      exact (step_keeps_or_performs (hrun.inv h0 k) (hrun k) ih hf).resolve_right fun hperf => hno ⟨k, hk, hperf⟩
  obtain ⟨k, hk, hserved⟩ := hrun.eventually_served (c := .drain t p.addr) fun k hk => by
    obtain ⟨th, hth, hpth⟩ := hstays k hk
    exact drain_mem_enabledTurns.2 ⟨th, hth, p, hpth, hf, rfl⟩
  exact hno ⟨k, hk, step_performs_of_drain (hrun.inv h0 k) (hrun k) (hstays k hk) hf
    (nextChoice_of_served_drain hserved)⟩

/-- Settles O60: the invariant leaves a halted thread nothing fresh, so that either premise is a thread that can act;
it does, and its writebacks are performed. -/
theorem scheduleIsFair : Obligations.ScheduleIsFair := by
  intro f h0 hrun m t th hth
  obtain ⟨-, -, hhalted⟩ := (EndlessRun.inv hrun h0 m).pending th (List.mem_of_getElem? hth)
  refine ⟨fun hcan => ?_, fun p hp hf => ?_⟩
  · have hlive : th.halted = false := by
      obtain hlive | ⟨p, hp, hfresh⟩ := hcan
      · exact hlive
      · by_contra hh
        rw [hhalted (by simpa using hh) p hp] at hfresh
        cases hfresh
    exact EndlessRun.eventually_acts hrun hth hlive
  · obtain ⟨k, hk, th₁, th₂, hperf⟩ := EndlessRun.eventually_performs hrun h0 ⟨th, hth, hp⟩ hf
    exact ⟨k, th₁, th₂, hk, hperf⟩

end Sys2Proof.Machine
end

section
/-! SUPPORT. The decoder and the encoder, and O1 to O5: what the decoder answers for each opcode and each OPB number
(rules R73, R75), and that decoding and encoding undo each other (rules R78, R82). -/

namespace Sys2Proof.Machine

/-! What the decoder answers (rules R73, R75). -/

theorem decode_puts {x : Word} (h : x.msb = true) : decode ⟨0x0B, x⟩ = .puts x := if_pos h

theorem decode_putm {x : Word} (h : x.msb = false) : decode ⟨0x0B, x⟩ = .putm x := if_neg (by simp [h])

/-- The numbers of the row 0x20 to 0x27 need no bound of their own: BLOADX and BSLOADX lie in it (rule R76). -/
theorem decodeOpbExtended_eq (e : Word) : decodeOpbExtended e =
    if e.toNat = Config.opxBloadx then .opbBloadx
    else if e.toNat = Config.opxBsloadx then .opbBsloadx
    else .opb e := by
  have hlow := opxBloadx_bounds
  have hhigh := opxBsloadx_upper
  unfold decodeOpbExtended
  split
  case isTrue => rfl
  case isFalse hrow => rw [if_neg (by omega), if_neg (by omega)]

/-- From 0x20 on an OPB number is no basic operation and not HALT (rule R75). -/
theorem decodeOpb_of_extended {e : Word} (h : 0x20 ≤ e.toNat) : decodeOpb e = decodeOpbExtended e := by
  unfold decodeOpb
  split
  case h_33 => rfl
  all_goals omega

theorem decode_opb_of_extended {e : Word} (h : 0x20 ≤ e.toNat) : decode ⟨0x1F, e⟩ =
    if e.toNat = Config.opxBloadx then .opbBloadx
    else if e.toNat = Config.opxBsloadx then .opbBsloadx
    else .opb e :=
  (decodeOpb_of_extended h).trans (decodeOpbExtended_eq e)

/-- What the three restrictions of a reserved OPB operand say (rules R75, R81). -/
theorem wellFormed_opb_iff {e : Word} : (Instr.opb e).wellFormed = true ↔
    0x20 ≤ e.toNat ∧ e.toNat ≠ Config.opxBloadx ∧ e.toNat ≠ Config.opxBsloadx := by
  simp [Instr.wellFormed, and_assoc]

theorem toNat_ofNat_opx {n : Nat} (h : n ≤ Config.opxBsloadx) : (BitVec.ofNat 32 n).toNat = n := by
  have := opxBsloadx_upper
  rw [BitVec.toNat_ofNat, Nat.mod_eq_of_lt (by omega)]

/-- Settles O5: the words are closed, and none is in the row that the bodiless constants of rule R76 divide. -/
theorem sampleWordsDecode : Obligations.SampleWordsDecode := by
  unfold Obligations.SampleWordsDecode
  decide

/-- Settles O4: the opcode alone decides, but for 0x0B, where bit 31 of X does. -/
theorem plainDecoding : Obligations.PlainDecoding := fun _ =>
  ⟨rfl, rfl, rfl, rfl, rfl, rfl, rfl, rfl, rfl, rfl, rfl, rfl, rfl, rfl, rfl,
    rfl, rfl, rfl, rfl, rfl, rfl, rfl, rfl, rfl, rfl, rfl, rfl, rfl, rfl, rfl,
    decode_puts, decode_putm⟩

/-- Settles O3: the numbers below 0x20 one by one, the others by `decode_opb_of_extended`. -/
theorem opbDecoding : Obligations.OpbDecoding :=
  ⟨rfl, rfl, rfl, rfl, rfl, rfl, rfl, rfl, rfl, rfl, rfl, rfl, rfl, rfl, rfl, rfl,
    rfl, rfl, rfl, rfl, rfl, rfl, rfl, rfl, rfl, rfl, rfl, rfl, rfl, rfl, rfl, rfl,
    fun _ => decode_opb_of_extended⟩

/-! Decoding after encoding (rules R73, R75, R78). -/

theorem decode_encode_opb {e : Word} (h : (Instr.opb e).wellFormed = true) : decode (encode (.opb e)) = .opb e := by
  obtain ⟨hlow, hbloadx, hbsloadx⟩ := wellFormed_opb_iff.1 h
  exact (decode_opb_of_extended hlow).trans ((if_neg hbloadx).trans (if_neg hbsloadx))

theorem decode_encode_opbBloadx : decode (encode .opbBloadx) = .opbBloadx := by
  obtain ⟨hlow, hlt⟩ := opxBloadx_bounds
  have hnum := toNat_ofNat_opx hlt.le
  exact (decode_opb_of_extended (hnum.symm ▸ hlow)).trans (if_pos hnum)

theorem decode_encode_opbBsloadx : decode (encode .opbBsloadx) = .opbBsloadx := by
  obtain ⟨hlow, hlt⟩ := opxBloadx_bounds
  have hnum := toNat_ofNat_opx (le_refl Config.opxBsloadx)
  exact (decode_opb_of_extended (by omega)).trans ((if_neg (by omega)).trans (if_pos hnum))

/-- Settles O1: an operand matters to the decoder for PUTS and PUTM, which share an opcode, and for the numbers of OPB
from 0x20 on; every other instruction has an opcode, or a number below 0x20, of its own. -/
theorem decodeEncodeRoundTrip : Obligations.DecodeEncodeRoundTrip := by
  intro i h
  cases i
  case puts x => exact decode_puts h
  case putm x => exact decode_putm (by simpa [Instr.wellFormed] using h)
  case opb e => exact decode_encode_opb h
  case opbBloadx => exact decode_encode_opbBloadx
  case opbBsloadx => exact decode_encode_opbBsloadx
  all_goals rfl

/-! Encoding after decoding (rules R78, R82). -/

/-- `i` is well formed and `w` is its word. -/
def IsWordOf (w : CodeWord) (i : Instr) : Prop := i.wellFormed = true ∧ encode i = w

theorem isWordOf_of_op {w : CodeWord} {i : Instr} {k : Nat} (h : w.op.toNat = k) (hwf : i.wellFormed = true)
    (hi : encode i = ⟨BitVec.ofNat 5 k, w.x⟩) : IsWordOf w i :=
  ⟨hwf, by rw [hi, ← h, BitVec.ofNat_toNat, BitVec.setWidth_eq]⟩

theorem isWordOf_of_opbNumber {e : Word} {i : Instr} {k : Nat} (h : e.toNat = k) (hwf : i.wellFormed = true)
    (hi : encode i = ⟨0x1F, BitVec.ofNat 32 k⟩) : IsWordOf ⟨0x1F, e⟩ i :=
  ⟨hwf, by rw [hi, ← h, BitVec.ofNat_toNat, BitVec.setWidth_eq]⟩

theorem isWordOf_decodeOpbExtended {e : Word} (h : 0x20 ≤ e.toNat) : IsWordOf ⟨0x1F, e⟩ (decodeOpbExtended e) := by
  rw [decodeOpbExtended_eq]
  split_ifs with hbloadx hbsloadx
  · exact isWordOf_of_opbNumber hbloadx rfl rfl
  · exact isWordOf_of_opbNumber hbsloadx rfl rfl
  · exact ⟨wellFormed_opb_iff.2 ⟨h, hbloadx, hbsloadx⟩, rfl⟩

theorem isWordOf_decodeOpb (e : Word) : IsWordOf ⟨0x1F, e⟩ (decodeOpb e) := by
  unfold decodeOpb
  split
  case h_33 =>
    simp only [imp_false] at *
    exact isWordOf_decodeOpbExtended (by omega)
  all_goals exact isWordOf_of_opbNumber ‹_› rfl rfl

theorem isWordOf_putsOrPutm {w : CodeWord} (h : w.op.toNat = 0x0B) :
    IsWordOf w (if w.x.msb then .puts w.x else .putm w.x) := by
  split
  case isTrue hmsb => exact isWordOf_of_op h hmsb rfl
  case isFalse hmsb => exact isWordOf_of_op h (by simpa [Instr.wellFormed] using hmsb) rfl

/-- Settles O2: along the opcodes; 0x0B is PUTS or PUTM, and what is left after 0x1E is OPB. -/
theorem everyWordIsOneInstruction : Obligations.EveryWordIsOneInstruction := by
  intro w
  change IsWordOf w (decode w)
  unfold decode
  split
  case h_12 => exact isWordOf_putsOrPutm ‹_›
  case h_32 =>
    simp only [imp_false] at *
    have hop : w.op = 0x1F := BitVec.eq_of_toNat_eq (show w.op.toNat = 31 by omega)
    have hw : w = ⟨0x1F, w.x⟩ := by rw [← hop]
    rw [hw]
    exact isWordOf_decodeOpb w.x
  all_goals exact isWordOf_of_op ‹_› rfl rfl

end Sys2Proof.Machine
end

section
/-! SUPPORT. The instructions that go through CUSTOM, and O45: each is a custom operation, which faults where CUSTOM
gives it no meaning (rules R80, R81, R200). -/

namespace Sys2Proof.Machine

/-- The custom codes are 0x18 to 0x1E, the same in both forms (rule R80). -/
theorem customUse_decode {k : BitVec 5} (hlow : 0x18 ≤ k.toNat) (hhigh : k.toNat ≤ 0x1E) (x : Word) :
    customUse (decode ⟨k, x⟩) = some (.plain, k.setWidth 32, some x) ∧
    customUse (decode ⟨0x1F, k.setWidth 32⟩) = some (.opb, k.setWidth 32, none) := by
  have hk : k = 0x18 ∨ k = 0x19 ∨ k = 0x1A ∨ k = 0x1B ∨ k = 0x1C ∨ k = 0x1D ∨ k = 0x1E := by bv_omega
  obtain rfl | rfl | rfl | rfl | rfl | rfl | rfl := hk
  all_goals exact ⟨rfl, rfl⟩

/-- An instruction that goes through CUSTOM is the custom operation of its code, on the operand of its form, and asks
CUSTOM what `customAsk` says (rules R74, R200). -/
theorem exec_of_customUse {i : Instr} {form : Form} {code : Word} {x : Option Word}
    (h : customUse i = some (form, code, x)) (s : State) :
    ∃ o, exec i s = customOp code o s ∧ s.customKey code o = customAsk s form code x := by
  cases i
  case custom0 x | custom1 x | custom2 x | custom3 x | custom4 x | custom5 x | custom6 x =>
    cases h
    exact ⟨.imm x, rfl, rfl⟩
  case opbCustom0 | opbCustom1 | opbCustom2 | opbCustom3 | opbCustom4 | opbCustom5 | opbCustom6 =>
    cases h
    exact ⟨.regB, rfl, rfl⟩
  case opb e =>
    obtain ⟨hwf, heq⟩ := Option.ite_none_right_eq_some.1 h
    cases heq
    exact ⟨.regB, execOpb_of_wellFormed hwf s, rfl⟩
  all_goals cases h

theorem customOp_of_lookup_none {code : Word} {o : Operand} {s : State}
    (h : s.plat.custom.lookup (s.customKey code o) = none) : customOp code o s = .fault .reservedOpcode := by
  rw [customOp, h]

/-- Settles O45: `customUse_decode` for the codes, `exec_of_customUse` for their execution. -/
theorem customWithoutMeaningFaults : Obligations.CustomWithoutMeaningFaults := by
  refine ⟨fun k x hlow hhigh => customUse_decode hlow hhigh x, fun i s form code x huse hnone => ?_⟩
  obtain ⟨o, hexec, hkey⟩ := exec_of_customUse huse s
  rw [hexec]
  exact customOp_of_lookup_none (hkey ▸ hnone)

end Sys2Proof.Machine
end

section
/-! SUPPORT. An instruction placed where the next step fetches, and O10: what `withFetchWord` makes ready (log entry 20),
and that the step which follows executes it (rules R31, R71, R224). -/

namespace Sys2Proof.Machine

/-! The words of the table's numbering (rule R71; log entry 21). -/

/-- The packing has 37 bits: those above are dropped. -/
theorem ofPacked_mod (n : Nat) : CodeWord.ofPacked (n % 2 ^ 37) = CodeWord.ofPacked n := by
  have hop : BitVec.ofNat 5 (n % 2 ^ 37 / 2 ^ 32) = BitVec.ofNat 5 (n / 2 ^ 32) :=
    BitVec.eq_of_toNat_eq (by simp only [BitVec.toNat_ofNat]; omega)
  have hx : BitVec.ofNat 32 (n % 2 ^ 37) = BitVec.ofNat 32 n :=
    BitVec.eq_of_toNat_eq (by simp only [BitVec.toNat_ofNat]; omega)
  rw [CodeWord.ofPacked, hop, hx, CodeWord.ofPacked]

/-- A number of the table decodes to what its word decodes to. -/
theorem decodeTableWord_eq (nbits w : Nat) :
    decodeTableWord nbits w = some (decode (CodeWord.ofPacked (w % 2 ^ nbits))) := by
  rw [decodeTableWord, decodePacked, if_pos (Nat.mod_lt _ (by decide)), ofPacked_mod]

/-! A thread made ready to fetch. -/

/-- The address a thread is made ready to fetch: its own where it exists, else 0. -/
def Thread.readyAddr (th : Thread) (size : Nat) : Nat :=
  if th.overrun || decide (size ≤ th.addr) then 0 else th.addr

theorem readyAddr_lt (th : Thread) {size : Nat} (h : 0 < size) : th.readyAddr size < size := by
  unfold Thread.readyAddr
  split
  case isTrue => exact h
  case isFalse hgood =>
    simp only [Bool.or_eq_true, decide_eq_true_eq, not_or] at hgood
    omega

theorem readyAddr_lt_two_pow (th : Thread) (size : Nat) : th.readyAddr size < 2 ^ 31 := by
  have haddr : th.addr < 2 ^ 31 := Nat.mod_lt _ (by decide)
  unfold Thread.readyAddr
  split
  · decide
  · exact haddr

theorem readied_pc_toNat (th : Thread) (size : Nat) : (th.readied size).pc.toNat = th.readyAddr size := by
  have hlt := readyAddr_lt_two_pow th size
  change (BitVec.ofNat 32 (th.readyAddr size)).toNat = th.readyAddr size
  rw [BitVec.toNat_ofNat, Nat.mod_eq_of_lt (by omega)]

theorem readied_addr (th : Thread) (size : Nat) : (th.readied size).addr = th.readyAddr size := by
  rw [Thread.addr, readied_pc_toNat, Nat.mod_eq_of_lt (readyAddr_lt_two_pow th size)]

theorem readied_getter (th : Thread) (size : Nat) : (th.readied size).getter = false := by
  have hlt := readyAddr_lt_two_pow th size
  rw [Thread.getter, BitVec.msb_eq_decide, readied_pc_toNat, decide_eq_false_iff_not]
  omega

theorem readied_pendingValue (th : Thread) (size : Nat) :
    (th.readied size).pendingValue (th.readied size).addr = none := by
  rw [pendingValue_eq_none, readied_addr]
  intro p hp
  exact bne_iff_ne.1 (List.mem_filter.1 hp).2

/-! The state with a word placed. -/

/-- Thread 0 as `place` leaves it. -/
def State.placedThread (s : State) : Thread :=
  (s.threads[0]?.getD Thread.launch).readied (max 1 s.plat.codeSize)

theorem place_thread_zero (s : State) (w : CodeWord) : (s.place w).threads[0]? = some s.placedThread := rfl

theorem place_badFetch (s : State) (w : CodeWord) : (s.place w).badFetch s.placedThread = false := by
  rw [State.badFetch, Bool.or_eq_false_iff, decide_eq_false_iff_not, Nat.not_le]
  refine ⟨rfl, ?_⟩
  rw [State.placedThread, readied_addr]
  exact readyAddr_lt _ (by omega)

/-- The word fetched is the word placed: nothing is pending that would be forwarded instead (rule R44). -/
theorem place_fetchedWord {s : State} (h : s.mem.wf = true) (w : CodeWord) :
    (s.place w).fetchedWord s.placedThread = w := by
  have hread : (s.place w).mem.read s.placedThread.addr = w := read_write_same h _ w
  have hnone : s.placedThread.pendingValue s.placedThread.addr = none := readied_pendingValue _ _
  rw [State.fetchedWord, memRead_of_none hnone, hread]

/-- The step after a word is placed executes it, on thread 0 (rule R31). -/
theorem step_place {s : State} (h : s.mem.wf = true) (w : CodeWord) :
    step (s.place w) = exec (decode w) ({ s.place w with agenda := s.agenda }.fetch 0 s.placedThread) := by
  calc step (s.place w)
    _ = State.runThread { s.place w with agenda := s.agenda } 0 := step_of_agenda (c := .run 0) rfl
    _ = exec (decode ((s.place w).fetchedWord s.placedThread)) _ :=
        runThread_of_normal (s := { s.place w with agenda := s.agenda }) (place_thread_zero s w) rfl
          (place_badFetch s w) (readied_getter _ _)
    _ = _ := by rw [place_fetchedWord h]

/-- Settles O10: `step_place`, with the word that `i` was decoded from. -/
theorem fetchWordIsRunNext : Obligations.FetchWordIsRunNext := by
  intro s nbits w i hwf hdec
  rw [decodeTableWord_eq] at hdec
  cases hdec
  exact ⟨s.placedThread, place_thread_zero s _, step_place hwf _⟩

end Sys2Proof.Machine
end

section
/-! SUPPORT. The load family, and O11 to O16: each completes as a register transfer (rules R103 to R109). -/

namespace Sys2Proof.Machine

/-- A register transfer completes in every state, with both new values read from the thread as it stood (rule R8). -/
theorem completes_registers {i : Instr} {s : State} {acc b : Thread → Word} {v w : Word} (hs : s.Running)
    (h : exec i s = registers acc b s) (hacc : acc s.thread = v) (hb : b s.thread = w) :
    Completes i s (s.thread.pairThenNext v w) := by
  subst hacc hb
  exact completes_upd hs h rfl

/-- Settles O11: a register transfer of XB to Acc and of B to itself. -/
theorem loadLoadsAcc : Obligations.LoadLoadsAcc :=
  ⟨fun _ => rfl, rfl, fun _ hs =>
    ⟨fun _ => completes_registers hs rfl rfl rfl, completes_registers hs rfl rfl rfl⟩⟩

/-- Settles O12: a register transfer of XB to Acc and of Acc to B. -/
theorem bloadSavesAccInB : Obligations.BloadSavesAccInB :=
  ⟨fun _ => rfl, rfl, fun _ hs =>
    ⟨fun _ => completes_registers hs rfl rfl rfl, completes_registers hs rfl rfl rfl⟩⟩

/-- Settles O13: a register transfer of XB to Acc and of `shl1` of Acc to B, which `shl1_eq_shl1Spec` puts in the
terms of rule R108. -/
theorem bsloadSavesPowerInB : Obligations.BsloadSavesPowerInB :=
  ⟨fun _ => rfl, rfl, fun s hs =>
    have hpower := shl1_eq_shl1Spec s.thread.acc
    ⟨fun _ => completes_registers hs rfl rfl hpower, completes_registers hs rfl rfl hpower⟩⟩

/-- Settles O14: a register transfer of Acc to B; the word is the one BLOADX encodes to. -/
theorem bloadxCopiesAcc : Obligations.BloadxCopiesAcc :=
  ⟨decode_encode_opbBloadx, fun _ hs => completes_registers hs rfl rfl rfl⟩

/-- Settles O15: a register transfer of `shl1` of Acc to B; the word is the one BSLOADX encodes to. -/
theorem bsloadxPutsPowerInB : Obligations.BsloadxPutsPowerInB :=
  ⟨decode_encode_opbBsloadx, fun _ hs => completes_registers hs rfl rfl (shl1_eq_shl1Spec _)⟩

/-- Settles O16: a register transfer of `shl1` of Acc to Acc and of B to itself. -/
theorem shiftMakesPower : Obligations.ShiftMakesPower :=
  ⟨rfl, fun s hs => completes_registers (w := s.thread.b) hs rfl (shl1_eq_shl1Spec _) rfl⟩

end Sys2Proof.Machine
end

section
/-! SUPPORT. HALT, and O17: a halted thread takes no part in any turn but the background step, which changes nothing of
it but its pending writebacks (rules R54, R102, R186). -/

namespace Sys2Proof.Machine

/-! The turns of a halted thread (rules R102, R186). -/

theorem runThread_of_halted {s : State} {k : Nat} {th : Thread} (hth : s.threads[k]? = some th)
    (hhalted : th.halted = true) : s.runThread k = .next s := by
  simp [State.runThread, hth, hhalted]

theorem poised_of_halted {s : State} {k : Nat} {th : Thread} (hth : s.threads[k]? = some th)
    (hhalted : th.halted = true) : s.poised k = none := by
  simp [State.poised, hth, hhalted]

/-- A halted thread stands at no access, so no group it belongs to merges. -/
theorem mergedAccess_of_halted {s : State} {k : Nat} {th : Thread} {ts : List Nat} (hth : s.threads[k]? = some th)
    (hhalted : th.halted = true) (hk : k ∈ ts) : s.mergedAccess ts = none := by
  by_contra hsome
  obtain ⟨r, hr⟩ := Option.ne_none_iff_exists'.1 hsome
  obtain ⟨p, q, ps, hpoised, -⟩ := mergedAccess_cases hr
  have hmem : s.poised k ∈ (p :: q :: ps).map some := poisedAll_eq_some.1 hpoised ▸ List.mem_map_of_mem hk
  rw [poised_of_halted hth hhalted] at hmem
  obtain ⟨a, -, ha⟩ := List.mem_map.1 hmem
  cases ha

/-- Of any thread's record the background step changes the pending writebacks alone (rule R54). -/
theorem drain_record {s : State} {k : Nat} {th : Thread} (hth : s.threads[k]? = some th) (t a : Nat) :
    ∃ wb, (s.drain t a).threads[k]? = some { th with wb := wb } := by
  obtain heq | ⟨-, p, -, -, -, -, heq⟩ := drain_cases s t a
  · rw [heq]
    exact ⟨th.wb, hth⟩
  · rw [heq, mapThread_getElem?, hth]
    by_cases hk : t = k
    · exact ⟨_, congrArg some (if_pos hk)⟩
    · exact ⟨th.wb, congrArg some (if_neg hk)⟩

/-- A turn, whoever takes it, changes nothing of a halted thread but its pending writebacks. -/
theorem turn_record_of_halted {s u : State} {c : Choice} {k : Nat} {th : Thread} (h : s.turn c = .next u)
    (hth : s.threads[k]? = some th) (hhalted : th.halted = true) :
    ∃ wb, u.threads[k]? = some { th with wb := wb } := by
  cases c with
  | run t =>
    by_cases hk : k = t
    · subst hk
      cases (runThread_of_halted hth hhalted).symm.trans h
      exact ⟨th.wb, hth⟩
    · exact ⟨th.wb, (aThreadTouchesOnlyItself s u t h k hk).trans hth⟩
  | drain t a =>
    cases h
    exact drain_record hth t a
  | merge ts =>
    obtain ⟨-, hothers⟩ := runMerge_frame h
    exact ⟨th.wb, (hothers k (mergedAccess_of_halted hth hhalted)).trans hth⟩

theorem step_record_of_halted {s u : State} {k : Nat} {th : Thread} (h : step s = .next u)
    (hth : s.threads[k]? = some th) (hhalted : th.halted = true) :
    ∃ wb, u.threads[k]? = some { th with wb := wb } := by
  obtain ⟨s', hturn, hthreads, -, -⟩ := step_turn h
  exact turn_record_of_halted hturn (hthreads ▸ hth) hhalted

/-! The background step for the writeback that has waited longest (rule R54). -/

/-- Where the first writeback on a thread's list is not fresh, the background step for its address performs that one,
whatever the rest of the list is. -/
theorem drain_of_first {s : State} {k : Nat} {th : Thread} {p : Pending} {rest : List Pending}
    (hth : s.threads[k]? = some th) (hwb : th.wb = p :: rest) (hf : p.fresh = false) :
    (s.drain k p.addr).mem = s.mem.writeOperand p.addr p.value ∧
    (s.drain k p.addr).threads[k]? = some { th with wb := rest } := by
  have hfind : (th.wb.find? fun q => q.addr == p.addr && !q.fresh) = some p := by simp [hwb, hf]
  have herase : (th.wb.eraseP fun q => q.addr == p.addr && !q.fresh) = rest := by simp [hwb, hf]
  simp [State.drain, hth, hfind, herase]

/-- Settles O17: HALT sets one flag of the executing thread's record; `step_record_of_halted` for the steps that
follow, `drain_of_first` for the writebacks still pending. -/
theorem haltStopsTheThread : Obligations.HaltStopsTheThread := by
  refine ⟨rfl, fun s hs => completes_upd hs rfl rfl, fun s u k th => step_record_of_halted, ?_⟩
  intro s k th p rest hwf hth _ hwb hf
  obtain ⟨hmem, hrecord⟩ := drain_of_first hth hwb hf
  refine ⟨_, rfl, ?_, hrecord⟩
  rw [hmem, read_writeOperand_same hwf]

end Sys2Proof.Machine
end

section
/-! SUPPORT. The generic OPB, and O47: it executes the row that its number decodes to (rules R75, R100). -/

namespace Sys2Proof.Machine

/-- From 0x20 on the generic OPB executes no basic operation and not HALT (rule R100). -/
theorem execOpb_of_extended {e : Word} (h : 0x20 ≤ e.toNat) (s : State) : execOpb e s = opbExtended e s := by
  unfold execOpb
  split
  case h_33 => rfl
  all_goals omega

/-- Below 0x20 execution and decoding name the same row, number by number (rules R75, R100). -/
theorem execOpb_of_basic {e : Word} (h : e.toNat < 0x20) (s : State) : execOpb e s = exec (decodeOpb e) s := by
  unfold execOpb
  split
  case h_33 =>
    simp only [imp_false] at *
    omega
  all_goals
    rw [decodeOpb, ‹e.toNat = _›]
    rfl

/-- Settles O47: below 0x20 by `execOpb_of_basic`; from there on the row of BLOADX and BSLOADX by `opbExtended_eq`, and
a reserved number decodes to the generic OPB itself (log entry 24). -/
theorem opbExecutesWhatItNumbers : Obligations.OpbExecutesWhatItNumbers := by
  intro e s
  change execOpb e s = exec (decodeOpb e) s
  obtain hbasic | hextended := Nat.lt_or_ge e.toNat 0x20
  · exact execOpb_of_basic hbasic s
  · rw [decodeOpb_of_extended hextended]
    obtain hrow | hreserved := opbExtended_eq e s
    · rw [hrow, execOpb_of_extended hextended]
    · rw [hreserved]
      rfl

end Sys2Proof.Machine
end

section
/-! SUPPORT. The binary operations, and O18 to O22, O24: each completes with its value function of Acc and XB in Acc
(rules R120 to R128), and a product by a power of two is a shift (rule R130). -/

namespace Sys2Proof.Machine

/-- A binary operation completes in every state, with its function of Acc and XB, both as they stood, in Acc
(rules R8, R74). -/
theorem completes_binary {i : Instr} {s : State} {f : Word → Word → Word} {o : Operand} {v : Word} (hs : s.Running)
    (h : exec i s = binary f o s) (hv : f s.thread.acc (s.xb o) = v) : Completes i s (s.thread.accThenNext v) := by
  subst hv
  exact completes_upd hs h rfl

/-! The value functions in the terms of rules R123 to R128: exact integer arithmetic, reduced modulo 2^32 (D2). -/

theorem mul_eq_ofNat (a b : Word) : a * b = BitVec.ofNat 32 (a.toNat * b.toNat) := by
  simp [BitVec.ofNat_mul]

theorem sub_eq_ofInt (a b : Word) : a - b = BitVec.ofInt 32 ((a.toNat : Int) - b.toNat) := by
  apply BitVec.eq_of_toNat_eq
  rw [BitVec.toNat_sub, BitVec.toNat_ofInt]
  omega

theorem shrValue_eq_ofNat (acc xb : Word) :
    shrValue acc xb = rev (BitVec.ofNat 32 ((rev acc).toNat * xb.toNat)) := by
  rw [shrValue, mul_eq_ofNat]

theorem signMask_eq_signOf (v : Word) : signMask v = signOf v := by
  rw [signMask, signOf, BitVec.msb_eq_getLsbD_last]

/-- SAR is SHR between two corrections by the sign (rules R127, R128). -/
theorem sarValue_eq_shrValue (acc xb : Word) :
    sarValue acc xb = shrValue (acc ^^^ signMask acc) xb ^^^ signMask acc := rfl

theorem sarValue_eq_ofNat (acc xb : Word) :
    sarValue acc xb = rev (BitVec.ofNat 32 ((rev (acc ^^^ signOf acc)).toNat * xb.toNat)) ^^^ signOf acc := by
  rw [sarValue_eq_shrValue, shrValue_eq_ofNat, signMask_eq_signOf]

/-- Settles O18: the value function is the bitwise operation itself. -/
theorem logicalOperations : Obligations.LogicalOperations :=
  ⟨fun _ => rfl, rfl, fun _ => rfl, rfl, fun _ => rfl, rfl, fun _ hs =>
    ⟨fun _ => completes_binary hs rfl rfl, completes_binary hs rfl rfl,
      fun _ => completes_binary hs rfl rfl, completes_binary hs rfl rfl,
      fun _ => completes_binary hs rfl rfl, completes_binary hs rfl rfl⟩⟩

/-- Settles O19: sums by the library's `BitVec.add_def`, differences by `sub_eq_ofInt`. -/
theorem additionAndSubtraction : Obligations.AdditionAndSubtraction :=
  ⟨fun _ => rfl, rfl, fun _ => rfl, rfl, fun _ => rfl, rfl, fun _ hs =>
    ⟨fun _ => completes_binary hs rfl (BitVec.add_def _ _), completes_binary hs rfl (BitVec.add_def _ _),
      fun _ => completes_binary hs rfl (sub_eq_ofInt _ _), completes_binary hs rfl (sub_eq_ofInt _ _),
      fun _ => completes_binary (f := fun acc xb => xb - acc) hs rfl (sub_eq_ofInt _ _),
      completes_binary (f := fun acc xb => xb - acc) hs rfl (sub_eq_ofInt _ _)⟩⟩

/-- Settles O20: the product by `mul_eq_ofNat`. -/
theorem multiplication : Obligations.Multiplication :=
  ⟨fun _ => rfl, rfl, fun _ hs =>
    ⟨fun _ => completes_binary hs rfl (mul_eq_ofNat _ _), completes_binary hs rfl (mul_eq_ofNat _ _)⟩⟩

/-- Settles O21: the reversed product by `shrValue_eq_ofNat`. -/
theorem reversedMultiplication : Obligations.ReversedMultiplication :=
  ⟨fun _ => rfl, rfl, fun _ hs =>
    ⟨fun _ => completes_binary hs rfl (shrValue_eq_ofNat _ _), completes_binary hs rfl (shrValue_eq_ofNat _ _)⟩⟩

/-- Settles O22: the sign-corrected product by `sarValue_eq_ofNat`. -/
theorem signedReversedMultiplication : Obligations.SignedReversedMultiplication :=
  ⟨fun _ => rfl, rfl, fun _ hs =>
    ⟨fun _ => completes_binary hs rfl (sarValue_eq_ofNat _ _), completes_binary hs rfl (sarValue_eq_ofNat _ _)⟩⟩

/-! Products by a power of two (rule R130). -/

theorem mul_two_pow_eq_shiftLeft (a : Word) (k : Nat) : a * BitVec.ofNat 32 (2 ^ k) = a <<< k := by
  rw [← one_shiftLeft_eq_two_pow, BitVec.shiftLeft_eq_mul_twoPow a]
  rfl

/-- Between two reversals a shift left is a shift right: each bit counts from the other end. -/
theorem rev_shiftLeft_rev (a : Word) (k : Nat) : rev (rev a <<< k) = a >>> k := by
  apply BitVec.eq_of_getLsbD_eq
  intro i hi
  rw [getLsbD_rev, BitVec.getLsbD_shiftLeft, getLsbD_rev, BitVec.getLsbD_ushiftRight]
  by_cases hk : 31 - i < k
  · have hzero : a.getLsbD (k + i) = false := BitVec.getLsbD_of_ge a _ (by omega)
    simp only [hk, hzero, decide_true, Bool.not_true, Bool.and_false, Bool.false_and]
  · have hpos : 31 - (31 - i - k) = k + i := by omega
    have hfrom : 31 - i < 32 := by omega
    have hto : 31 - i - k < 32 := by omega
    simp only [hpos, hi, hk, hfrom, hto, decide_true, decide_false, Bool.not_false, Bool.true_and]

theorem shrValue_two_pow (a : Word) (k : Nat) : shrValue a (BitVec.ofNat 32 (2 ^ k)) = a >>> k := by
  rw [shrValue, mul_two_pow_eq_shiftLeft, rev_shiftLeft_rev]

theorem xor_signMask_of_nonneg {a : Word} (h : a.msb = false) (v : Word) : v ^^^ signMask a = v := by
  simp [signMask, h]

theorem xor_signMask_of_neg {a : Word} (h : a.msb = true) (v : Word) : v ^^^ signMask a = ~~~v := by
  rw [signMask, if_pos h]
  exact BitVec.xor_allOnes

/-- The sign correction is none where Acc is not negative, and complements before and after the logical shift where it
is, which shifts ones in (D3). -/
theorem sarValue_two_pow (a : Word) (k : Nat) : sarValue a (BitVec.ofNat 32 (2 ^ k)) = a.sshiftRight k := by
  rw [sarValue_eq_shrValue, shrValue_two_pow]
  cases hsign : a.msb with
  | false => rw [xor_signMask_of_nonneg hsign, xor_signMask_of_nonneg hsign, BitVec.sshiftRight_eq_of_msb_false hsign]
  | true => rw [xor_signMask_of_neg hsign, xor_signMask_of_neg hsign, BitVec.sshiftRight_eq_of_msb_true hsign]

/-- Settles O24: each value function at 2^k is the shift by k, with no use of the bound on k. -/
theorem shiftsByMultiplication : Obligations.ShiftsByMultiplication := fun _ k hs _ =>
  ⟨completes_binary hs rfl (mul_two_pow_eq_shiftLeft _ k), completes_binary hs rfl (shrValue_two_pow _ k),
    completes_binary hs rfl (sarValue_two_pow _ k)⟩

end Sys2Proof.Machine
end

section
/-! SUPPORT. The stores, and O30 to O32: each is `store` of its own value to its own target, and `store` queues that
one writeback or faults (rules R46, R48, R54, R57, R140 to R142). -/

namespace Sys2Proof.Machine

/-! What queueing a writeback does to the pending list and to memory (rules R46, R48, R54). -/

theorem memWrite_of_lt {s : State} {a : Nat} (h : a < s.plat.codeSize) (v : Word) :
    ∃ s', s.memWrite a v = some s' :=
  Option.ne_none_iff_exists'.1 fun hnone => Nat.not_le.2 h (memWrite_none.1 hnone)

theorem collision_eq_true {s : State} {a : Nat} :
    s.collision a = true ↔ ∃ p ∈ s.thread.wb, s.shareBank a p.addr = true := List.any_eq_true

theorem collision_eq_false {s : State} {a : Nat} :
    s.collision a = false ↔ ∀ p ∈ s.thread.wb, s.shareBank a p.addr = false := by
  simp [State.collision]

/-- Where the targets are pairwise different, every writeback performed leaves its own value, and the opcode as it
was (rules R25, R48). -/
theorem read_performAll_of_mem {m : Memory} (hm : m.wf = true) {wb : List Pending}
    (hdistinct : wb.Pairwise fun p q => p.addr ≠ q.addr) {p : Pending} (hp : p ∈ wb) :
    (performAll m wb).read p.addr = { m.read p.addr with x := p.value } := by
  obtain ⟨q, hq, haddr, hx⟩ := read_performAll_of_addr hm ⟨p, hp, rfl⟩
  obtain rfl : q = p := by
    by_contra hne
    have hsym : Std.Symm fun p q : Pending => p.addr ≠ q.addr := ⟨fun _ _ h => h.symm⟩
    exact hdistinct.forall hq hp hne haddr
  exact congrArg₂ CodeWord.mk (op_performAll hm wb q.addr) hx

theorem memWrite_queued {s s' : State} {a : Nat} {v : Word} (hs : s.Running) (h : s.memWrite a v = some s') :
    Queued s s' a v := by
  obtain ⟨-, ⟨hfree, rfl⟩ | ⟨hhit, rfl⟩⟩ := memWrite_cases h
  · have hcol : s.collision a = false := collision_eq_false.2 hfree
    constructor
    case wb => rw [thread_upd s _ hs, queue_wb, hcol, if_neg Bool.false_ne_true]
    case unperformed => exact fun _ _ => rfl
    case untouched => exact fun _ _ => rfl
    case performed => exact fun hno => absurd (hcol.symm.trans hno) Bool.false_ne_true
  · have hcol : s.collision a = true := collision_eq_true.2 hhit
    have hrun : State.Running { s with mem := performAll s.mem s.thread.wb } := hs
    constructor
    case wb => rw [thread_upd _ _ hrun, queue_wb, hcol, if_pos rfl]
    case unperformed => exact fun hno => absurd (hno.symm.trans hcol) Bool.false_ne_true
    case untouched => exact fun _ hother => read_performAll_other s.mem hother
    case performed => exact fun _ hm hdistinct _ hp => read_performAll_of_mem hm hdistinct hp

/-- An update of registers leaves a queued writeback queued. -/
theorem Queued.upd {s t : State} {a : Nat} {v : Word} {f : Thread → Thread} (h : Queued s t a v) (ht : t.Running)
    (hf : RegistersOnly f) : Queued s (t.upd f) a v where
  wb := by rw [thread_upd t f ht, hf.wb, h.wb]
  unperformed := h.unperformed
  untouched := h.untouched
  performed := h.performed

/-! What it leaves alone (rule R30). -/

theorem Reach.sameCore {s s' : State} (h : Reach s s') : SameCore s s' := by
  obtain ⟨hplat, hcur, hagenda, hdraws, hwaits, hreadout, hcount, hothers, -⟩ := h.core
  exact ⟨hcount, hothers, hplat, hcur, hreadout, hagenda, hdraws, hwaits⟩

theorem SameCore.trans {s t u : State} (h : SameCore s t) (h' : SameCore t u) : SameCore s u where
  count := h'.count.trans h.count
  others k hk := (h'.others k (h.cur.symm ▸ hk)).trans (h.others k hk)
  plat := h'.plat.trans h.plat
  cur := h'.cur.trans h.cur
  readout := h'.readout.trans h.readout
  agenda := h'.agenda.trans h.agenda
  draws := h'.draws.trans h.draws
  waits := h'.waits.trans h.waits

theorem memWrite_devices {s s' : State} {a : Nat} {v : Word} (h : s.memWrite a v = some s') :
    s'.devices = s.devices := by
  obtain ⟨-, ⟨-, rfl⟩ | ⟨-, rfl⟩⟩ := memWrite_cases h
  · rfl
  · rfl

/-! The stores. -/

theorem store_of_memWrite {target v : Word} {s s' : State} (h : s.memWrite target.toNat v = some s') :
    store target v s = .next s'.advance := by
  rw [store, h]

/-- An instruction that executes as `store` stores: a target outside code memory is its one fault; on any other it
queues the writeback, and its `next` changes no more than the pc. -/
theorem stores_of_exec {i : Instr} {s : State} {target value v : Word} (hs : s.Running)
    (h : exec i s = store target value s) (hv : value = v) : Stores i s target v := by
  subst hv
  refine ⟨fun hbad => h.trans (store_fault.2 hbad), fun hlt => ?_⟩
  obtain ⟨s', hm⟩ := memWrite_of_lt hlt value
  have hreach : Reach s s' := .write _ _ hm
  obtain ⟨hs', wb, hthread⟩ := hreach.thread hs
  have hrecord : RecordIs s'.advance { s.thread with pc := s.thread.pc + 1, wb := s'.advance.thread.wb } := by
    rw [RecordIs, thread_advance s' hs', hthread]
    rfl
  exact ⟨s'.advance, h.trans (store_of_memWrite hm), (memWrite_queued hs hm).upd hs' registersOnly_advance, hrecord,
    hreach.sameCore.trans (sameRest_upd s' _).toSameCore,
    (advance_devices s').trans (memWrite_devices hm)⟩

/-- Settles O30: Acc to XB, with and without a collision and under either collision rule (log entry 16). -/
theorem putStoresAcc : Obligations.PutStoresAcc :=
  ⟨fun _ => rfl, rfl, fun _ hs => ⟨fun _ => stores_of_exec hs rfl rfl, stores_of_exec hs rfl rfl⟩⟩

/-- Settles O31: `shl1` of Acc, which `shl1_eq_shl1Spec` puts in the terms of rule R108, to X with its flag flipped;
execution does not look at the flag, so an X without it stores by the same formula (log entry 24). -/
theorem putsStoresPower : Obligations.PutsStoresPower :=
  ⟨fun _ => decode_puts, fun _ hs _ => stores_of_exec hs rfl (shl1_eq_shl1Spec _)⟩

/-- Settles O32: Acc with its sign bit flipped to XB; the OPB form is PUTM whatever bit 31 of B is (D24). -/
theorem putmStoresFlipped : Obligations.PutmStoresFlipped :=
  ⟨fun _ => decode_putm, rfl, fun _ hs => ⟨fun _ => stores_of_exec hs rfl rfl, stores_of_exec hs rfl rfl⟩⟩

end Sys2Proof.Machine
end

section
/-! SUPPORT. The jumps and the getter step, and O9, O27 to O29: where a thread goes by an assignment of its pc, what it
leaves alone on the way, and when the fetch that follows is bad (rules R57, R150 to R154). -/

namespace Sys2Proof.Machine

/-- After an assignment of the pc a fetch is bad for the new address alone: the bit of an earlier carry is gone
(rules R22, R57, R153; log entry 5). -/
theorem badFetch_jump (s : State) (th : Thread) (target : Word) :
    s.badFetch (th.jump target) = decide (s.plat.codeSize ≤ target.toNat % 2 ^ 31) := rfl

/-! What a fetch does to each address of memory (rules R44, R47). -/

/-- The address fetched holds afterwards what the fetch delivered: the opcode as it was and the forwarded operand. -/
theorem fetch_read_same {s : State} (hm : s.mem.wf = true) (t : Nat) (th : Thread) :
    (s.fetch t th).mem.read th.addr = s.fetchedWord th := by
  rw [fetch_mem, State.fetchedWord]
  cases hpend : th.pendingValue th.addr with
  | none => rw [memRead_of_none hpend]
  | some v => rw [memRead_of_pending hpend, read_writeOperand_same hm]

theorem fetch_read_other (s : State) (t : Nat) (th : Thread) {a : Nat} (ha : a ≠ th.addr) :
    (s.fetch t th).mem.read a = s.mem.read a := by
  rw [fetch_mem]
  split
  · exact read_writeOperand_other s.mem _ ha
  · rfl

/-! The getter step (rule R154). -/

theorem runThread_of_getter {s : State} {t : Nat} {th : Thread} (hth : s.threads[t]? = some th)
    (hlive : th.halted = false) (hgood : s.badFetch th = false) (hgetter : th.getter = true) :
    s.runThread t = .next ((s.fetch t th).upd fun th' => th'.peeked (s.memRead th th.addr)) := by
  simp [State.runThread, State.stepThread, hth, hlive, hgood, hgetter]

theorem fetch_upd_getElem? {s : State} {t : Nat} {th : Thread} (hth : s.threads[t]? = some th)
    (f : Thread → Thread) : ((s.fetch t th).upd f).threads[t]? = some (f (th.fetched th.addr)) := by
  simp [State.upd, hth]

/-- Settles O9: the step is a fetch, which reads the opcode but does not decode it, and then `Thread.peeked`, which is
a jump to the old Acc. -/
theorem getterStepPeeks : Obligations.GetterStepPeeks := by
  refine fun s t th rest hnext hgetter =>
    ⟨fun hbad => fetchOutsideMemoryFaults s t th rest hnext (.inl hbad), fun hgood => ?_⟩
  rw [step_of_agenda hnext.agenda]
  refine ⟨_, _, runThread_of_getter (s := { s with agenda := rest }) hnext.thread hnext.live hgood hgetter,
    fetch_upd_getElem? hnext.thread _, rfl, ?_, fun k hk => ?_, fun a ha => ?_, fun hm => ?_, rfl, rfl, rfl⟩
  · rw [Thread.peeked, badFetch_jump, decide_eq_true_eq]
    exact Iff.rfl
  · rw [upd_others _ _ hk, fetch_others _ t th hk]
  · exact fetch_read_other _ t th ha
  · exact fetch_read_same (s := { s with agenda := rest }) hm t th

/-! The jumps (rules R150 to R153). -/

/-- An instruction that branches completes whether it is taken or not: it changes the pc of its thread alone. -/
theorem completes_branch {i : Instr} {s : State} {taken : Word → Bool} {o : Operand} {v : Word} (hs : s.Running)
    (h : exec i s = branch taken o s) (hv : (if taken s.thread.acc then s.xb o else s.thread.pc + 1) = v) :
    Completes i s { s.thread with pc := v } := by
  subst hv
  refine completes_upd hs h ?_
  cases taken s.thread.acc with
  | true => rfl
  | false => rfl

/-- Where a jump is taken, the next fetch is bad exactly when its target does not exist. -/
theorem badFetch_of_taken {i : Instr} {s u : State} {taken : Word → Bool} {o : Operand} (hs : s.Running)
    (h : exec i s = branch taken o s) (htaken : taken s.thread.acc = true) (hu : exec i s = .next u) :
    u.badFetch u.thread = decide (s.plat.codeSize ≤ (s.xb o).toNat % 2 ^ 31) := by
  cases h.symm.trans hu
  rw [thread_upd s _ hs, if_pos htaken]
  exact badFetch_jump _ s.thread (s.xb o)

theorem accIsZero_iff {acc : Word} : accIsZero acc = true ↔ acc = 0 := beq_iff_eq

theorem not_accIsZero_iff {acc : Word} : (!accIsZero acc) = true ↔ ¬acc = 0 := by
  rw [Bool.not_eq_true', ← Bool.not_eq_true, accIsZero_iff]

/-- JUMP in either form: the branch that is always taken. -/
theorem jump_of_exec {i : Instr} {s : State} {o : Operand} (hs : s.Running)
    (h : exec i s = branch (fun _ => true) o s) :
    Completes i s { s.thread with pc := s.xb o } ∧
    ∀ u, exec i s = .next u → u.badFetch u.thread = decide (s.plat.codeSize ≤ (s.xb o).toNat % 2 ^ 31) :=
  ⟨completes_branch hs h rfl, fun _ => badFetch_of_taken hs h rfl⟩

theorem jeq_of_exec {i : Instr} {s : State} {o : Operand} (hs : s.Running) (h : exec i s = branch accIsZero o s) :
    Completes i s { s.thread with pc := if s.thread.acc = 0 then s.xb o else s.thread.pc + 1 } ∧
    ∀ u, exec i s = .next u → s.thread.acc = 0 →
      u.badFetch u.thread = decide (s.plat.codeSize ≤ (s.xb o).toNat % 2 ^ 31) :=
  ⟨completes_branch hs h (if_congr accIsZero_iff rfl rfl),
    fun _ hu hzero => badFetch_of_taken hs h (accIsZero_iff.2 hzero) hu⟩

theorem jne_of_exec {i : Instr} {s : State} {o : Operand} (hs : s.Running)
    (h : exec i s = branch (fun acc => !accIsZero acc) o s) :
    Completes i s { s.thread with pc := if s.thread.acc = 0 then s.thread.pc + 1 else s.xb o } ∧
    ∀ u, exec i s = .next u → s.thread.acc ≠ 0 →
      u.badFetch u.thread = decide (s.plat.codeSize ≤ (s.xb o).toNat % 2 ^ 31) :=
  ⟨completes_branch hs h ((if_congr not_accIsZero_iff rfl rfl).trans (ite_not _ _ _)),
    fun _ hu hnonzero => badFetch_of_taken hs h (not_accIsZero_iff.2 hnonzero) hu⟩

/-- Settles O27: both forms by `jump_of_exec`. -/
theorem jumpAssignsPc : Obligations.JumpAssignsPc :=
  ⟨fun _ => rfl, rfl, fun _ hs => ⟨fun x => jump_of_exec (o := .imm x) hs rfl, jump_of_exec (o := .regB) hs rfl⟩⟩

/-- Settles O28: both forms by `jeq_of_exec`. -/
theorem jeqJumpsOnZero : Obligations.JeqJumpsOnZero :=
  ⟨fun _ => rfl, rfl, fun _ hs => ⟨fun x => jeq_of_exec (o := .imm x) hs rfl, jeq_of_exec (o := .regB) hs rfl⟩⟩

/-- Settles O29: both forms by `jne_of_exec`. -/
theorem jneJumpsOnNonzero : Obligations.JneJumpsOnNonzero :=
  ⟨fun _ => rfl, rfl, fun _ hs => ⟨fun x => jne_of_exec (o := .imm x) hs rfl, jne_of_exec (o := .regB) hs rfl⟩⟩

end Sys2Proof.Machine
end

section
/-! SUPPORT. The comparisons, and O25, O26: each is a binary operation that completes with its condition's word in Acc
(rules R165 to R169). -/

namespace Sys2Proof.Machine

/-! The conditions in the terms of rules R165 to R168: the order of the words as integers, without a sign and in two's
complement (D2). -/

theorem unsignedGreater_iff {acc xb : Word} : unsignedGreater acc xb = true ↔ acc.toNat > xb.toNat :=
  decide_eq_true_iff

theorem unsignedLess_iff {acc xb : Word} : unsignedLess acc xb = true ↔ acc.toNat < xb.toNat :=
  decide_eq_true_iff

theorem signedGreater_iff {acc xb : Word} : signedGreater acc xb = true ↔ acc.toInt > xb.toInt :=
  decide_eq_true_iff

theorem signedLess_iff {acc xb : Word} : signedLess acc xb = true ↔ acc.toInt < xb.toInt :=
  decide_eq_true_iff

/-- A comparison completes in every state, and the word in Acc is 1 where its condition holds of Acc and XB, both as
they stood, and 0 elsewhere (rule R169). -/
theorem completes_comparison {i : Instr} {s : State} {cond : Word → Word → Bool} {o : Operand} {p : Prop} [Decidable p]
    (hs : s.Running) (h : exec i s = binary (fun acc xb => conditionWord (cond acc xb)) o s)
    (hp : cond s.thread.acc (s.xb o) = true ↔ p) : Completes i s (s.thread.accThenNext (if p then 1 else 0)) :=
  completes_binary hs h (if_congr hp rfl rfl)

/-- Settles O25: both forms of both comparisons by the unsigned order. -/
theorem unsignedComparisons : Obligations.UnsignedComparisons :=
  ⟨fun _ => rfl, rfl, fun _ => rfl, rfl, fun _ hs =>
    ⟨fun _ => completes_comparison hs rfl unsignedGreater_iff, completes_comparison hs rfl unsignedGreater_iff,
      fun _ => completes_comparison hs rfl unsignedLess_iff, completes_comparison hs rfl unsignedLess_iff⟩⟩

/-- Settles O26: both forms of both comparisons by the two's-complement order. -/
theorem signedComparisons : Obligations.SignedComparisons :=
  ⟨fun _ => rfl, rfl, fun _ => rfl, rfl, fun _ hs =>
    ⟨fun _ => completes_comparison hs rfl signedGreater_iff, completes_comparison hs rfl signedGreater_iff,
      fun _ => completes_comparison hs rfl signedLess_iff, completes_comparison hs rfl signedLess_iff⟩⟩

end Sys2Proof.Machine
end

section
/-! SUPPORT. PUSH/OUT and POP/IO by one thread, and O38 to O42: an instruction makes one access to the device on its
port, and the device's answer decides what becomes of the thread (rules R175 to R183). -/

namespace Sys2Proof.Machine

/-! A port access that reaches a device (rules R175, R176). -/

/-- `s` with `d` in the place of device number `id`. -/
def State.withDevice (s : State) (id : Nat) (d : Device) : State := { s with devices := s.devices.set id d }

theorem portAccess_of_device {s : State} {space : PortSpace} {port : Word} {id : Nat} {d : Device}
    (hport : deviceOn s.plat space port = some id) (hd : s.devices[id]? = some d) (v : Word) :
    s.portAccess space port v = some ((d.access s.plat.stickyImmediate id space v).result,
      s.withDevice id (d.access s.plat.stickyImmediate id space v).device) := by
  simp [State.portAccess, State.withDevice, hport, hd]

theorem set_device_self {s : State} {id : Nat} {d : Device} (hd : s.devices[id]? = some d) :
    s.devices.set id d = s.devices := by
  obtain ⟨hlt, rfl⟩ := List.getElem?_eq_some_iff.1 hd
  exact List.set_getElem_self hlt

theorem withDevice_self {s : State} {id : Nat} {d : Device} (hd : s.devices[id]? = some d) :
    s.withDevice id d = s := by
  rw [State.withDevice, set_device_self hd]

theorem withDevice_sameCore (s : State) (id : Nat) (d : Device) : SameCore s (s.withDevice id d) :=
  ⟨rfl, fun _ _ => rfl, rfl, rfl, rfl, rfl, rfl, rfl⟩

/-! What the answer makes of the thread (rules R177 to R179). -/

/-- The record after PUSH/OUT: on `retry` as it was, on `done` it did `next`. -/
def Thread.pushAnswered (th : Thread) : Option Word → Thread
  | none => th
  | some _ => th.advance

/-- The record after POP/IO: on `retry` as it was, on `done` it took the result and did `next`. -/
def Thread.popAnswered (th : Thread) : Option Word → Thread
  | none => th
  | some r => { th with acc := r }.advance

theorem pushOut_of_portAccess {o : Operand} {s s' : State} {r : Option Word}
    (h : s.portAccess .pushOut s.thread.acc (s.xb o) = some (r, s')) :
    pushOut o s = .next (s'.upd (·.pushAnswered r)) := by
  unfold pushOut
  rw [h]
  cases r with
  | none => exact congrArg Host.Outcome.next (upd_id s').symm
  | some _ => rfl

theorem popIo_of_portAccess {o : Operand} {s s' : State} {r : Option Word}
    (h : s.portAccess .popIo (s.xb o) s.thread.acc = some (r, s')) :
    popIo o s = .next (s'.upd (·.popAnswered r)) := by
  unfold popIo
  rw [h]
  cases r with
  | none => exact congrArg Host.Outcome.next (upd_id s').symm
  | some _ => rfl

theorem pushOut_noDevice {o : Operand} {s : State}
    (h : ∀ id, s.plat.outMap.lookup s.thread.acc = some id → s.devices[id]? = none) :
    pushOut o s = .fault .noDevice := by
  have hnone : s.portAccess .pushOut s.thread.acc (s.xb o) = none := portAccess_none.2 h
  rw [pushOut, hnone]

theorem popIo_noDevice {o : Operand} {s : State}
    (h : ∀ id, s.plat.ioMap.lookup (s.xb o) = some id → s.devices[id]? = none) :
    popIo o s = .fault .noDevice := by
  have hnone : s.portAccess .popIo (s.xb o) s.thread.acc = none := portAccess_none.2 h
  rw [popIo, hnone]

/-! Both forms of the two instructions at once (rule R74). -/

theorem exec_push {i : Instr} {s : State} {v : Word} (hi : i = .push v ∨ i = .opbPush ∧ v = s.thread.b) :
    ∃ o, exec i s = pushOut o s ∧ s.xb o = v := by
  obtain rfl | ⟨rfl, rfl⟩ := hi
  · exact ⟨.imm v, rfl, rfl⟩
  · exact ⟨.regB, rfl, rfl⟩

theorem exec_pop {i : Instr} {s : State} {port : Word} (hi : i = .pop port ∨ i = .opbPop ∧ port = s.thread.b) :
    ∃ o, exec i s = popIo o s ∧ s.xb o = port := by
  obtain rfl | ⟨rfl, rfl⟩ := hi
  · exact ⟨.imm port, rfl, rfl⟩
  · exact ⟨.regB, rfl, rfl⟩

theorem exec_push_of_device {i : Instr} {s : State} {v : Word} {id : Nat} {d : Device}
    (hi : i = .push v ∨ i = .opbPush ∧ v = s.thread.b) (hport : s.plat.outMap.lookup s.thread.acc = some id)
    (hd : s.devices[id]? = some d) {reply : DeviceReply}
    (hreply : d.access s.plat.stickyImmediate id .pushOut v = reply) :
    exec i s = .next ((s.withDevice id reply.device).upd (·.pushAnswered reply.result)) := by
  obtain ⟨o, hexec, rfl⟩ := exec_push hi
  subst hreply
  exact hexec.trans (pushOut_of_portAccess (portAccess_of_device (space := .pushOut) hport hd _))

theorem exec_pop_of_device {i : Instr} {s : State} {port : Word} {id : Nat} {d : Device}
    (hi : i = .pop port ∨ i = .opbPop ∧ port = s.thread.b) (hport : s.plat.ioMap.lookup port = some id)
    (hd : s.devices[id]? = some d) {reply : DeviceReply}
    (hreply : d.access s.plat.stickyImmediate id .popIo s.thread.acc = reply) :
    exec i s = .next ((s.withDevice id reply.device).upd (·.popAnswered reply.result)) := by
  obtain ⟨o, hexec, rfl⟩ := exec_pop hi
  subst hreply
  exact hexec.trans (popIo_of_portAccess (portAccess_of_device (space := .popIo) hport hd _))

/-! The frame of an answered access (rule R30). -/

theorem answered_sameCore (s : State) (id : Nat) (d : Device) (f : Thread → Thread) :
    SameCore s ((s.withDevice id d).upd f) :=
  (withDevice_sameCore s id d).trans (sameRest_upd _ f).toSameCore

theorem answered_record {s : State} (hs : s.Running) (id : Nat) (d : Device) {f : Thread → Thread} {th : Thread}
    (hf : { f s.thread with overrun := th.overrun } = th) : RecordIs ((s.withDevice id d).upd f) th := by
  rw [RecordIs, thread_upd (s.withDevice id d) f hs]
  exact hf

/-! What the built-in FIFO answers (rules R181 to R183). -/

theorem fifoPush_full {depth : Nat} {queue : List Word} (h : queue.length = depth) (force : Bool) (v : Word) :
    fifoPush depth queue force v = ⟨.fifo depth queue force, none⟩ := if_pos h

theorem fifoPush_room {depth : Nat} {queue : List Word} (h : queue.length ≠ depth) (force : Bool) (v : Word) :
    fifoPush depth queue force v = ⟨.fifo depth (queue ++ [v]) force, some 0⟩ := if_neg h

/-- `req`: FIFO_STICKY_IMMEDIATE says whether the command of this very access counts. -/
theorem fifoRequest_eq (sticky force : Bool) (v : Word) : fifoRequest sticky force v =
    (v.getLsbD 0 || (if sticky then force || v.getLsbD 31 else force)) := by
  cases sticky with
  | true => exact Bool.or_assoc _ _ _
  | false => exact Bool.or_false _

theorem fifoPop_status {sticky force : Bool} {v : Word} (h : fifoRequest sticky force v = false) (depth : Nat)
    (queue : List Word) : fifoPop sticky depth queue force v =
      ⟨.fifo depth queue (force || v.getLsbD 31), some (if queue = [] then 0 else 1)⟩ := by
  simp [fifoPop, h, BitVec.msb_eq_getLsbD_last]

theorem fifoPop_readout {sticky force : Bool} {v : Word} (h : fifoRequest sticky force v = true) (depth : Nat)
    (r : Word) (rest : List Word) : fifoPop sticky depth (r :: rest) force v =
      ⟨.fifo depth rest (force || v.getLsbD 31), some r⟩ := by
  simp [fifoPop, h, BitVec.msb_eq_getLsbD_last]

theorem fifoPop_retry {sticky force : Bool} {v : Word} (h : fifoRequest sticky force v = true) (depth : Nat) :
    fifoPop sticky depth [] force v = ⟨.fifo depth [] (force || v.getLsbD 31), none⟩ := by
  simp [fifoPop, h, BitVec.msb_eq_getLsbD_last]

/-! The records in the terms of the statements. -/

theorem pushAnswered_record (th : Thread) (r : Option Word) :
    let th' := match r with
      | none => th
      | some _ => { th with pc := th.pc + 1 }
    { th.pushAnswered r with overrun := th'.overrun } = th' := by
  cases r <;> rfl

theorem popAnswered_record (th : Thread) (r : Option Word) :
    let th' := match r with
      | none => th
      | some v => th.accThenNext v
    { th.popAnswered r with overrun := th'.overrun } = th' := by
  cases r <;> rfl

/-- Settles O38: a full FIFO answers `retry` and is left as it was, so that not even the devices change. -/
theorem pushToFifo : Obligations.PushToFifo := by
  refine fun s i v id depth queue force hs hi hport hd => ⟨fun hfull => ?_, fun hroom => ?_⟩
  · rw [exec_push_of_device hi hport hd (fifoPush_full hfull force v), withDevice_self hd]
    exact congrArg Host.Outcome.next (upd_id s)
  · exact ⟨_, exec_push_of_device hi hport hd (fifoPush_room hroom force v), answered_record hs _ _ rfl, rfl,
      answered_sameCore s _ _ _, fun _ => rfl⟩

/-- Settles O39: `req` and the queue decide between `fifoPop_status`, `fifoPop_readout` and `fifoPop_retry`. -/
theorem popFromFifo : Obligations.PopFromFifo := by
  intro s i port id depth queue force hs hi hport hd v force' req
  have hreq : fifoRequest s.plat.stickyImmediate force v = req := fifoRequest_eq _ _ _
  refine ⟨_, exec_pop_of_device hi hport hd rfl, answered_sameCore s _ _ _, fun _ => rfl, fun hno => ?_,
    fun r rest hyes hqueue => ?_, fun hyes hqueue => ?_⟩
  · rw [Device.access, fifoPop_status (hreq.trans hno)]
    exact ⟨rfl, answered_record hs _ _ rfl⟩
  · subst hqueue
    rw [Device.access, fifoPop_readout (hreq.trans hyes)]
    exact ⟨rfl, answered_record hs _ _ rfl⟩
  · subst hqueue
    rw [Device.access, fifoPop_retry (hreq.trans hyes)]
    exact ⟨rfl, answered_record hs _ _ rfl⟩

/-- An access, whatever it is answered, changes the devices alone. -/
theorem portAccess_threads_mem {s t : State} {space : PortSpace} {port v : Word} {r : Option Word}
    (h : s.portAccess space port v = some (r, t)) : t.threads = s.threads ∧ t.mem = s.mem := by
  obtain ⟨id, d, -, -, -, rfl⟩ := portAccess_cases h
  exact ⟨rfl, rfl⟩

theorem pushOut_of_retry {o : Operand} {s t : State}
    (h : s.portAccess .pushOut s.thread.acc (s.xb o) = some (none, t)) :
    pushOut o s = .next t ∧ t.threads = s.threads ∧ t.mem = s.mem :=
  ⟨(pushOut_of_portAccess h).trans (congrArg Host.Outcome.next (upd_id t)), portAccess_threads_mem h⟩

theorem popIo_of_retry {o : Operand} {s t : State}
    (h : s.portAccess .popIo (s.xb o) s.thread.acc = some (none, t)) :
    popIo o s = .next t ∧ t.threads = s.threads ∧ t.mem = s.mem :=
  ⟨(popIo_of_portAccess h).trans (congrArg Host.Outcome.next (upd_id t)), portAccess_threads_mem h⟩

/-- Settles O40: both forms by `pushOut_of_retry` and `popIo_of_retry`. -/
theorem retryChangesNoRegister : Obligations.RetryChangesNoRegister := fun _ _ =>
  ⟨fun x => pushOut_of_retry (o := .imm x), pushOut_of_retry (o := .regB),
    fun x => popIo_of_retry (o := .imm x), popIo_of_retry (o := .regB)⟩

/-- Settles O41: both forms by `pushOut_noDevice` and `popIo_noDevice`. -/
theorem unmappedPortFaults : Obligations.UnmappedPortFaults := fun _ =>
  ⟨fun h => ⟨fun x => pushOut_noDevice (o := .imm x) h, pushOut_noDevice (o := .regB) h⟩,
    fun x => popIo_noDevice (o := .imm x), popIo_noDevice (o := .regB)⟩

/-- Settles O42: the history grows by the access, whatever it is answered, and the answer decides the record. -/
theorem otherDeviceAnswersFreely : Obligations.OtherDeviceAnswersFreely := by
  refine fun s id history hs hd => ⟨fun i v hi hport => ?_, fun i port hi hport => ?_⟩
  · exact ⟨_, exec_push_of_device hi hport hd rfl, answered_sameCore s _ _ _, fun _ => rfl, rfl,
      answered_record hs _ _ (pushAnswered_record _ _)⟩
  · exact ⟨_, exec_pop_of_device hi hport hd rfl, answered_sameCore s _ _ _, fun _ => rfl, rfl,
      answered_record hs _ _ (popAnswered_record _ _)⟩

end Sys2Proof.Machine
end

section
/-! SUPPORT. Where a thread stands at a port access, and O59: its next instruction is PUSH or POP in one of their two
forms (rules R178, R179, R186). -/

namespace Sys2Proof.Machine

/-- A word decodes to a well-formed instruction exactly when it is that instruction's word: O1 and O2 together. -/
theorem decode_eq_iff {w : CodeWord} {i : Instr} (h : i.wellFormed = true) : decode w = i ↔ w = encode i where
  mp hw := hw ▸ (everyWordIsOneInstruction w).2.symm
  mpr hw := hw ▸ decodeEncodeRoundTrip i h

/-- The words with opcode `k` are those with `k` and some operand. -/
theorem exists_operand_iff {w : CodeWord} {k : BitVec 5} {P : Word → Prop} :
    (∃ x, w = ⟨k, x⟩ ∧ P x) ↔ w.op = k ∧ P w.x := by
  refine ⟨?_, fun ⟨hop, hx⟩ => ⟨w.x, hop ▸ rfl, hx⟩⟩
  rintro ⟨x, rfl, hx⟩
  exact ⟨rfl, hx⟩

/-- The instructions that make an access, and the access each makes (rules R178, R179). -/
theorem portUse_eq_some {th : Thread} {i : Instr} {p : PoisedAccess} : th.portUse i = some p ↔
    (∃ x, i = .push x ∧ p = ⟨.pushOut, th.acc, x⟩) ∨ i = .opbPush ∧ p = ⟨.pushOut, th.acc, th.b⟩ ∨
    (∃ x, i = .pop x ∧ p = ⟨.popIo, x, th.acc⟩) ∨ i = .opbPop ∧ p = ⟨.popIo, th.b, th.acc⟩ := by
  cases i
  case push x => simp [Thread.portUse, eq_comm]
  case opbPush => simp [Thread.portUse, eq_comm]
  case pop x => simp [Thread.portUse, eq_comm]
  case opbPop => simp [Thread.portUse, eq_comm]
  all_goals simp [Thread.portUse]

/-- The words whose instruction makes the access `p`. -/
theorem portUse_decode_eq_some {th : Thread} {w : CodeWord} {p : PoisedAccess} :
    th.portUse (decode w) = some p ↔
      w.op = 0x08 ∧ p = ⟨.pushOut, th.acc, w.x⟩ ∨ w = ⟨0x1F, 0x08⟩ ∧ p = ⟨.pushOut, th.acc, th.b⟩ ∨
      w.op = 0x09 ∧ p = ⟨.popIo, w.x, th.acc⟩ ∨ w = ⟨0x1F, 0x09⟩ ∧ p = ⟨.popIo, th.b, th.acc⟩ := by
  have hpush (x : Word) : decode w = .push x ↔ w = ⟨0x08, x⟩ := decode_eq_iff rfl
  have hpop (x : Word) : decode w = .pop x ↔ w = ⟨0x09, x⟩ := decode_eq_iff rfl
  have hopbPush : decode w = .opbPush ↔ w = ⟨0x1F, 0x08⟩ := decode_eq_iff rfl
  have hopbPop : decode w = .opbPop ↔ w = ⟨0x1F, 0x09⟩ := decode_eq_iff rfl
  simp only [portUse_eq_some, hpush, hpop, hopbPush, hopbPop, exists_operand_iff]

theorem badFetch_eq_false {s : State} {th : Thread} :
    s.badFetch th = false ↔ th.overrun = false ∧ th.pc.toNat % 2 ^ 31 < s.plat.codeSize := by
  rw [← Bool.not_eq_true, badFetch_iff, not_or, Bool.not_eq_true, not_le]

theorem poised_eq_some {s : State} {t : Nat} {p : PoisedAccess} : s.poised t = some p ↔
    ∃ th, s.threads[t]? = some th ∧ th.halted = false ∧ s.badFetch th = false ∧ th.getter = false ∧
      th.portUse (decode (s.fetchedWord th)) = some p := by
  unfold State.poised
  cases s.threads[t]? with
  | none => simp
  | some th => simp [and_assoc]

/-- Settles O59: `poised_eq_some`, with the word fetched by `portUse_decode_eq_some`. -/
theorem whereAThreadStands : Obligations.WhereAThreadStands := by
  intro s t p
  rw [poised_eq_some]
  refine exists_congr fun th => ?_
  rw [badFetch_eq_false, portUse_decode_eq_some]
  constructor
  · rintro ⟨hth, hlive, ⟨hcarry, hinside⟩, hnormal, huse⟩
    exact ⟨hth, hlive, hnormal, hcarry, hinside, huse⟩
  · rintro ⟨hth, hlive, hnormal, hcarry, hinside, huse⟩
    exact ⟨hth, hlive, ⟨hcarry, hinside⟩, hnormal, huse⟩

end Sys2Proof.Machine
end

section
/-! SUPPORT. Merged accesses, and O43, O44: which threads merge, the OR that they send, and what the answer makes of
each (rules R185, R186; log entries 6, 11, 13, 15). -/

namespace Sys2Proof.Machine

/-! Which threads merge (rules R185, R186). -/

/-- The threads `ts` stand at accesses to one port of one space, with the output values `values`. -/
def State.StandAt (s : State) (ts : List Nat) (space : PortSpace) (port : Word) (values : List Word) : Prop :=
  ts.map s.poised = values.map fun v => some ⟨space, port, v⟩

theorem standAt_iff {s : State} {ts : List Nat} {space : PortSpace} {port : Word} {values : List Word} :
    s.StandAt ts space port values ↔ s.poisedAll ts = some (values.map fun v => ⟨space, port, v⟩) := by
  rw [poisedAll_eq_some, List.map_map]
  exact Iff.rfl

theorem samePort_iff {p q : PoisedAccess} :
    p.samePort q = true ↔ q = ⟨p.space, p.port, q.value⟩ := by
  obtain ⟨space, port, v⟩ := q
  simp [PoisedAccess.samePort, eq_comm (a := space), eq_comm (a := port)]

theorem State.StandAt.present {s : State} {ts : List Nat} {space : PortSpace} {port : Word} {values : List Word}
    (h : s.StandAt ts space port values) {k : Nat} (hk : k ∈ ts) : k < s.threads.length := by
  have hmem : s.poised k ∈ values.map fun v => some ⟨space, port, v⟩ := h ▸ List.mem_map_of_mem hk
  obtain ⟨v, -, hv⟩ := List.mem_map.1 hmem
  obtain ⟨th, hth, -⟩ := poised_eq_some.1 hv.symm
  obtain ⟨hlt, -⟩ := List.getElem?_eq_some_iff.1 hth
  exact hlt

theorem mergedAccess_of_standAt {s : State} {ts : List Nat} {space : PortSpace} {port : Word} {values : List Word}
    (hnodup : ts.Nodup) (htwo : 2 ≤ ts.length) (h : s.StandAt ts space port values) :
    s.mergedAccess ts = some ⟨space, port, values.foldl (· ||| ·) 0⟩ := by
  have hlen : ts.length = values.length := by simpa using congrArg List.length h
  match values, hlen, standAt_iff.1 h with
  | [], hlen, _ => simp only [List.length_nil] at hlen; omega
  | [_], hlen, _ => simp only [List.length_singleton] at hlen; omega
  | v :: w :: vs, _, hall =>
    simp [State.mergedAccess, hall, hnodup, PoisedAccess.samePort, List.foldl_map]

theorem standAt_of_mergedAccess {s : State} {ts : List Nat} {r : PoisedAccess} (h : s.mergedAccess ts = some r) :
    ts.Nodup ∧ 2 ≤ ts.length ∧ ∃ values, s.StandAt ts r.space r.port values := by
  obtain ⟨p, q, ps, hall, hnodup, hsame, rfl⟩ := mergedAccess_cases h
  have hlen := congrArg List.length (poisedAll_eq_some.1 hall)
  simp only [List.length_map, List.length_cons] at hlen
  refine ⟨hnodup, by omega, (p :: q :: ps).map PoisedAccess.value, standAt_iff.2 ?_⟩
  have hports : ∀ a ∈ p :: q :: ps, a = ⟨p.space, p.port, a.value⟩ :=
    List.forall_mem_cons.2 ⟨rfl, fun a ha => samePort_iff.1 (hsame a ha)⟩
  rw [hall, List.map_map]
  exact congrArg some ((List.map_id _).symm.trans (List.map_congr_left hports))

/-! The step of a merged turn (rule R186). -/

theorem mergedAccess_agenda (s : State) (rest : List Choice) (ts : List Nat) :
    ({ s with agenda := rest } : State).mergedAccess ts = s.mergedAccess ts :=
  mergedAccess_schedule s rest s.draws s.waits ts

theorem step_of_mergedPop {s : State} {ts : List Nat} {rest : List Choice} {port v : Word}
    (hagenda : s.agenda = .merge ts :: rest) (h : s.mergedAccess ts = some ⟨.popIo, port, v⟩) :
    step s = .fault .portRace := by
  rw [step_of_agenda hagenda, State.turn, State.runMerge, mergedAccess_agenda, h]

theorem step_of_mergedPush {s : State} {ts : List Nat} {rest : List Choice} {port v : Word}
    (hagenda : s.agenda = .merge ts :: rest) (h : s.mergedAccess ts = some ⟨.pushOut, port, v⟩) :
    step s = ({ s with agenda := rest } : State).mergedPush ts port v := by
  rw [step_of_agenda hagenda, State.turn, State.runMerge, mergedAccess_agenda, h]

theorem step_of_mergedAccess_none {s : State} {ts : List Nat} {rest : List Choice}
    (hagenda : s.agenda = .merge ts :: rest) (h : s.mergedAccess ts = none) :
    step s = .next { s with agenda := rest } := by
  rw [step_of_agenda hagenda, State.turn, State.runMerge, mergedAccess_agenda, h]

/-- Settles O44: two threads that stand at one POP/IO port have a merged access, which is the race; whoever has a
merged access stands at one port of one space, so that all others are idle. -/
theorem mergedPopRaces : Obligations.MergedPopRaces := by
  refine fun s ts rest hagenda => ⟨fun port values hnodup htwo h => ?_, fun hapart => ?_⟩
  · exact step_of_mergedPop hagenda (mergedAccess_of_standAt hnodup htwo h)
  · refine step_of_mergedAccess_none hagenda (Option.eq_none_iff_forall_ne_some.2 fun r hr => ?_)
    obtain ⟨hnodup, htwo, values, hstand⟩ := standAt_of_mergedAccess hr
    obtain hfew | hrepeat | hports := hapart
    · omega
    · exact hrepeat hnodup
    · exact hports r.space r.port values hstand

/-! What a merged PUSH/OUT leaves (rules R47, R54, R186). -/

/-- Every participant does `next` where the access is `done`; none moves where it is `retry`. -/
def State.moveAll (s : State) (ts : List Nat) (moved : Bool) : State :=
  if moved then ts.foldl (fun s t => s.mapThread t Thread.advance) s else s

theorem moveAll_frame (s : State) (ts : List Nat) (moved : Bool) :
    (s.moveAll ts moved).mem = s.mem ∧ (s.moveAll ts moved).devices = s.devices ∧
    (s.moveAll ts moved).plat = s.plat ∧ (s.moveAll ts moved).agenda = s.agenda ∧
    ∀ k, k ∉ ts → (s.moveAll ts moved).threads[k]? = s.threads[k]? := by
  cases moved with
  | true =>
    obtain ⟨hmem, hdevices, hplat, hagenda, -, -, hothers⟩ := advanceAll_frame s ts
    exact ⟨hmem, hdevices, hplat, hagenda, hothers⟩
  | false => exact ⟨rfl, rfl, rfl, rfl, fun _ _ => rfl⟩

theorem moveAll_thread {s : State} {ts : List Nat} {moved : Bool} (hnodup : ts.Nodup) {k : Nat} (hk : k ∈ ts)
    {th : Thread} (hth : s.threads[k]? = some th) :
    (s.moveAll ts moved).threads[k]? = some { th with
      pc := if moved then th.pc + 1 else th.pc
      overrun := if moved then decide (th.pc.toNat % 2 ^ 31 = 2 ^ 31 - 1) else th.overrun } := by
  cases moved with
  | true => exact (advanceAll_thread hnodup hk).trans (congrArg (Option.map Thread.advance) hth)
  | false => exact hth

/-- The state after the threads `ts` have made a merged access that leaves device number `id` as `d`. -/
def State.merged (s : State) (ts : List Nat) (id : Nat) (d : Device) (moved : Bool) : State :=
  ((s.fetchAll ts).withDevice id d).moveAll ts moved

/-- The laws of the fetches and of `moveAll`, put together. -/
theorem merged_mergedTo {s : State} {ts : List Nat} (hnodup : ts.Nodup) (hpresent : ∀ k ∈ ts, k < s.threads.length)
    (id : Nat) (d : Device) (moved : Bool) :
    MergedTo s (s.merged ts id d moved) ts s.agenda (s.devices.set id d) moved := by
  obtain ⟨hfdevices, hfplat, hfagenda, -, -, hfothers⟩ := fetchAll_frame s ts
  obtain ⟨hmem, hdevices, hplat, hagenda, hothers⟩ := moveAll_frame ((s.fetchAll ts).withDevice id d) ts moved
  constructor
  case members =>
    exact fun k hk th hth =>
      moveAll_thread (s := (s.fetchAll ts).withDevice id d) hnodup hk (fetchAll_thread hnodup hk hth)
  case present => exact hpresent
  case others => exact fun k hk => (hothers k hk).trans (hfothers k hk)
  case mem => exact fun a hfree => (congrArg (Memory.read · a) hmem).trans (fetchAll_read_other hnodup hfree)
  case performed =>
    rintro hwf pre k post th v rfl hth hv hlast
    exact (congrArg (Memory.read · th.addr) hmem).trans (fetchAll_read_performed hwf hnodup hth hv hlast)
  case devices => exact hdevices.trans (congrArg (List.set · id d) hfdevices)
  case plat => exact hplat.trans hfplat
  case agenda => exact hagenda.trans hfagenda

/-- What a merged access leaves is said against a state whatever its agenda. -/
theorem MergedTo.of_agenda {s u : State} {ts : List Nat} {agenda rest : List Choice} {devices : List Device}
    {moved : Bool} (h : MergedTo { s with agenda := agenda } u ts rest devices moved) :
    MergedTo s u ts rest devices moved :=
  ⟨h.members, h.present, h.others, h.mem, h.performed, h.devices, h.plat, h.agenda⟩

/-! What the device answers decides whether the participants move (rules R175, R181, R186). -/

/-- A merged access finds the ports and devices as they were before its participants' fetches. -/
theorem fetchAll_portAccess_of_device {s : State} {port : Word} {id : Nat} {d : Device}
    (hport : s.plat.outMap.lookup port = some id) (hd : s.devices[id]? = some d) (ts : List Nat) {v : Word}
    {reply : DeviceReply} (hreply : d.access s.plat.stickyImmediate id .pushOut v = reply) :
    (s.fetchAll ts).portAccess .pushOut port v = some (reply.result, (s.fetchAll ts).withDevice id reply.device) := by
  obtain ⟨hdevices, hplat, -⟩ := fetchAll_frame s ts
  have hport' : deviceOn (s.fetchAll ts).plat .pushOut port = some id := hplat.symm ▸ hport
  have hd' : (s.fetchAll ts).devices[id]? = some d := hdevices.symm ▸ hd
  rw [portAccess_of_device hport' hd', hplat, hreply]

theorem mergedPush_of_device {s : State} {port : Word} {id : Nat} {d : Device}
    (hport : s.plat.outMap.lookup port = some id) (hd : s.devices[id]? = some d) (ts : List Nat) {v : Word}
    {reply : DeviceReply} (hreply : d.access s.plat.stickyImmediate id .pushOut v = reply) :
    s.mergedPush ts port v = .next (s.merged ts id reply.device reply.result.isSome) := by
  rw [State.mergedPush, fetchAll_portAccess_of_device hport hd ts hreply, State.merged]
  cases reply.result with
  | none => rfl
  | some _ => rfl

theorem mergedPush_noDevice {s : State} {port : Word}
    (h : ∀ id, s.plat.outMap.lookup port = some id → s.devices[id]? = none) (ts : List Nat) (v : Word) :
    s.mergedPush ts port v = .fault .noDevice := by
  obtain ⟨hdevices, hplat, -⟩ := fetchAll_frame s ts
  have hnone : (s.fetchAll ts).portAccess .pushOut port v = none := by
    rw [portAccess_none, hplat, hdevices]
    exact h
  rw [State.mergedPush, hnone]

/-- A merged turn at a PUSH/OUT port with a device: the device's reply to the OR is its whole outcome. -/
theorem step_of_standAt_push {s : State} {ts : List Nat} {rest : List Choice} {port : Word} {values : List Word}
    {id : Nat} {d : Device} (hagenda : s.agenda = .merge ts :: rest) (hnodup : ts.Nodup) (htwo : 2 ≤ ts.length)
    (hstand : s.StandAt ts .pushOut port values) (hport : s.plat.outMap.lookup port = some id)
    (hd : s.devices[id]? = some d) {reply : DeviceReply}
    (hreply : d.access s.plat.stickyImmediate id .pushOut (values.foldl (· ||| ·) 0) = reply) :
    ∃ u, step s = .next u ∧ MergedTo s u ts rest (s.devices.set id reply.device) reply.result.isSome :=
  ⟨_, (step_of_mergedPush hagenda (mergedAccess_of_standAt hnodup htwo hstand)).trans
      (mergedPush_of_device (s := { s with agenda := rest }) hport hd ts hreply),
    (merged_mergedTo (s := { s with agenda := rest }) hnodup (fun _ => hstand.present) _ _ _).of_agenda⟩

/-- Settles O43: with a device `step_of_standAt_push`, without one `mergedPush_noDevice`. -/
theorem mergedPushSendsTheOr : Obligations.MergedPushSendsTheOr := by
  intro s ts rest port values hagenda hnodup htwo hstand
  have hstep := step_of_mergedPush hagenda (mergedAccess_of_standAt hnodup htwo hstand)
  have hfault (h : ∀ id, s.plat.outMap.lookup port = some id → s.devices[id]? = none) : step s = .fault .noDevice :=
    hstep.trans (mergedPush_noDevice (s := { s with agenda := rest }) h ts _)
  refine ⟨fun hunmapped => hfault fun _ h => (nomatch hunmapped.symm.trans h), fun id hport => ⟨fun hgone => ?_,
    fun depth queue force hd => ⟨fun hroom => ?_, fun hfull => ?_⟩, fun history hd => ?_⟩⟩
  · exact hfault fun _ h => Option.some.inj (hport.symm.trans h) ▸ hgone
  · exact step_of_standAt_push hagenda hnodup htwo hstand hport hd (fifoPush_room hroom force _)
  · have hretry := step_of_standAt_push hagenda hnodup htwo hstand hport hd (fifoPush_full hfull force _)
    rw [set_device_self hd] at hretry
    exact hretry
  · exact step_of_standAt_push hagenda hnodup htwo hstand hport hd rfl

end Sys2Proof.Machine
end

section
/-! SUPPORT. SWAP, and O35, O36: what it loads is the latch of the fetch, which the memory gave before the thread's own
writeback there was performed (rules R31, R45, R195; log entry 7). -/

namespace Sys2Proof.Machine

/-- Settles O35: SWAP updates the executing thread alone. -/
theorem swapReadsTheLatch : Obligations.SwapReadsTheLatch := fun _ hs _ => completes_upd hs rfl rfl

/-- What a thread that runs does at a SWAP: its fetch, whose latch holds the operand of the memory before it, then the
update that SWAP is (rules R31, R195). -/
theorem runThread_of_swap {s : State} {t : Nat} {th : Thread} (hth : s.threads[t]? = some th)
    (hlive : th.halted = false) (hgood : s.badFetch th = false) (hnormal : th.getter = false)
    (hop : (s.mem.read th.addr).op = 0x01) :
    s.runThread t = .next ((s.fetch t th).upd fun th' => { th' with acc := (s.mem.read th.addr).x }.advance) := by
  rw [runThread_of_normal hth hlive hgood hnormal, State.fetchedWord, hop]
  rfl

/-- Settles O36: the fetch performs the coincident writeback (`fetch_read_same`) and moves no other address; what SWAP
does after it is in the thread's own record. -/
theorem swapStepReadsOldOperand : Obligations.SwapStepReadsOldOperand := by
  refine ⟨fun _ => rfl, rfl, fun s t th rest hnext hnormal hgood hm hop => ?_⟩
  have hcell : (({ s with agenda := rest } : State).fetch t th).mem.read th.addr = ⟨0x01, s.memRead th th.addr⟩ :=
    (fetch_read_same (s := { s with agenda := rest }) hm t th).trans (congrArg (CodeWord.mk · _) hop)
  rw [step_of_agenda hnext.agenda]
  refine ⟨_, _, runThread_of_swap (s := { s with agenda := rest }) hnext.thread hnext.live hgood hnormal hop,
    fetch_upd_getElem? hnext.thread _, rfl, ?_, fun v hv => ?_, fun hnone => ?_, fun a ha => ?_, fun k hk => ?_,
    rfl, rfl⟩
  · rw [badFetch_iff, threadAdvance_overrun, decide_eq_true_eq]
    exact Iff.rfl
  · rw [← memRead_of_pending (s := s) hv]
    exact hcell
  · rw [memRead_of_none hnone, ← hop] at hcell
    exact hcell
  · exact fetch_read_other _ t th ha
  · rw [upd_others _ _ hk, fetch_others _ t th hk]

end Sys2Proof.Machine
end

section
/-! SUPPORT. The pair PUT L; L: SWAP, and O37. After the PUT its thread stands at the SWAP with a fresh writeback to
that cell; no turn of another agent takes it from there, since a background step leaves what is fresh alone; the step
at the SWAP performs it and loads what the cell held (rules R47, R54, R196; log entry 6). -/

namespace Sys2Proof.Machine

/-- Thread `t` is about to fetch a SWAP at `a`, with its own write of `v` to that cell pending and fresh. -/
structure AtOwnSwap (s : State) (t a : Nat) (v : Word) (th : Thread) : Prop where
  inv : s.Inv
  thread : s.threads[t]? = some th
  live : th.halted = false
  normal : th.getter = false
  good : s.badFetch th = false
  addr : th.addr = a
  op : (s.mem.read a).op = 0x01
  pending : ⟨a, v, true⟩ ∈ th.wb

/-! The PUT. -/

theorem getter_eq_false {th : Thread} : th.getter = false ↔ th.pc.toNat < 2 ^ 31 := by
  rw [Thread.getter, BitVec.msb_eq_decide, decide_eq_false_iff_not, not_le]

/-- Where the word after the pc is an address that exists, `next` goes there with no carry and no getter flag
(rule R22). -/
theorem advance_normal {s : State} {th : Thread} (hsize : s.plat.codeSize ≤ 2 ^ 31) (hnormal : th.getter = false)
    (hexists : (th.pc + 1).toNat < s.plat.codeSize) : th.advance.getter = false ∧
      s.badFetch th.advance = false ∧ th.advance.addr = (th.pc + 1).toNat := by
  have hlow := getter_eq_false.1 hnormal
  have hpc : (th.pc + 1).toNat = th.pc.toNat + 1 := by bv_omega
  have hlt : (th.pc + 1).toNat < 2 ^ 31 := by omega
  exact ⟨getter_eq_false.2 hlt,
    badFetch_eq_false.2 ⟨decide_eq_false (by omega), (Nat.mod_le _ _).trans_lt hexists⟩, Nat.mod_eq_of_lt hlt⟩

/-- A store that completes leaves its thread's record as `next` does, but for the pending writebacks, and among those
is the new one, fresh (rules R46, R54). -/
theorem store_record {target v : Word} {s u : State} (hs : s.Running) (h : store target v s = .next u) :
    ∃ wb, u.threads[s.cur]? = some { s.thread.advance with wb := wb } ∧ ⟨target.toNat, v, true⟩ ∈ wb := by
  obtain ⟨s', hm, rfl⟩ := store_next h
  obtain ⟨-, hcur, -⟩ := (Reach.write _ _ hm).core
  obtain ⟨hs', wb, hthread⟩ := (Reach.write _ _ hm).thread hs
  refine ⟨wb, ?_, ?_⟩
  · rw [← hcur, advance_threads, List.getElem?_modify, thread_eq_getElem s' hs', hthread]
    simp [Thread.advance]
  · have hwb : wb = s'.thread.wb := by rw [hthread]
    rw [hwb, (memWrite_queued hs hm).wb]
    exact List.mem_append_right _ (List.mem_singleton_self _)

/-- A store that completes has a target that exists (rule R57). -/
theorem store_target_lt {target v : Word} {s u : State} (h : store target v s = .next u) :
    target.toNat < s.plat.codeSize := by
  refine Nat.not_le.1 fun hbad => ?_
  cases (store_fault.2 hbad).symm.trans h

/-- What a thread that runs does at a PUT: its fetch, then the store of its Acc (rules R31, R140). -/
theorem runThread_of_put {s : State} {t : Nat} {th : Thread} {x : Word} (hth : s.threads[t]? = some th)
    (hlive : th.halted = false) (hgood : s.badFetch th = false) (hnormal : th.getter = false)
    (hop : (s.mem.read th.addr).op = 0x0A) (hx : s.memRead th th.addr = x) :
    s.runThread t = store x th.acc (s.fetch t th) := by
  have hacc : (s.fetch t th).thread.acc = th.acc := by rw [thread_fetch hth, fetched_acc]
  rw [runThread_of_normal hth hlive hgood hnormal, State.fetchedWord, hop, hx, ← hacc]
  rfl

/-- A PUT to the address after its own, with a SWAP there, brings its thread to that SWAP. -/
theorem atOwnSwap_of_put {s u : State} {t : Nat} {th : Thread} (hs : s.Inv) (hth : s.threads[t]? = some th)
    (hlive : th.halted = false) (hnormal : th.getter = false) (hgood : s.badFetch th = false)
    (hput : (s.mem.read th.addr).op = 0x0A) (hoperand : s.memRead th th.addr = th.pc + 1)
    (hswap : (s.mem.read (th.pc + 1).toNat).op = 0x01) (h : s.runThread t = .next u) :
    ∃ th', AtOwnSwap u t (th.pc + 1).toNat th.acc th' := by
  obtain ⟨hu, hops⟩ := runThread_keepsInv h hs
  have hstore := (runThread_of_put hth hlive hgood hnormal hput hoperand).symm.trans h
  have hexists : (th.pc + 1).toNat < u.plat.codeSize := by
    rw [(runThread_keepsParameters h).plat, ← fetch_plat s t th]
    exact store_target_lt hstore
  obtain ⟨hnormal', hgood', haddr⟩ := advance_normal hu.sizeUpper hnormal hexists
  obtain ⟨wb, hrecord, hpending⟩ := store_record (running_fetch hth) hstore
  rw [thread_fetch hth] at hrecord
  exact ⟨_, {
    inv := hu
    thread := hrecord
    live := hlive
    normal := hnormal'
    good := hgood'
    addr := haddr
    op := (hops _).trans hswap
    pending := hpending }⟩

/-! The turns of the other agents. -/

/-- A turn in which a thread makes no step changes nothing of it but its pending writebacks, and no fresh one
(rules R30, R54). -/
theorem turn_keeps_fresh {s u : State} {c : Choice} {t : Nat} {th : Thread} {p : Pending} (h : s.turn c = .next u)
    (hspares : spares t c = true) (hth : s.threads[t]? = some th) (hp : p ∈ th.wb) (hf : p.fresh = true) :
    ∃ wb, u.threads[t]? = some { th with wb := wb } ∧ p ∈ wb := by
  cases c with
  | run k =>
    have hk : t ≠ k := (bne_iff_ne.1 hspares).symm
    exact ⟨th.wb, (aThreadTouchesOnlyItself s u k h t hk).trans hth, hp⟩
  | drain k a =>
    cases h
    by_cases hk : t = k
    · subst hk
      obtain heq | ⟨-, q, -, -, -, -, heq⟩ := drain_cases s t a
      · exact ⟨th.wb, by rw [heq, hth], hp⟩
      · refine ⟨th.wb.eraseP fun q => q.addr == a && !q.fresh, by rw [heq]; simp [hth], ?_⟩
        exact (List.mem_eraseP_of_neg (by simp [hf])).2 hp
    · exact ⟨th.wb, (drain_others s k a hk).trans hth, hp⟩
  | merge ts =>
    obtain ⟨-, hothers⟩ := runMerge_frame h
    have hno : t ∉ ts := by simpa [spares] using hspares
    exact ⟨th.wb, (hothers t fun hmem => absurd hmem hno).trans hth, hp⟩

theorem AtOwnSwap.step {s u : State} {t a : Nat} {v : Word} {th : Thread} {c : Choice} {rest : List Choice}
    (hat : AtOwnSwap s t a v th) (hagenda : s.agenda = c :: rest) (hspares : spares t c = true)
    (h : step s = .next u) : ∃ th', AtOwnSwap u t a v th' := by
  obtain ⟨hu, hops⟩ := step_keepsInv h hat.inv
  have hplat := (step_keepsParameters h).plat
  rw [step_of_agenda hagenda] at h
  obtain ⟨wb, hrecord, hpending⟩ :=
    turn_keeps_fresh (s := { s with agenda := rest }) h hspares hat.thread hat.pending rfl
  exact ⟨_, {
    inv := hu
    thread := hrecord
    live := hat.live
    normal := hat.normal
    good := by rw [← hat.good, State.badFetch, hplat]; rfl
    addr := hat.addr
    op := (hops a).trans hat.op
    pending := hpending }⟩

/-! Runs. -/

theorem run_succ {k : Nat} {s m : State} (h : core.run (k + 1) s = .next m) :
    ∃ u, step s = .next u ∧ core.run k u = .next m := by
  cases hstep : step s with
  | next u => exact ⟨u, rfl, by simpa [Host.Core.run, core, hstep] using h⟩
  | fault r => simp [Host.Core.run, core, hstep] at h
  | refused r => simp [Host.Core.run, core, hstep] at h

/-- The run of the turns `mid` of other agents leaves the thread at its SWAP, and the rest of the agenda. -/
theorem AtOwnSwap.run {s m : State} {t a : Nat} {v : Word} {th : Thread} {mid rest : List Choice}
    (hat : AtOwnSwap s t a v th) (hagenda : s.agenda = mid ++ rest) (hspares : ∀ c ∈ mid, spares t c = true)
    (h : core.run mid.length s = .next m) : m.agenda = rest ∧ ∃ th', AtOwnSwap m t a v th' := by
  induction mid generalizing s th with
  | nil =>
    cases h
    exact ⟨hagenda, th, hat⟩
  | cons c mid ih =>
    obtain ⟨hc, hmid⟩ := List.forall_mem_cons.1 hspares
    obtain ⟨u, hstep, hrun⟩ := run_succ h
    obtain ⟨th', hat'⟩ := hat.step hagenda hc hstep
    exact ih hat' (by rw [step_agenda hstep, hagenda]; rfl) hmid hrun

/-! The SWAP. -/

/-- Settles O37: `atOwnSwap_of_put`, then `AtOwnSwap.run`, then the step at the SWAP, O36, at which the thread's own
write is the coincident one. -/
theorem atomicSwapIdiom : Obligations.AtomicSwapIdiom := by
  intro s t th mid rest m hs hnext hnormal hgood hput hoperand hswap hspares hrun
  obtain ⟨s₁, hstep, hrun⟩ := run_succ hrun
  have hagenda₁ : s₁.agenda = mid ++ .run t :: rest := by rw [step_agenda hstep, hnext.agenda]; rfl
  rw [step_of_agenda hnext.agenda] at hstep
  obtain ⟨hs₀, -⟩ := schedule_keepsInv s (mid ++ .run t :: rest) s.draws s.waits hs
  obtain ⟨th₁, hat₁⟩ := atOwnSwap_of_put hs₀ hnext.thread hnext.live hnormal hgood hput hoperand hswap hstep
  obtain ⟨hagenda, th₂, hat⟩ := hat₁.run hagenda₁ hspares hrun
  have hvalue := pendingValue_of_mem (hat.inv.pending th₂ (List.mem_of_getElem? hat.thread)) hat.pending
  obtain ⟨-, -, hstepsAtSwap⟩ := swapStepReadsOldOperand
  obtain ⟨u, th', hu, hth', hrecord, -, hperformed, -, hothers, -⟩ := hstepsAtSwap m t th₂ rest
    ⟨hagenda, hat.thread, hat.live⟩ hat.normal hat.good hat.inv.canonical (hat.addr.symm ▸ hat.op)
  rw [hat.addr] at hrecord hperformed hothers
  exact ⟨u, th', hu, hth', congrArg Thread.acc hrecord, hperformed _ hvalue, hothers⟩

end Sys2Proof.Machine
end

section
/-! SUPPORT. What CUSTOM gives, and O46: a custom operation queues the store of its result, if there is one, and then
changes the executing thread's registers as the result says (rules R81, R200; log entry 10). -/

namespace Sys2Proof.Machine

/-! What a custom operation answers (rules R46, R57, R200). -/

theorem customOp_of_store_none {code : Word} {o : Operand} {s : State} {r : CustomResult}
    (hr : s.plat.custom.lookup (s.customKey code o) = some r) (hst : r.store = none) :
    customOp code o s = .next (s.upd fun th => th.customResult s.plat.hasC r) := by
  simp only [customOp, hr, hst]

theorem customOp_of_memWrite {code target v : Word} {o : Operand} {s s' : State} {r : CustomResult}
    (hr : s.plat.custom.lookup (s.customKey code o) = some r) (hst : r.store = some (target, v))
    (hm : s.memWrite target.toNat v = some s') :
    customOp code o s = .next (s'.upd fun th => th.customResult s.plat.hasC r) := by
  simp only [customOp, hr, hst, hm]

theorem customOp_of_bad_target {code target v : Word} {o : Operand} {s : State} {r : CustomResult}
    (hr : s.plat.custom.lookup (s.customKey code o) = some r) (hst : r.store = some (target, v))
    (hbad : s.plat.codeSize ≤ target.toNat) : customOp code o s = .fault .badAddress := by
  simp only [customOp, hr, hst, memWrite_none.2 hbad]

/-! The registers (rules R24, R200). -/

/-- Whatever is pending, a result changes the registers as `customRecord` says, and nothing that is pending. -/
theorem customResult_record (s : State) (r : CustomResult) (wb : List Pending) :
    { ({ s.thread with wb := wb } : Thread).customResult s.plat.hasC r with overrun := s.thread.overrun } =
      { customRecord s r with wb := wb } := by
  obtain ⟨acc, b, c, store, pc⟩ := r
  cases pc with
  | next | stay | jump => rfl

/-- A store before the registers change shows in them only as what is pending. -/
theorem recordIs_custom {s s' : State} (hs : s.Running) (h : Reach s s') (r : CustomResult) :
    RecordIs (s'.upd fun th => th.customResult s.plat.hasC r)
      { customRecord s r with wb := (s'.upd fun th => th.customResult s.plat.hasC r).thread.wb } := by
  obtain ⟨hs', wb, hthread⟩ := h.thread hs
  rw [RecordIs, thread_upd s' _ hs', (registersOnly_custom s.plat.hasC r).wb, hthread]
  exact customResult_record s r wb

/-! The pc (rules R22, R57, R153, R200). -/

theorem jumped_of_samePc {s t : State} {target : Word} (hp : t.plat = s.plat)
    (h : SamePc (s.thread.jump target) t.thread) : Jumped s t target := by
  obtain ⟨hpc, hov⟩ := h
  refine ⟨hpc, ?_⟩
  rw [badFetch_iff, hov, hpc, hp, jump_overrun, jump_pc]
  exact or_iff_right Bool.false_ne_true

theorem customPc_of_samePc {s t : State} {e : PcEffect} (hp : t.plat = s.plat)
    (h : SamePc (s.thread.customPc e) t.thread) : CustomPc s t e := by
  cases e with
  | next => exact didNext_of_samePc hp h
  | stay => exact keptPc_of_samePc hp h
  | jump target => exact jumped_of_samePc hp h

/-- Where a thread stands after a result depends on where it stood and on the result's effect on the pc alone. -/
theorem samePc_customResult (th : Thread) (wb : List Pending) (hasC : Bool) (r : CustomResult) :
    SamePc (th.customPc r.pc) (({ th with wb := wb } : Thread).customResult hasC r) := by
  obtain ⟨acc, b, c, store, pc⟩ := r
  cases pc with
  | next | stay | jump => exact ⟨rfl, rfl⟩

theorem customOp_customPc {code : Word} {o : Operand} {s t : State} {r : CustomResult} (hs : s.Running)
    (hr : s.plat.custom.lookup (s.customKey code o) = some r) (h : customOp code o s = .next t) :
    CustomPc s t r.pc := by
  obtain ⟨r', s', hr', hstore, rfl⟩ := customOp_next h
  cases hr.symm.trans hr'
  have hreach : Reach s s' := by
    obtain ⟨-, rfl⟩ | ⟨target, v, -, hm⟩ := hstore
    · exact .none
    · exact .write _ _ hm
  obtain ⟨hplat, -⟩ := hreach.core
  obtain ⟨hs', wb, hthread⟩ := hreach.thread hs
  refine customPc_of_samePc hplat ?_
  rw [thread_upd s' _ hs', hthread]
  exact samePc_customResult s.thread wb s.plat.hasC r

/-- A custom operation with a store to a target that exists: the store as PUT makes its own, and then the registers. -/
theorem customOp_stores {code target v : Word} {o : Operand} {s : State} {r : CustomResult} (hs : s.Running)
    (hr : s.plat.custom.lookup (s.customKey code o) = some r) (hst : r.store = some (target, v))
    (hlt : target.toNat < s.plat.codeSize) :
    ∃ t, customOp code o s = .next t ∧ Queued s t target.toNat v ∧
      RecordIs t { customRecord s r with wb := t.thread.wb } ∧ SameCore s t ∧ t.devices = s.devices := by
  obtain ⟨s', hm⟩ := memWrite_of_lt hlt v
  have hreach : Reach s s' := .write _ _ hm
  obtain ⟨hs', -⟩ := hreach.thread hs
  exact ⟨_, customOp_of_memWrite hr hst hm, (memWrite_queued hs hm).upd hs' (registersOnly_custom s.plat.hasC r),
    recordIs_custom hs hreach r, hreach.sameCore.trans (sameRest_upd s' _).toSameCore,
    (upd_devices s' _).trans (memWrite_devices hm)⟩

/-- Settles O46: every form is the custom operation of its code by `exec_of_customUse`, and what the store of the
result is decides which of the clauses about `customOp` applies. -/
theorem customDoesWhatCustomSays : Obligations.CustomDoesWhatCustomSays := by
  intro i s form code x r hs huse hlookup
  obtain ⟨o, hexec, hkey⟩ := exec_of_customUse huse s
  rw [← hkey] at hlookup
  rw [hexec]
  exact ⟨fun hst => completes_upd hs (hexec.trans (customOp_of_store_none hlookup hst))
      (customResult_record s r s.thread.wb),
    fun _ _ => customOp_stores hs hlookup, fun _ _ => customOp_of_bad_target hlookup,
    fun _ => customOp_customPc hs hlookup⟩

end Sys2Proof.Machine
end

section
/-! SUPPORT. The end of a run, and O57: where every thread is halted and nothing is pending, no agent can act, and
every turn is idle (rules R102, R216). -/

namespace Sys2Proof.Machine

theorem final_iff {s : State} : s.final = true ↔ ∀ th ∈ s.threads, th.halted = true ∧ th.wb = [] := by
  simp [State.final]

theorem enabledTurns_of_final {s : State} (h : s.final = true) : s.enabledTurns = [] := by
  refine List.eq_nil_iff_forall_not_mem.2 fun c hc => ?_
  obtain ⟨k, th, hth, hturn⟩ := mem_turnsFrom.1 hc
  obtain ⟨hhalted, hwb⟩ := final_iff.1 h th (List.mem_of_getElem? hth)
  obtain ⟨-, hlive⟩ | ⟨p, hp, -⟩ := mem_turns.1 hturn
  · cases hhalted.symm.trans hlive
  · rw [hwb] at hp
    cases hp

/-- Two threads that merge exist, and here both would be halted. -/
theorem mergedAccess_of_final {s : State} (h : s.final = true) (ts : List Nat) : s.mergedAccess ts = none := by
  refine Option.eq_none_iff_forall_ne_some.2 fun r hr => ?_
  obtain ⟨-, htwo, values, hstand⟩ := standAt_of_mergedAccess hr
  obtain ⟨k, hk⟩ := List.exists_mem_of_length_pos (l := ts) (by omega)
  have hth := List.getElem?_eq_getElem (hstand.present hk)
  obtain ⟨hhalted, -⟩ := final_iff.1 h _ (List.mem_of_getElem? hth)
  cases (mergedAccess_of_halted hth hhalted hk).symm.trans hr

/-- In a final state every turn is idle: a step wants a thread that is not halted, the background step a writeback
that is pending, and a merged access threads that stand at it. -/
theorem turn_of_final {s : State} (h : s.final = true) (c : Choice) : s.turn c = .next s := by
  cases c with
  | run t =>
    obtain hidle | ⟨th, hth, hlive, -⟩ := runThread_cases s t
    · exact hidle
    · obtain ⟨hhalted, -⟩ := final_iff.1 h th (List.mem_of_getElem? hth)
      cases hhalted.symm.trans hlive
  | drain t a =>
    obtain hidle | ⟨th, p, hth, hp, -⟩ := drain_cases s t a
    · exact congrArg Host.Outcome.next hidle
    · obtain ⟨-, hwb⟩ := final_iff.1 h th (List.mem_of_getElem? hth)
      rw [hwb] at hp
      cases hp
  | merge ts =>
    rw [State.turn, State.runMerge, mergedAccess_of_final h]

/-- Settles O57: with no turn enabled the schedule gives a merged turn of no threads, and that turn is as idle as any
on the agenda (log entry 6). -/
theorem finalStatesStay : Obligations.FinalStatesStay := by
  refine fun s h => ⟨fun hagenda => ?_, fun c rest hagenda => ?_⟩
  · have hchoice : s.nextChoice = (.merge [], s) := by
      simp [State.nextChoice, hagenda, enabledTurns_of_final h]
    rw [step, hchoice]
    exact turn_of_final h _
  · rw [step_of_agenda hagenda]
    exact turn_of_final (s := { s with agenda := rest }) h c

end Sys2Proof.Machine
end

section
/-! SUPPORT. The timing of a taken jump, and O58: its latency is the distance in banks round the ring (rules R41,
R242). -/

namespace Sys2Proof.Machine

/-- A jump's latency, within a lap, is the distance from its own bank to its target's (rules R41, R242). -/
theorem jumpLatency_eq_iff {n k : Nat} (hlow : 1 ≤ k) (hhigh : k ≤ n) (a target : Nat) :
    jumpLatency n a target = k ↔ target % n = (a + k) % n := by
  have hsmall : ((k : Int) - 1) % n = k - 1 := Int.emod_eq_of_lt (by omega) (by omega)
  have hnonneg : 0 ≤ ((target : Int) - (a + 1)) % n := Int.emod_nonneg _ (by omega)
  calc jumpLatency n a target = k
      ↔ ((target : Int) - (a + 1)) % n = (k : Int) - 1 := by unfold jumpLatency; omega
    _ ↔ (target : Int) - (a + 1) ≡ k - 1 [ZMOD n] := by rw [Int.ModEq, hsmall]
    _ ↔ (target : Int) ≡ (a + k : Nat) [ZMOD n] := by
      rw [Int.modEq_iff_dvd, Int.modEq_iff_dvd]
      push_cast
      ring_nf
    _ ↔ target % n = (a + k) % n := Int.natCast_modEq_iff

theorem jumpLatency_bounds {n : Nat} (hn : 1 ≤ n) (a target : Nat) :
    1 ≤ jumpLatency n a target ∧ jumpLatency n a target ≤ n := by
  have hlt : ((target : Int) - (a + 1)) % n < n := Int.emod_lt_of_pos _ (by omega)
  unfold jumpLatency
  omega

theorem jumpPenalty_succ (n a target : Nat) : jumpPenalty n a target + 1 = jumpLatency n a target := rfl

/-- Settles O58: `jumpLatency_eq_iff` at a distance of one bank and of a whole lap. -/
theorem jumpLatencyIsOneToALap : Obligations.JumpLatencyIsOneToALap := by
  intro n a target hn
  obtain ⟨hlow, hhigh⟩ := jumpLatency_bounds hn a target
  have hnext : jumpLatency n a target = 1 ↔ target % n = (a + 1) % n := jumpLatency_eq_iff le_rfl hn a target
  have hlap : jumpLatency n a target = n ↔ target % n = a % n := by
    rw [jumpLatency_eq_iff hn le_rfl, Nat.add_mod_right]
  refine ⟨hlow, hhigh, hnext, hlap, jumpPenalty_succ n a target, fun s hs => ?_⟩
  subst hs
  exact ⟨hnext, hlap⟩

end Sys2Proof.Machine
end
